-- ==== Sys2Proof/Word.lean ====
section
/-! DEFINITION. The two data widths of `CORE`: a 32-bit register word and an 8-bit sample (R9), with the two plain
readings of a word as a number. -/

namespace Sys2Proof

/-- A register word: every register of the block is 32 bits wide (R9). -/
abbrev Word := BitVec 32

/-- A sample: an unsigned 8-bit integer in [0, 255] (R9), and one byte of system memory (R61). -/
abbrev Sample := BitVec 8

/-- `u32(w)`: the word read as an unsigned integer (R9). -/
abbrev u32 (w : Word) : Nat := w.toNat

/-- `s32(w)`: the word read as a two's-complement signed integer (R9). -/
abbrev s32 (w : Word) : Int := w.toInt

end Sys2Proof
end

