-- ==== Sys2Proof/Syntax.lean ====
section
/-! DEFINITION. The instruction set of `CORE`: one format, `CMD32` (R90), and the ten commands of the opcode map (R91). -/

namespace Sys2Proof

/-- The one instruction format (R90): `OP` in bits 7:0 and `RSVD` in bits 31:8 of the command word. -/
structure CMD32 where
  op : BitVec 8
  rsvd : BitVec 24
  deriving DecidableEq, Repr

/-- The ten commands, one for each row of the opcode map (R91). A command has no immediates and no register numbers: its
operands are the snapshot registers (R94). -/
inductive Instr where
  | rgb2lab
  | lab2rgb
  | rgb2hsv
  | hsv2rgb
  | clahe
  | gammalut
  | gamma
  | bright
  | satboost
  | enhance
  deriving DecidableEq, Repr

/-- The opcode of a command (R91). -/
def Instr.opcode : Instr → BitVec 8
  | .rgb2lab => 0x01#8
  | .lab2rgb => 0x02#8
  | .rgb2hsv => 0x03#8
  | .hsv2rgb => 0x04#8
  | .clahe => 0x05#8
  | .gammalut => 0x06#8
  | .gamma => 0x07#8
  | .bright => 0x08#8
  | .satboost => 0x09#8
  | .enhance => 0x0A#8

/-- The `CMD32` form of a command: its opcode with `RSVD` at 0 (R91). -/
def Instr.format (i : Instr) : CMD32 := { op := i.opcode, rsvd := 0#24 }

end Sys2Proof
end

