-- ==== Sys2Proof/WellFormed.lean ====
section
/-! DEFINITION. When a command word is legal (R90, R92). A command has no operand fields, so the checks are those of its
`CMD32` form; `Instr.wellFormed` applies them to the form of a command. -/

namespace Sys2Proof

/-- The reserved field must be 0 (R90, R92). -/
def CMD32.reservedZero (c : CMD32) : Bool := c.rsvd == 0#24

/-- `OP = 0x00` is kept illegal (R92). -/
def CMD32.opNonzero (c : CMD32) : Bool := c.op != 0x00#8

/-- `OP` in 0x0B to 0xFF is illegal (R92). -/
def CMD32.opDefined (c : CMD32) : Bool := decide (c.op.toNat ≤ 0x0A)

/-- The form is one of the ten commands (R91, R92). -/
def CMD32.wellFormed (c : CMD32) : Bool := c.reservedZero && c.opNonzero && c.opDefined

/-- A command is well formed when its form is. -/
def Instr.wellFormed (i : Instr) : Bool := i.format.wellFormed

end Sys2Proof
end

