-- ==== Sys2Proof/Decode.lean ====
section
/-! DEFINITION. Decoding is total (R93): every 32-bit word is one of the ten commands or is illegal, and the reason is
named. The encoder stands after it. -/

namespace Sys2Proof

/-- Why a word is illegal (R92), in the order in which the three conditions of R92 stand. -/
inductive Illegal where
  /-- `RSVD ≠ 0`. -/
  | reservedNonzero
  /-- `OP = 0x00`. -/
  | opZero
  /-- `OP` in 0x0B to 0xFF. -/
  | opUndefined
  deriving DecidableEq, Repr

/-- The two fields of a command word (R90). -/
def CMD32.ofWord (w : Word) : CMD32 := { op := w.extractLsb' 0 8, rsvd := w.extractLsb' 8 24 }

/-- The command word with these two fields (R90). -/
def CMD32.toWord (c : CMD32) : Word := c.rsvd ++ c.op

/-- The command an opcode selects (R91); the opcode is a row of the map or is refused by name. -/
def decodeOp (op : BitVec 8) : Except Illegal Instr :=
  match op.toNat with
  | 0x00 => .error .opZero
  | 0x01 => .ok .rgb2lab
  | 0x02 => .ok .lab2rgb
  | 0x03 => .ok .rgb2hsv
  | 0x04 => .ok .hsv2rgb
  | 0x05 => .ok .clahe
  | 0x06 => .ok .gammalut
  | 0x07 => .ok .gamma
  | 0x08 => .ok .bright
  | 0x09 => .ok .satboost
  | 0x0A => .ok .enhance
  | _ => .error .opUndefined

/-- `decode(w)` of R93. -/
def decode (w : Word) : Except Illegal Instr :=
  if (CMD32.ofWord w).reservedZero then decodeOp (CMD32.ofWord w).op else .error .reservedNonzero

/-- The command word of a command: `0x000000OP` (R91). -/
def encode (i : Instr) : Word := i.format.toWord

/-- The command that the decoder reads from the word whose bits are `w`, bit 0 the least significant. A command word is one
32-bit word and is written whole to `CMD` (R61, R90), so no byte order enters; a number of more than 32 bits is no command
word. -/
def decodeTableWord (_nbits w : Nat) : Option Instr :=
  if w < 2 ^ 32 then (decode (BitVec.ofNat 32 w)).toOption else none

end Sys2Proof
end

