-- ==== Sys2Proof/Config.lean ====
section
/-! DEFINITION. What an implementation or a platform fixes: the identity constants of R22, the implementation parameters of
R8 as plain data (`Platform`), and the free values, which are constants with no body. -/

namespace Sys2Proof

/-- A run of `size` consecutive bytes from `base`. -/
structure Region where
  base : Nat
  size : Nat
  deriving DecidableEq, Repr

/-- The address lies in the region. -/
def Region.has (r : Region) (a : Nat) : Bool := decide (r.base ≤ a) && decide (a < r.base + r.size)

/-- `IRQ_LINE`: how the `irq` output reaches a processor (R8, R212). -/
structure IrqLine where
  /-- The interrupt number. -/
  number : Nat
  /-- Which interrupt controller takes it. -/
  controller : Nat
  /-- Its priority there. -/
  priority : Nat
  deriving DecidableEq, Repr

/-- The implementation parameters that R8 leaves OPEN, as data, so that a claim holds for every choice of them. -/
structure Platform where
  /-- `REG_BASE`: bus address of register offset 0x000 (R8). -/
  regBase : Nat
  /-- `MEM_SIZE − 1`, so that every value gives 1 ≤ `MEM_SIZE` ≤ 2^32 (R8). -/
  memTop : BitVec 32
  /-- `MAX_TILES`; `none` is the default, unbounded (R8, R207). -/
  maxTiles : Option Nat
  /-- The addresses at which the predicate `busFault` is true, as runs of bytes; empty is the default (R8, R209). -/
  faulting : List Region
  /-- `DMA_COHERENT` (R8, R75). -/
  dmaCoherent : Bool
  /-- Bytes of system memory that are a device or have side effects: outside the model (R68, R69, 93 I2). -/
  devices : List Region
  /-- `IRQ_LINE`: routing outside the block; no rule of the block reads it (R8, R212, log entry 6). -/
  irqLine : IrqLine
  deriving DecidableEq, Repr

namespace Platform

/-- `MEM_SIZE` (R8). -/
def memSize (p : Platform) : Nat := p.memTop.toNat + 1

/-- `busFault(a)` (R8, R209). -/
def busFault (p : Platform) (a : Nat) : Bool := p.faulting.any (·.has a)

/-- The byte belongs to a device or has side effects (R68, 93 I2). -/
def isDevice (p : Platform) (a : Nat) : Bool := p.devices.any (·.has a)

end Platform

namespace Config

/-- The constant of the `ID` register (R22). -/
def idValue : Word := 0x4C414243#32

/-- The constant of the `VERSION` register (R22). -/
def versionValue : Word := 0x00010000#32

/-- The platform that `State.reset` stands on. DESIGN CHOICE (log entry 5, unsafe): `REG_BASE`, `MEM_SIZE`,
`DMA_COHERENT` and `IRQ_LINE` are OPEN; `MAX_TILES` and `busFault` are at the defaults of R8. Claims quantify over
the platform and do not rest on it. -/
def platform : Platform :=
  { regBase := 0, memTop := 0xFFFFFFFF#32, maxTiles := none, faulting := [], dmaCoherent := true, devices := [],
    irqLine := { number := 0, controller := 0, priority := 0 } }

/-- A byte that the spec says holds any value (R209, R241, R246, R247). Free: no body, no claim may know it. -/
opaque freeByte : Nat → BitVec 8

/-- A word that the spec says is any value: the data of an undefined register read (R39, 93 I1). Free. -/
opaque freeWord : Nat → BitVec 32

/-- Whether the platform signals a bus error on an undefined register access (R39, 93 I1). Free. -/
opaque freeBit : Nat → Bool

/-- What system memory holds at an address that nothing has written: the platform's affair (R240). Free. -/
opaque powerOnByte : Nat → BitVec 8

/-- The byte of a LAB channel when the rational enclosure of `Machine/Color.lean` does not decide its rounding; free, so
that the model never states a wrong byte (log entry 9: no input of the 2^24 reaches it). Arguments: r, g, b, channel. -/
opaque undecidedByte : BitVec 8 → BitVec 8 → BitVec 8 → Nat → BitVec 8

/-- Fractional bits of the rational enclosures of `lin` and `cbrt` (R13, 93 I6, log entry 9). -/
def labPrecision : Nat := 64

/-- Mantissa bits of the quick bounds on a power before the exact comparison is made (log entry 10). -/
def powPrecision : Nat := 64

end Config

end Sys2Proof
end

