-- ==== Sys2Proof/Machine/State.lean ====
section
/-! DEFINITION. The state of `CORE` as plain data (R20 to R45): the registers, the engine with all the hidden storage of R43,
system memory, and what the outside world does to the block next. Also the two closed lists of reasons a step can stop. -/

namespace Sys2Proof.Machine

/-! ### Registers -/

/-- The registers of the map of R23 that are not reserved, in offset order. -/
inductive Reg where
  | id | version | ctrl | status | cmd | errCode | errField | errValue
  | height | width | channels | channelOrder | srcAddr | srcLen | dstAddr | dstLen
  | clipLimit | tileRows | tileCols | gamma | brightness | saturation
  deriving DecidableEq, Repr

/-- The registers 0x020 to 0x054 (R28 to R37), and the snapshot of them that a command runs on (R41). -/
structure Params where
  height : Word
  width : Word
  channels : Word
  channelOrder : Word
  srcAddr : Word
  srcLen : Word
  dstAddr : Word
  dstLen : Word
  clipLimit : Word
  tileRows : Word
  tileCols : Word
  gamma : Word
  brightness : Word
  saturation : Word
  deriving DecidableEq, Repr

/-- The four bits of `STATUS` (R25). Bits 31:4 are reserved and read 0, so nothing is stored for them. -/
structure Status where
  busy : Bool
  done : Bool
  error : Bool
  overrun : Bool
  deriving DecidableEq, Repr

/-- Every register that holds something: `CTRL.IRQ_EN` is all that `CTRL` stores (R24), `ID` and `VERSION` are constants
(R22), and reserved offsets hold nothing (R38). -/
structure Regs where
  irqEn : Bool
  status : Status
  cmd : Word
  errCode : Word
  errField : Word
  errValue : Word
  params : Params
  deriving DecidableEq, Repr

/-- The reset values of the registers 0x020 to 0x054 (R23). -/
def Params.reset : Params :=
  { height := 0x00000000#32, width := 0x00000000#32, channels := 0x00000003#32, channelOrder := 0x00000000#32,
    srcAddr := 0x00000000#32, srcLen := 0x00000000#32, dstAddr := 0x00000000#32, dstLen := 0x00000000#32,
    clipLimit := 0x40000000#32, tileRows := 0x00000008#32, tileCols := 0x00000008#32,
    gamma := 0x3F99999A#32, brightness := 0x3F8CCCCD#32, saturation := 0x3F8CCCCD#32 }

/-- `STATUS` at reset: every bit 0 (R25). -/
def Status.reset : Status := { busy := false, done := false, error := false, overrun := false }

/-- Every register at its reset value (R23, R240). -/
def Regs.reset : Regs :=
  { irqEn := false, status := Status.reset, cmd := 0#32, errCode := 0#32, errField := 0#32, errValue := 0#32,
    params := Params.reset }

/-! ### The engine -/

/-- The internal storage of a running command that no register exposes (R43), created at acceptance and discarded when the
command ends: the gamma LookupTable, the per-tile histograms and mapping functions, and the intermediate planes. -/
structure Hidden where
  gammaTable : List Sample
  histograms : List (List Nat)
  mappings : List (List Sample)
  planes : List (List Sample)
  deriving DecidableEq, Repr

/-- What a command's rule computes from the snapshot and the source bytes: the hidden storage it goes through and the bytes
of the destination range, byte `k` for `DST_ADDR + k` (R66). -/
structure Work where
  hidden : Hidden
  out : List Sample
  deriving DecidableEq, Repr

/-- The payload of `Busy(cmd, snap, pend)` (R21), with the hidden storage of R43. -/
structure Job where
  /-- The accepted command word. -/
  cmd : Word
  /-- The snapshot of R41. -/
  snap : Params
  /-- The command's hidden storage and the value its rule gives each destination byte. -/
  work : Work
  /-- How many bytes the source range has: `SRC_LEN`, or 0 for `GAMMALUT`, which has no source (R31, R161). -/
  srcSize : Nat
  /-- Source addresses that the engine, left alone, has still to read (the model's own: the reads of the command's rule, log
  entry 3). Completion does not depend on it (R42). -/
  unread : List Nat
  /-- `pend`: destination addresses not yet written (R21, R40). -/
  pend : List Nat
  /-- Another agent wrote a byte of the source or destination range since acceptance (R246). -/
  disturbed : Bool
  deriving DecidableEq, Repr

/-- `eng` (R21). -/
inductive Engine where
  | idle
  | busy (job : Job)
  deriving DecidableEq, Repr

/-! ### System memory -/

/-- System memory: the bytes that something has written since power-on, by strictly rising address. An unlisted address has no
value of the model's, and a read of it gives the free value `Config.powerOnByte` (log entry 4); so no entry can repeat what an
unlisted address is, and memories with the same bytes written are the same list (Laws/Memory.lean, `eq_of_get?_eq`). -/
abbrev Memory := List Host.Cell

/-- The canonical form: addresses strictly rising. -/
def Memory.wf : Memory → Bool
  | [] => true
  | [_] => true
  | x :: y :: m => decide (x.1 < y.1) && Memory.wf (y :: m)

/-! ### The outside world -/

/-- What happens to the block next. The block's state changes form one total order of steps (R213); `State.agenda` holds
that order, and each entry is one step. The host's statements are those of R95. -/
inductive Event where
  /-- The host writes `data` by an access of `size` bytes at bus address `addr` of the register space (R39). -/
  | regWrite (addr size : Nat) (data : Word)
  /-- The host reads `size` bytes at bus address `addr` of the register space (R39). -/
  | regRead (addr size : Nat)
  /-- The host reads the register word at `addr` until `(read & mask) = value` (R95). -/
  | poll (addr : Nat) (mask value : Word)
  /-- The host waits until `irq = 1` (R95). -/
  | waitIrq
  /-- The host or another bus master stores a byte to system memory (R15, R246). -/
  | memStore (addr : Nat) (b : Sample)
  /-- The host loads a byte of system memory (R15, R247). -/
  | memLoad (addr : Nat)
  /-- The host cleans a range from its caches (R75). -/
  | cacheClean (r : Region)
  /-- The host invalidates a range in its caches (R75). -/
  | cacheInvalidate (r : Region)
  /-- The reset input is asserted and released (R240). -/
  | hardReset
  /-- The engine reads the source byte at `addr` (R66). -/
  | engRead (addr : Nat)
  /-- The engine writes the destination byte at `addr` (R66). -/
  | engWrite (addr : Nat)
  /-- The engine takes the completion step (R42). -/
  | engFinish
  /-- The engine takes whichever step it may take next, in a fixed order (R251). -/
  | engAuto
  deriving DecidableEq, Repr

/-- What the host has got back from the block and from memory, and what its caches hide. The model's own. -/
structure HostSide where
  /-- The word the last register read returned. -/
  rdData : Word
  /-- Whether the last register access was answered with a bus error by the platform (R39, 93 I1). -/
  busErr : Bool
  /-- The byte the last memory load returned. -/
  ldData : Sample
  /-- Bytes the host stored and has not cleaned from its caches; only when `DMA_COHERENT` is false (R75). -/
  uncleaned : List Nat
  /-- Destination bytes the host has not invalidated since a command wrote them; only when not coherent (R75). -/
  stale : List Nat
  deriving DecidableEq, Repr

/-! ### The state -/

/-- The whole machine. -/
structure State where
  /-- The implementation parameters of R8: fixed, no step changes them. -/
  plat : Platform
  /-- The registers of R23. -/
  regs : Regs
  /-- The engine (R21, R43). -/
  eng : Engine
  /-- System memory (R60). -/
  mem : Memory
  /-- What the host sees (R15). -/
  host : HostSide
  /-- The steps to come, in order (R213); when it is empty the engine goes on alone (R251). -/
  agenda : List Event
  /-- How many free values have been drawn: the argument for the next one. -/
  fresh : Nat
  deriving DecidableEq, Repr

/-- The host has seen nothing yet. DESIGN CHOICE (log entry 7). -/
def HostSide.reset : HostSide := { rdData := 0#32, busErr := false, ldData := 0#8, uncleaned := [], stale := [] }

/-- The machine on platform `p` right after hardware reset (R240, R242), with no byte of memory written since power-on and
nothing yet to come. -/
def State.resetOn (p : Platform) : State :=
  { plat := p, regs := Regs.reset, eng := .idle, mem := [], host := HostSide.reset, agenda := [], fresh := 0 }

/-- The machine right after reset (R240). -/
def State.reset : State := State.resetOn Config.platform

/-! ### Why a step can stop -/

/-- Why the machine stops with a fault. No command and no defined access of the block does. -/
inductive Fault where
  /-- Raised by a host load or store at an address at or above `MEM_SIZE`: the spec gives system memory the addresses 0 to
  `MEM_SIZE − 1` and no other (R60). Safe: the model stops where the platform may go on. -/
  | noSuchMemory (addr : Nat)
  /-- Raised by a register-space access outside the 4096 bytes of the block: no register stands there (R60). Safe. -/
  | noSuchRegister (addr : Nat)
  deriving DecidableEq, Repr

/-- Why the model refuses a step. -/
inductive Refusal where
  /-- Raised by `exec` for an instruction that has no meaning yet; no arm does. Safe. -/
  | notModelled (mnemonic : String)
  /-- Raised by an access of the engine or the host to a byte that belongs to a device or has side effects, which the spec
  puts outside the model (R68, R69, 93 I2 'refuse'). Safe. -/
  | deviceByte (addr : Nat)
  deriving DecidableEq, Repr

end Sys2Proof.Machine
end

