-- ==== Sys2Proof/Machine/Flags.lean ====
section
/-! DEFINITION. The flags of the block: the words of `CTRL` and `STATUS` (R24, R25), the write-one-to-clear rule, the flag
changes of acceptance, completion and error, and the wire `irq` (R45). -/

namespace Sys2Proof.Machine

/-- A bit as a word with only bit `k` set. -/
def bitAt (b : Bool) (k : Nat) : Word := if b then 1#32 <<< k else 0#32

/-- What a read of `STATUS` returns: `BUSY`, `DONE`, `ERROR`, `OVERRUN` in bits 0 to 3, and 0 in the reserved bits (R25). -/
def Status.toWord (st : Status) : Word :=
  bitAt st.busy 0 ||| bitAt st.done 1 ||| bitAt st.error 2 ||| bitAt st.overrun 3

/-- A host write to `STATUS`: writing 1 clears `DONE`, `ERROR` or `OVERRUN`; `BUSY` and the reserved bits ignore it (R25). -/
def Status.writeOneClear (st : Status) (w : Word) : Status :=
  { busy := st.busy
    done := st.done && !w.getLsbD 1
    error := st.error && !w.getLsbD 2
    overrun := st.overrun && !w.getLsbD 3 }

/-- What a read of `CTRL` returns: `IRQ_EN` in bit 0; `SOFT_RESET` and the reserved bits read 0 (R24). -/
def ctrlWord (irqEn : Bool) : Word := bitAt irqEn 0

/-- Acceptance of a command clears `DONE` and `ERROR` (R40); `OVERRUN` stays (R25). -/
def Status.accept (st : Status) : Status := { st with done := false, error := false }

/-- The command goes to the engine (R40). -/
def Status.start (st : Status) : Status := { st with busy := true }

/-- Completion (R42): `BUSY` falls and `DONE` rises; `ERROR` stays. -/
def Status.complete (st : Status) : Status := { st with busy := false, done := true }

/-- An error report (R204) or a bus fault (R209): `BUSY` 0, `DONE` and `ERROR` 1. -/
def Status.fail (st : Status) : Status := { st with busy := false, done := true, error := true }

/-- A `CMD` write while busy (R40). -/
def Status.overran (st : Status) : Status := { st with overrun := true }

/-- `irq = CTRL.IRQ_EN ∧ STATUS.DONE`: a wire, not stored (R45, R212). -/
def State.irq (s : State) : Bool := s.regs.irqEn && s.regs.status.done

end Sys2Proof.Machine
end

