-- ==== Sys2Proof/Machine/Exact.lean ====
section
/-! DEFINITION. The exact arithmetic of R9, R10, R11 and R13: rounding, clamping, the value of a binary32 pattern, integer
roots, and comparison of rational powers. Nothing here rounds except where a rule says so. -/

namespace Sys2Proof.Machine

/-! ### Rounding and clamping (R10) -/

/-- `roundTE(x)`: the nearest integer, the even one when `x` lies halfway (R10). -/
def roundTE (x : ℚ) : Int :=
  let f := x.floor
  let d := x - (f : ℚ)
  if d < 1 / 2 then f
  else if 1 / 2 < d then f + 1
  else if f % 2 = 0 then f else f + 1

/-- `clamp8(v)`: `v` brought into [0, 255], as a sample (R10). -/
def clamp8 (v : Int) : Sample := BitVec.ofInt 8 (min (max v 0) 255)

/-- The exact value of a sample. -/
def sampleQ (v : Sample) : ℚ := (v.toNat : ℚ)

/-! ### Binary32 patterns (R11) -/

/-- The exponent field `w[30:23]`. -/
def f32Exp (w : Word) : Nat := (w.extractLsb' 23 8).toNat

/-- The fraction field `w[22:0]`. -/
def f32Frac (w : Word) : Nat := (w.extractLsb' 0 23).toNat

/-- `isFinite(w)`: false for infinities and NaNs (R11). -/
def isFinite (w : Word) : Bool := f32Exp w != 255

/-- The exact power of two. -/
def pow2 (k : Int) : ℚ := if 0 ≤ k then (2 : ℚ) ^ k.toNat else 1 / (2 : ℚ) ^ (-k).toNat

/-- `f32(w)`: the exact value of the pattern (R11). It is used for finite patterns only. -/
def f32 (w : Word) : ℚ :=
  let m : ℚ := (f32Frac w : ℚ)
  let mag : ℚ :=
    if f32Exp w = 0 then pow2 (-126) * (m / 2 ^ 23) else pow2 ((f32Exp w : Int) - 127) * (1 + m / 2 ^ 23)
  if w.getLsbD 31 then -mag else mag

/-- `f32(w) = 0`, read from the bits: both zeros, and no other pattern (R11). -/
def f32IsZero (w : Word) : Bool := f32Exp w == 0 && f32Frac w == 0

/-- `f32(w) < 0`, read from the bits of a finite pattern: the sign is set and the value is not a zero (R11). -/
def f32Negative (w : Word) : Bool := w.getLsbD 31 && !f32IsZero w

/-! ### Search by bits -/

/-- Builds a number from its bits, the highest first: a bit is kept when `p` holds of the number so far with that bit. For
a `p` that is true up to some number and false above it, this is the largest number for which `p` holds. -/
def greedy (p : Nat → Bool) : Nat → Nat → Nat
  | 0, acc => acc
  | b + 1, acc => if p (acc + 2 ^ b) then greedy p b (acc + 2 ^ b) else greedy p b acc

/-- The largest `r < 2 ^ bits` with `r ^ k ≤ n`. -/
def iroot (k bits n : Nat) : Nat := greedy (fun r => decide (r ^ k ≤ n)) bits 0

/-- `roundTE(x)` for an `x` in [0, 255] known only by comparison: `cmp n` says how `x` compares with `n − 1/2`. The number
rounded to is at least `n` when `x` is above `n − 1/2`, and on the tie when `n` is even (R10). -/
def roundByCmp (cmp : Nat → Ordering) : Nat :=
  greedy (fun n => match cmp n with
    | .gt => true
    | .eq => n % 2 == 0
    | .lt => false) 8 0

/-- The three-way comparison of two rationals. -/
def cmpQ (x y : ℚ) : Ordering := if x < y then .lt else if x = y then .eq else .gt

/-! ### Comparison of rational powers (R13, log entry 10) -/

/-- A number `m · 2 ^ e`. -/
structure Scaled where
  m : Nat
  e : Nat
  deriving DecidableEq, Repr

/-- The number dropped to at most `P` bits of mantissa, rounded down. -/
def Scaled.down (P : Nat) (x : Scaled) : Scaled :=
  let s := Nat.log2 x.m + 1 - P
  { m := x.m >>> s, e := x.e + s }

/-- The number brought to about `P` bits of mantissa, rounded up. -/
def Scaled.up (P : Nat) (x : Scaled) : Scaled :=
  let s := Nat.log2 x.m + 1 - P
  { m := (x.m >>> s) + (if s = 0 then 0 else 1), e := x.e + s }

/-- The exact product. -/
def Scaled.mul (x y : Scaled) : Scaled := { m := x.m * y.m, e := x.e + y.e }

/-- The square of a number, times `a` when `q` is odd: one step of repeated squaring. -/
def Scaled.square (a q : Nat) (h : Scaled) : Scaled :=
  { m := if q % 2 = 1 then h.m * h.m * a else h.m * h.m, e := h.e + h.e }

/-- A bound on `a ^ q` by repeated squaring, each step followed by `cut`; `fuel` must reach the bit length of `q`. -/
def powBound (cut : Scaled → Scaled) (a : Nat) : Nat → Nat → Scaled
  | 0, _ => { m := 1, e := 0 }
  | fuel + 1, q =>
    if q = 0 then { m := 1, e := 0 }
    else cut (Scaled.square a q (powBound cut a fuel (q / 2)))

/-- A lower bound on `a ^ q`. -/
def powDown (P a q : Nat) : Scaled := powBound (Scaled.down P) a (Nat.log2 q + 1) q

/-- An upper bound on `a ^ q`. -/
def powUp (P a q : Nat) : Scaled := powBound (Scaled.up P) a (Nat.log2 q + 1) q

/-- `x < y` for two numbers with positive mantissas, without writing out a large power of two. -/
def Scaled.lt (x y : Scaled) : Bool :=
  let lx := Nat.log2 x.m + x.e
  let ly := Nat.log2 y.m + y.e
  if lx < ly then true
  else if ly < lx then false
  else decide (x.m <<< (x.e - y.e) < y.m <<< (y.e - x.e))

/-- The exact comparison of `(a/b)^q` with `(c/d)^p`, on whole numbers. -/
def powCmpExact (a b q c d p : Nat) : Ordering := compare (a ^ q * d ^ p) (c ^ p * b ^ q)

/-- The comparison of `(a/b)^q` with `(c/d)^p` for positive `a`, `b`, `c`, `d`: by bounds where they decide it, and by the
exact powers where they do not, so that the answer is always the exact one (Laws/Exact.lean, `powCmp_eq_exact`). -/
def powCmp (a b q c d p : Nat) : Ordering :=
  let P := Config.powPrecision
  if ((powUp P a q).mul (powUp P d p)).lt ((powDown P c p).mul (powDown P b q)) then .lt
  else if ((powUp P c p).mul (powUp P b q)).lt ((powDown P a q).mul (powDown P d p)) then .gt
  else powCmpExact a b q c d p

/-! ### Enclosures of the roots of R110 and R112 (R13, 93 I6) -/

/-- The largest multiple of `2^-P` not above `x ^ (s/r)`, for `x` in [0, 1] (or with `x ^ (s/r) < 2`): the largest `k / 2^P`
with `k ^ r ≤ x ^ s · 2 ^ (r P)`. -/
def rootDown (P r s : Nat) (x : ℚ) : ℚ :=
  (iroot r (P + 1) (x.num.toNat ^ s * 2 ^ (r * P) / x.den ^ s) : ℚ) / 2 ^ P

/-- The next multiple of `2^-P` above `rootDown`. -/
def rootUp (P r s : Nat) (x : ℚ) : ℚ := rootDown P r s x + 1 / 2 ^ P

end Sys2Proof.Machine
end

