-- ==== Sys2Proof/Machine/Operands.lean ====
section
/-! DEFINITION. The operands of a command: the snapshot registers as R94 decodes them, the buffer layouts of R62 to R64, the
channel order of R125, and the lengths and register lists of the opcode map (R91). -/

namespace Sys2Proof.Machine

/-! ### The snapshot registers decoded (R94) -/

/-- `H`. -/
def Params.H (p : Params) : Nat := u32 p.height

/-- `W`. -/
def Params.W (p : Params) : Nat := u32 p.width

/-- `N = H·W`, exact (R91, R203). -/
def Params.N (p : Params) : Nat := p.H * p.W

/-- The source range's first address. -/
def Params.sA (p : Params) : Nat := u32 p.srcAddr

/-- The source range's length. -/
def Params.sL (p : Params) : Nat := u32 p.srcLen

/-- The destination range's first address. -/
def Params.dA (p : Params) : Nat := u32 p.dstAddr

/-- The destination range's length. -/
def Params.dL (p : Params) : Nat := u32 p.dstLen

/-- `clipLimit`. -/
def Params.clip (p : Params) : ℚ := f32 p.clipLimit

/-- The tile rows, a positive number once validated (R34). -/
def Params.tr (p : Params) : Nat := (s32 p.tileRows).toNat

/-- The tile columns, a positive number once validated (R34). -/
def Params.tc (p : Params) : Nat := (s32 p.tileCols).toNat

/-- `gamma`. -/
def Params.gammaQ (p : Params) : ℚ := f32 p.gamma

/-- `brightnessBoost`. -/
def Params.brightQ (p : Params) : ℚ := f32 p.brightness

/-- `saturationBoost`. -/
def Params.satQ (p : Params) : ℚ := f32 p.saturation

/-- The order is not RGB: once validated, `CHANNEL_ORDER` is 1, BGR (R30, R125). -/
def Params.bgr (p : Params) : Bool := u32 p.channelOrder != 0

/-! ### Ranges of addresses (R31, R32) -/

/-- The addresses of the range of `len` bytes from `base`, rising. -/
def addrRange (base len : Nat) : List Nat := (List.range len).map (base + ·)

/-- The address lies in the range of `len` bytes from `base`. -/
def inRange (base len a : Nat) : Bool := decide (base ≤ a) && decide (a < base + len)

/-- The address lies in the job's source range (R31); `GAMMALUT` has none (R161). -/
def Job.inSrc (j : Job) (a : Nat) : Bool := inRange j.snap.sA j.srcSize a

/-- The address lies in the job's destination range (R32). -/
def Job.inDst (j : Job) (a : Nat) : Bool := inRange j.snap.dA j.snap.dL a

/-! ### Buffer layouts -/

/-- Three samples of one pixel: `(r, g, b)`, `(L, a, b)` or `(H, S, V)`. -/
abbrev Triple := Sample × Sample × Sample

/-- The pixels of an interleaved buffer in row-major order: byte `j` of pixel `k` is at offset `3k + j` (R63). -/
def chunk3 : List Sample → List Triple
  | x :: y :: z :: rest => (x, y, z) :: chunk3 rest
  | _ => []

/-- The interleaved buffer of these pixels (R63). -/
def unchunk3 : List Triple → List Sample
  | [] => []
  | (x, y, z) :: rest => x :: y :: z :: unchunk3 rest

/-- The three-plane buffer of these pixels: plane `j` starts at offset `j·N` (R64). -/
def toPlanes (l : List Triple) : List Sample := l.map (·.1) ++ (l.map (·.2.1) ++ l.map (·.2.2))

/-- Pairs up three planes. -/
def zip3 : List Sample → List Sample → List Sample → List Triple
  | x :: xs, y :: ys, z :: zs => (x, y, z) :: zip3 xs ys zs
  | _, _, _ => []

/-- The pixels of a three-plane buffer of `N` pixels: sample `k` of plane `j` is at offset `j·N + k` (R64). -/
def fromPlanes (N : Nat) (l : List Sample) : List Triple :=
  zip3 (l.take N) ((l.drop N).take N) ((l.drop (2 * N)).take N)

/-- The mapping between the bytes of a pixel and `(r, g, b)`: the identity for RGB, the swap of the outer two for BGR. It is
its own reverse (R125). -/
def reorder (bgr : Bool) (t : Triple) : Triple := if bgr then (t.2.2, t.2.1, t.1) else t

/-- The pixels of a source `Img` in RGB order (R63, R125). -/
def readImg (p : Params) (src : List Sample) : List Triple := (chunk3 src).map (reorder p.bgr)

/-- The bytes of a destination `Img` from pixels in RGB order (R63, R125). -/
def writeImg (p : Params) (l : List Triple) : List Sample := unchunk3 (l.map (reorder p.bgr))

/-! ### The opcode map's columns (R91) -/

/-- How long a buffer of the opcode map is (R91). -/
inductive Extent where
  /-- The command has no such buffer. -/
  | none
  /-- `N` bytes: one `Plane`. -/
  | plane
  /-- `3N` bytes: an `Img` or three planes. -/
  | triple
  /-- 256 bytes: the gamma LookupTable. -/
  | table
  deriving DecidableEq, Repr

/-- The length in bytes, exact (R203). -/
def Extent.bytes (e : Extent) (N : Nat) : Nat :=
  match e with
  | .none => 0
  | .plane => N
  | .triple => 3 * N
  | .table => 256

/-- A row of the opcode map, as the validation of R205 uses it. -/
structure Shape where
  /-- `srcNeed`; `none` when `hasSrc` is false. -/
  src : Extent
  /-- `dstNeed`. -/
  dst : Extent
  /-- `params(op)`, in the order of the map. -/
  params : List Reg
  /-- `usesImg(op)`: the command reads or writes an `Img`. -/
  usesImg : Bool
  /-- The command forms a tile grid: `CLAHE` and `ENHANCE` (R207). -/
  tiled : Bool
  deriving DecidableEq, Repr

/-- `hasSrc(op)` (R205). -/
def Shape.hasSrc (sh : Shape) : Bool := sh.src != .none

/-- How many source bytes the command has: `SRC_LEN`, or 0 without a source (R31, R91). -/
def Shape.srcSize (sh : Shape) (p : Params) : Nat := if sh.hasSrc then p.sL else 0

/-- Empty work: a command other than `GAMMALUT` whose `N` is 0 (R185). -/
def Shape.emptyWork (sh : Shape) (p : Params) : Bool := sh.dst != .table && p.N == 0

/-! ### The tile grid (R140, R141), which `ResourceLimit` counts as well (R207) -/

/-- `th = min(tr, H)` (R140). -/
def tileH (p : Params) : Nat := min p.tr p.H

/-- `tw = min(tc, W)` (R140). -/
def tileW (p : Params) : Nat := min p.tc p.W

/-- `ceil(n/d)`. -/
def ceilDiv (n d : Nat) : Nat := (n + d - 1) / d

/-- `nY = ceil(H/th)` (R141). -/
def tilesY (p : Params) : Nat := ceilDiv p.H (tileH p)

/-- `nX = ceil(W/tw)` (R141). -/
def tilesX (p : Params) : Nat := ceilDiv p.W (tileW p)

/-- A command that keeps no hidden storage. -/
def noHidden : Hidden := { gammaTable := [], histograms := [], mappings := [], planes := [] }

end Sys2Proof.Machine
end

