-- ==== Sys2Proof/Machine/Ops.lean ====
section
/-! DEFINITION. The named operations over registers and memory, the error report (the block's whole 'trap entry', R204) with
its acknowledgement (R211), the acceptance of a command (R40), the engine's steps (R42, R66, R209) and reset (R240, R241). -/

namespace Sys2Proof.Machine

/-! ### System memory -/

/-- The byte written last at an address, if any has been. -/
def Memory.get? : Memory → Nat → Option Sample
  | [], _ => none
  | (k, b) :: m, a => if k = a then some b else Memory.get? m a

/-- Writes one byte; keeps the canonical form. -/
def Memory.set : Memory → Nat → Sample → Memory
  | [], a, b => [(a, b)]
  | (k, c) :: m, a, b =>
    if a < k then (a, b) :: (k, c) :: m
    else if a = k then (a, b) :: m
    else (k, c) :: Memory.set m a b

/-- Writes consecutive bytes from `a`. -/
def Memory.setAll (m : Memory) (a : Nat) : List Sample → Memory
  | [] => m
  | b :: bs => Memory.setAll (m.set a b) (a + 1) bs

/-- What a byte of memory holds; an unwritten byte holds what the platform left there (R240, log entry 4). -/
def Memory.byteAt (m : Memory) (a : Nat) : Sample := (m.get? a).getD (Config.powerOnByte a)

/-- `MemRead(a, n)` (R12). -/
def Memory.read (m : Memory) (a n : Nat) : List Sample := (addrRange a n).map m.byteAt

/-- `len` bytes that each hold any value: the free values `n`, `n + 1`, … -/
def freeBytes (n len : Nat) : List Sample := (List.range len).map (fun k => Config.freeByte (n + k))

/-! ### The register map (R23) -/

/-- The offset of a register (R23). -/
def Reg.offset : Reg → Nat
  | .id => 0x000
  | .version => 0x004
  | .ctrl => 0x008
  | .status => 0x00C
  | .cmd => 0x010
  | .errCode => 0x014
  | .errField => 0x018
  | .errValue => 0x01C
  | .height => 0x020
  | .width => 0x024
  | .channels => 0x028
  | .channelOrder => 0x02C
  | .srcAddr => 0x030
  | .srcLen => 0x034
  | .dstAddr => 0x038
  | .dstLen => 0x03C
  | .clipLimit => 0x040
  | .tileRows => 0x044
  | .tileCols => 0x048
  | .gamma => 0x04C
  | .brightness => 0x050
  | .saturation => 0x054

/-- Every register of the map, in offset order. -/
def Reg.all : List Reg :=
  [.id, .version, .ctrl, .status, .cmd, .errCode, .errField, .errValue, .height, .width, .channels, .channelOrder,
   .srcAddr, .srcLen, .dstAddr, .dstLen, .clipLimit, .tileRows, .tileCols, .gamma, .brightness, .saturation]

/-- The register at an offset; none at the reserved offsets 0x058 to 0xFFC (R38). -/
def Reg.at? (off : Nat) : Option Reg := Reg.all.find? (fun r => r.offset == off)

/-- The value of one of the registers 0x020 to 0x054; 0 for the others. -/
def Params.get (p : Params) : Reg → Word
  | .height => p.height
  | .width => p.width
  | .channels => p.channels
  | .channelOrder => p.channelOrder
  | .srcAddr => p.srcAddr
  | .srcLen => p.srcLen
  | .dstAddr => p.dstAddr
  | .dstLen => p.dstLen
  | .clipLimit => p.clipLimit
  | .tileRows => p.tileRows
  | .tileCols => p.tileCols
  | .gamma => p.gamma
  | .brightness => p.brightness
  | .saturation => p.saturation
  | .id => 0#32
  | .version => 0#32
  | .ctrl => 0#32
  | .status => 0#32
  | .cmd => 0#32
  | .errCode => 0#32
  | .errField => 0#32
  | .errValue => 0#32

/-- A write to one of the registers 0x020 to 0x054: every bit is stored as written (R38). The others are not here. -/
def Params.set (p : Params) (r : Reg) (w : Word) : Params :=
  match r with
  | .height => { p with height := w }
  | .width => { p with width := w }
  | .channels => { p with channels := w }
  | .channelOrder => { p with channelOrder := w }
  | .srcAddr => { p with srcAddr := w }
  | .srcLen => { p with srcLen := w }
  | .dstAddr => { p with dstAddr := w }
  | .dstLen => { p with dstLen := w }
  | .clipLimit => { p with clipLimit := w }
  | .tileRows => { p with tileRows := w }
  | .tileCols => { p with tileCols := w }
  | .gamma => { p with gamma := w }
  | .brightness => { p with brightness := w }
  | .saturation => { p with saturation := w }
  | .id => p
  | .version => p
  | .ctrl => p
  | .status => p
  | .cmd => p
  | .errCode => p
  | .errField => p
  | .errValue => p

/-- What a read of a register returns (R22 to R37). No read has a side effect. -/
def Regs.read (rs : Regs) (r : Reg) : Word :=
  match r with
  | .id => Config.idValue
  | .version => Config.versionValue
  | .ctrl => ctrlWord rs.irqEn
  | .status => rs.status.toWord
  | .cmd => rs.cmd
  | .errCode => rs.errCode
  | .errField => rs.errField
  | .errValue => rs.errValue
  | .height => rs.params.get .height
  | .width => rs.params.get .width
  | .channels => rs.params.get .channels
  | .channelOrder => rs.params.get .channelOrder
  | .srcAddr => rs.params.get .srcAddr
  | .srcLen => rs.params.get .srcLen
  | .dstAddr => rs.params.get .dstAddr
  | .dstLen => rs.params.get .dstLen
  | .clipLimit => rs.params.get .clipLimit
  | .tileRows => rs.params.get .tileRows
  | .tileCols => rs.params.get .tileCols
  | .gamma => rs.params.get .gamma
  | .brightness => rs.params.get .brightness
  | .saturation => rs.params.get .saturation

/-! ### Updates of the state -/

/-- Replaces the registers. -/
def State.setRegs (s : State) (rs : Regs) : State := { s with regs := rs }

/-- Replaces `STATUS`. -/
def State.setStatus (s : State) (st : Status) : State := { s with regs := { s.regs with status := st } }

/-- Replaces the engine's state. -/
def State.setEng (s : State) (e : Engine) : State := { s with eng := e }

/-- Replaces system memory. -/
def State.setMem (s : State) (m : Memory) : State := { s with mem := m }

/-- Replaces what the host sees. -/
def State.setHost (s : State) (h : HostSide) : State := { s with host := h }

/-- Replaces what is to come. -/
def State.setAgenda (s : State) (l : List Event) : State := { s with agenda := l }

/-- Counts `n` more free values as drawn. -/
def State.draw (s : State) (n : Nat) : State := { s with fresh := s.fresh + n }

/-- `eng = Busy(…)`. -/
def Engine.isBusy : Engine → Bool
  | .idle => false
  | .busy _ => true

/-! ### Errors: the report, which is the block's whole trap entry (R200, R204) -/

/-- The error codes of R200. -/
inductive ErrorCode where
  | noError | invalidParameter | invalidImage | unsupportedChannelOrder | illegalCommand | bufferOverlap | addressRange
  | resourceLimit | busFault
  deriving DecidableEq, Repr

/-- The number of a code in `ERR_CODE` (R200). -/
def ErrorCode.toWord : ErrorCode → Word
  | .noError => 0#32
  | .invalidParameter => 1#32
  | .invalidImage => 2#32
  | .unsupportedChannelOrder => 3#32
  | .illegalCommand => 4#32
  | .bufferOverlap => 5#32
  | .addressRange => 6#32
  | .resourceLimit => 7#32
  | .busFault => 8#32

/-- What `raise Error(code, field, value)` carries (R12, R204). -/
structure Report where
  code : ErrorCode
  field : Reg
  value : Word
  deriving DecidableEq, Repr

/-- Writes the three `ERR_*` registers (R27). -/
def Regs.setError (rs : Regs) (code field value : Word) : Regs :=
  { rs with errCode := code, errField := field, errValue := value }

/-- The error report (R204): the `ERR_*` registers take code, field and value, `DONE` and `ERROR` rise, `BUSY` is 0 and
`eng` is `Idle`. Nothing else is saved, and no memory is touched. -/
def raiseError (s : State) (r : Report) : State :=
  { s with
    regs := { s.regs.setError r.code.toWord (BitVec.ofNat 32 r.field.offset) r.value with
      status := s.regs.status.fail }
    eng := .idle }

/-- The host's acknowledgement, which is all the return there is (R211): a write to `STATUS` (R25). -/
def acknowledge (s : State) (w : Word) : State := s.setStatus (s.regs.status.writeOneClear w)

/-! ### Validation (R201 to R207) -/

/-- The register's value is illegal for a command that uses it (R201). -/
def illegalParam (r : Reg) (w : Word) : Bool :=
  match r with
  | .clipLimit | .gamma | .brightness => !isFinite w || f32Negative w || f32IsZero w
  | .saturation => !isFinite w || f32Negative w
  | .tileRows | .tileCols => decide (s32 w ≤ 0)
  | _ => false

/-- `InvalidParameter` for the first illegal register of the list (R201, R205). -/
def checkParams (snap : Params) : List Reg → Option Report
  | [] => none
  | r :: rs =>
    if illegalParam r (snap.get r) then some { code := .invalidParameter, field := r, value := snap.get r }
    else checkParams snap rs

/-- `UnsupportedChannelOrder` (R202). -/
def checkOrder (sh : Shape) (snap : Params) : Option Report :=
  if sh.usesImg && !(u32 snap.channelOrder == 0 || u32 snap.channelOrder == 1) then
    some { code := .unsupportedChannelOrder, field := .channelOrder, value := snap.channelOrder }
  else none

/-- `InvalidImage`, its three cases in order (R203). -/
def checkImage (sh : Shape) (snap : Params) : Option Report :=
  if sh.usesImg && u32 snap.channels != 3 then
    some { code := .invalidImage, field := .channels, value := snap.channels }
  else if sh.hasSrc && snap.sL != sh.src.bytes snap.N then
    some { code := .invalidImage, field := .srcLen, value := snap.srcLen }
  else if snap.dL != sh.dst.bytes snap.N then
    some { code := .invalidImage, field := .dstLen, value := snap.dstLen }
  else none

/-- `rangeChecks`: `AddressRange` for the source, then for the destination, then `BufferOverlap` (R206). -/
def checkRanges (p : Platform) (sh : Shape) (snap : Params) : Option Report :=
  if sh.hasSrc && decide (0 < snap.sL) && decide (p.memSize < snap.sA + snap.sL) then
    some { code := .addressRange, field := .srcAddr, value := snap.srcAddr }
  else if decide (0 < snap.dL) && decide (p.memSize < snap.dA + snap.dL) then
    some { code := .addressRange, field := .dstAddr, value := snap.dstAddr }
  else if sh.hasSrc && decide (0 < snap.sL) && decide (0 < snap.dL) && decide (snap.sA < snap.dA + snap.dL)
      && decide (snap.dA < snap.sA + snap.sL) then
    some { code := .bufferOverlap, field := .dstAddr, value := snap.dstAddr }
  else none

/-- `ResourceLimit`: more tiles than the engine's tile storage holds (R207). -/
def checkTiles (p : Platform) (sh : Shape) (snap : Params) : Option Report :=
  match p.maxTiles with
  | none => none
  | some limit =>
    if sh.tiled && decide (0 < snap.N) && decide (limit < tilesY snap * tilesX snap) then
      some { code := .resourceLimit, field := .tileRows, value := snap.tileRows }
    else none

/-- The first of two reports, if there is one. -/
def firstOf (x y : Option Report) : Option Report :=
  match x with
  | some r => some r
  | none => y

/-- `validate(w, snap)` for a legal command word: the first failing check, in the order of R205. -/
def validate (p : Platform) (sh : Shape) (snap : Params) : Option Report :=
  firstOf (checkParams snap sh.params)
    (firstOf (checkOrder sh snap)
      (firstOf (checkImage sh snap)
        (firstOf (checkRanges p sh snap) (checkTiles p sh snap))))

/-! ### Acceptance of a command (R40, R41) -/

/-- The bytes of the source range, or none for a command that has no source (R66, R72). -/
def sourceBytes (sh : Shape) (m : Memory) (snap : Params) : List Sample :=
  m.read snap.sA (sh.srcSize snap)

/-- A byte of the source range still waits in the host's caches, so the engine may read the older one: R75 has the host clean
the source range, and no other, before it writes `CMD` (log entry 8). -/
def cacheHazard (sh : Shape) (s : State) (snap : Params) : Bool :=
  s.host.uncleaned.any (inRange snap.sA (sh.srcSize snap))

/-- The first effects of a `CMD` write that is taken: `CMD` holds the word, `DONE`, `ERROR` and the `ERR_*` registers are
cleared (R40). -/
def beginAccept (w : Word) (s : State) : State :=
  s.setRegs { (s.regs.setError 0#32 0#32 0#32) with cmd := w, status := s.regs.status.accept }

/-- The job of an accepted command: the snapshot, the work its rule gives for the source bytes as of acceptance (R72, R74),
every byte of the source range unread and every byte of the destination range in `pend` (R40). -/
def newJob (w : Word) (sh : Shape) (work : Params → List Sample → Work) (s : State) : Job :=
  { cmd := w
    snap := s.regs.params
    work := work s.regs.params (sourceBytes sh s.mem s.regs.params)
    srcSize := sh.srcSize s.regs.params
    unread := addrRange s.regs.params.sA (sh.srcSize s.regs.params)
    pend := addrRange s.regs.params.dA s.regs.params.dL
    disturbed := cacheHazard sh s s.regs.params }

/-- A `CMD` write while busy: the word is discarded and `OVERRUN` rises (R40, R248). -/
def overrun (s : State) : State := s.setStatus s.regs.status.overran

/-- A host write of a legal command word (R40): an overrun, a validation error, empty work done at once (R185), or a command
handed to the engine. -/
def submit (w : Word) (sh : Shape) (work : Params → List Sample → Work) (s : State) : State :=
  if s.eng.isBusy then overrun s
  else
    match validate s.plat sh s.regs.params with
    | some r => raiseError (beginAccept w s) r
    | none =>
      if sh.emptyWork s.regs.params then (beginAccept w s).setStatus (beginAccept w s).regs.status.complete
      else
        ((beginAccept w s).setStatus (beginAccept w s).regs.status.start).setEng (.busy (newJob w sh work s))

/-- A host write of an illegal word (R40, R92): an overrun, or `IllegalCommand` with the word as its value. -/
def submitIllegal (w : Word) (s : State) : State :=
  if s.eng.isBusy then overrun s
  else raiseError (beginAccept w s) { code := .illegalCommand, field := .cmd, value := w }

/-! ### The engine -/

/-- Every byte of the job's destination range takes any value (R209, R241, R246). -/
def scramble (s : State) (j : Job) : State :=
  (s.setMem (s.mem.setAll j.snap.dA (freeBytes s.fresh j.snap.dL))).draw j.snap.dL

/-- The job ends: `eng` is `Idle` and the hidden storage is gone (R43). On a platform whose DMA is not coherent the host's
caches may now hold old copies of the destination (R75). -/
def endJob (s : State) (j : Job) : State :=
  { s with
    eng := .idle
    host := if s.plat.dmaCoherent then s.host
            else { s.host with stale := addrRange j.snap.dA j.snap.dL ++ s.host.stale } }

/-- A bus fault at `a` (R209): the report of code 8, and every destination byte any value. -/
def busFaultAt (s : State) (j : Job) (field : Reg) (a : Nat) : State :=
  endJob (raiseError (scramble s j) { code := .busFault, field := field, value := BitVec.ofNat 32 a }) j

/-- The engine reads the source byte at `a` (R66); a byte outside the source range is never read, and nothing happens. -/
def engineRead (s : State) (j : Job) (a : Nat) : Host.Outcome State Fault Refusal :=
  if j.inSrc a then
    if s.plat.isDevice a then .refused (.deviceByte a)
    else if s.plat.busFault a then .next (busFaultAt s j .srcAddr a)
    else .next (s.setEng (.busy { j with unread := j.unread.erase a }))
  else .next s

/-- The value the command's rule gives the destination byte at `a`. -/
def Job.valueAt (j : Job) (a : Nat) : Sample := j.work.out.getD (a - j.snap.dA) 0#8

/-- The engine writes the destination byte at `a` (R66); a byte outside the destination range is never written, and nothing
happens. -/
def engineWrite (s : State) (j : Job) (a : Nat) : Host.Outcome State Fault Refusal :=
  if j.inDst a then
    if s.plat.isDevice a then .refused (.deviceByte a)
    else if s.plat.busFault a then .next (busFaultAt s j .dstAddr a)
    else .next ((s.setMem (s.mem.set a (j.valueAt a))).setEng (.busy { j with pend := j.pend.erase a }))
  else .next s

/-- The completion step (R42), taken only when `pend` is empty. When another agent wrote one of the ranges meanwhile, the
destination holds any value (R246). -/
def engineFinish (s : State) (j : Job) : State :=
  if j.pend = [] then
    let t := if j.disturbed then scramble s j else s
    endJob (t.setStatus t.regs.status.complete) j
  else s

/-- The engine takes the next step it may take: its reads, then its writes, then completion (R251, log entry 3). -/
def engineTurn (s : State) : Host.Outcome State Fault Refusal :=
  match s.eng with
  | .idle => .next s
  | .busy j =>
    match j.unread with
    | a :: _ => engineRead s j a
    | [] =>
      match j.pend with
      | a :: _ => engineWrite s j a
      | [] => .next (engineFinish s j)

/-! ### Reset (R240 to R242) -/

/-- The effect of either reset: every register at its reset value and `eng = Idle`. A running command is aborted: its
destination range holds any value, and all other memory is unchanged (R241). -/
def resetBlock (s : State) : State :=
  match s.eng with
  | .idle => s.setRegs Regs.reset
  | .busy j => (endJob (scramble s j) j).setRegs Regs.reset

/-! ### Host writes to the registers other than `CMD` -/

/-- A host write to `CTRL` (R24): bit 1 performs the soft reset, and then the written `IRQ_EN` is discarded. -/
def writeCtrl (s : State) (w : Word) : State :=
  if w.getLsbD 1 then resetBlock s else s.setRegs { s.regs with irqEn := w.getLsbD 0 }

/-- A host write to a register by its access type (R23); a write to `CMD` is a command request and is not here (R26). -/
def writeReg (s : State) (r : Reg) (w : Word) : State :=
  match r with
  | .id => s
  | .version => s
  | .ctrl => writeCtrl s w
  | .status => acknowledge s w
  | .cmd => s
  | .errCode => s
  | .errField => s
  | .errValue => s
  | .height => s.setRegs { s.regs with params := s.regs.params.set .height w }
  | .width => s.setRegs { s.regs with params := s.regs.params.set .width w }
  | .channels => s.setRegs { s.regs with params := s.regs.params.set .channels w }
  | .channelOrder => s.setRegs { s.regs with params := s.regs.params.set .channelOrder w }
  | .srcAddr => s.setRegs { s.regs with params := s.regs.params.set .srcAddr w }
  | .srcLen => s.setRegs { s.regs with params := s.regs.params.set .srcLen w }
  | .dstAddr => s.setRegs { s.regs with params := s.regs.params.set .dstAddr w }
  | .dstLen => s.setRegs { s.regs with params := s.regs.params.set .dstLen w }
  | .clipLimit => s.setRegs { s.regs with params := s.regs.params.set .clipLimit w }
  | .tileRows => s.setRegs { s.regs with params := s.regs.params.set .tileRows w }
  | .tileCols => s.setRegs { s.regs with params := s.regs.params.set .tileCols w }
  | .gamma => s.setRegs { s.regs with params := s.regs.params.set .gamma w }
  | .brightness => s.setRegs { s.regs with params := s.regs.params.set .brightness w }
  | .saturation => s.setRegs { s.regs with params := s.regs.params.set .saturation w }

end Sys2Proof.Machine
end

