-- ==== Sys2Proof/Machine/Contrast.lean ====
section
/-! DEFINITION. The adaptive contrast enhancer `CLAHE` (R140 to R148). -/

namespace Sys2Proof.Machine

/-- `P(yy, xx)`: the plane padded below and to the right with its last row and column (R141). -/
def paddedAt (L : List Sample) (H W yy xx : Nat) : Sample := L.getD (min yy (H - 1) * W + min xx (W - 1)) 0#8

/-- The samples of tile `(ty, tx)`, `th·tw` of them, padding included (R141). -/
def tileSamples (L : List Sample) (H W th tw ty tx : Nat) : List Sample :=
  (List.range th).flatMap fun i => (List.range tw).map fun j => paddedAt L H W (ty * th + i) (tx * tw + j)

/-- The histogram of a tile, 256 bins (R142). -/
def histogram (tile : List Sample) : List Nat := (List.range 256).map fun v => tile.count (BitVec.ofNat 8 v)

/-- `limit = max(1, floor(c·Nt/256))` (R143). -/
def clipLimit (c : ℚ) (Nt : Nat) : Nat := max 1 (c * (Nt : ℚ) / 256).floor.toNat

/-- `E`: the clipped excess of a histogram (R144). -/
def clippedExcess (limit : Nat) (hist : List Nat) : Nat := (hist.map (· - limit)).sum

/-- `h2`: each bin cut to the limit, plus its share of the excess; the remainder goes to the lowest bins (R144). -/
def redistribute (limit : Nat) (hist : List Nat) : List Nat :=
  let e := clippedExcess limit hist
  hist.mapIdx fun v h => min h limit + e / 256 + (if v < e % 256 then 1 else 0)

/-- Running sums from `acc`. -/
def runningSums : Nat → List Nat → List Nat
  | _, [] => []
  | acc, h :: hs => (acc + h) :: runningSums (acc + h) hs

/-- A tile's mapping function from its histogram: the inclusive distribution scaled by `255/Nt` and rounded (R143 to R145). -/
def mappingOf (c : ℚ) (Nt : Nat) (hist : List Nat) : List Sample :=
  (runningSums 0 (redistribute (clipLimit c Nt) hist)).map fun cdf =>
    clamp8 (roundTE ((cdf : ℚ) * 255 / (Nt : ℚ)))

/-- `t` or `t + 1` brought into [0, n−1] (R146). -/
def clampTile (t : Int) (n : Nat) : Nat := (min (max t 0) ((n : Int) - 1)).toNat

/-- The tile coordinate `(2y + 1 − th) / (2·th)` of a pixel row or column (R146). -/
def tileCoord (y th : Nat) : ℚ := (2 * (y : ℚ) + 1 - (th : ℚ)) / (2 * (th : ℚ))

/-- The blend of R146 for the pixel `(y, x)` of value `v`, given the mapping value `lut ty tx`. -/
def blendAt (th tw nY nX : Nat) (lut : Nat → Nat → ℚ) (y x : Nat) : Sample :=
  let fy := tileCoord y th
  let fx := tileCoord x tw
  let ty := fy.floor
  let tx := fx.floor
  let wy := fy - (ty : ℚ)
  let wx := fx - (tx : ℚ)
  let y1 := clampTile ty nY
  let y2 := clampTile (ty + 1) nY
  let x1 := clampTile tx nX
  let x2 := clampTile (tx + 1) nX
  clamp8 (roundTE ((1 - wy) * ((1 - wx) * lut y1 x1 + wx * lut y1 x2) + wy * ((1 - wx) * lut y2 x1 + wx * lut y2 x2)))

/-- The tiles in row-major order, `nY·nX` of them, and their histograms (R141, R142). -/
def claheHists (p : Params) (L : List Sample) : List (List Nat) :=
  (List.range (tilesY p)).flatMap fun ty => (List.range (tilesX p)).map fun tx =>
    histogram (tileSamples L p.H p.W (tileH p) (tileW p) ty tx)

/-- The mapping functions of the tiles (R143 to R145). -/
def claheMaps (p : Params) (hists : List (List Nat)) : List (List Sample) :=
  hists.map (mappingOf p.clip (tileH p * tileW p))

/-- `lut(ty, tx)[v]` (R145). -/
def mapValue (maps : List (List Sample)) (nX ty tx : Nat) (v : Sample) : ℚ :=
  sampleQ ((maps.getD (ty * nX + tx) []).getD v.toNat 0#8)

/-- The output plane from the mapping functions (R146). -/
def claheBlend (p : Params) (maps : List (List Sample)) (L : List Sample) : List Sample :=
  (List.range p.H).flatMap fun y => (List.range p.W).map fun x =>
    blendAt (tileH p) (tileW p) (tilesY p) (tilesX p)
      (fun ty tx => mapValue maps (tilesX p) ty tx (L.getD (y * p.W + x) 0#8)) y x

/-- `claheMap(L, H, W, c, tr, tc)` (R140 to R146), the parameters taken from the snapshot. -/
def claheMap (p : Params) (L : List Sample) : List Sample := claheBlend p (claheMaps p (claheHists p L)) L

/-- Row 0x05 of the opcode map (R91). -/
def claheShape : Shape :=
  { src := .plane, dst := .plane, params := [.clipLimit, .tileRows, .tileCols], usesImg := false, tiled := true }

/-- The pseudocode of R147. -/
def claheWork (p : Params) (src : List Sample) : Work :=
  let hists := claheHists p src
  let maps := claheMaps p hists
  { hidden := { gammaTable := [], histograms := hists, mappings := maps, planes := [] }
    out := claheBlend p maps src }

/-- `CLAHE` (R147). -/
def execClahe (s : State) : Host.Outcome State Fault Refusal :=
  .next (submit (encode .clahe) claheShape claheWork s)

end Sys2Proof.Machine
end

