-- ==== Sys2Proof/Machine/Color.lean ====
section
/-! DEFINITION. The colour-space converters `RGB2LAB`, `LAB2RGB`, `RGB2HSV` and `HSV2RGB` (R110 to R125). -/

namespace Sys2Proof.Machine

/-! ### Constants of the chain (R110 to R112, R115, R116; 93 I7 to I10) -/

/-- Three rationals, one a row. -/
abbrev Vec3 := ℚ × ℚ × ℚ

/-- The matrix `M` of R111, by rows. -/
def matM : Vec3 × Vec3 × Vec3 :=
  ((412453 / 1000000, 357580 / 1000000, 180423 / 1000000),
   (212671 / 1000000, 715160 / 1000000, 72169 / 1000000),
   (19334 / 1000000, 119193 / 1000000, 950227 / 1000000))

/-- `Xn` of R111. -/
def whiteX : ℚ := 950456 / 1000000

/-- `Yn` of R111. -/
def whiteY : ℚ := 1

/-- `Zn` of R111. -/
def whiteZ : ℚ := 1088754 / 1000000

/-- `eps` of R112. -/
def labEps : ℚ := 216 / 24389

/-- `kap` of R112. -/
def labKap : ℚ := 24389 / 27

/-- The scalar product of two rows. -/
def dot (u v : Vec3) : ℚ := u.1 * v.1 + u.2.1 * v.2.1 + u.2.2 * v.2.2

/-- The determinant of a matrix given by rows. -/
def det3 (m : Vec3 × Vec3 × Vec3) : ℚ :=
  m.1.1 * (m.2.1.2.1 * m.2.2.2.2 - m.2.1.2.2 * m.2.2.2.1)
    - m.1.2.1 * (m.2.1.1 * m.2.2.2.2 - m.2.1.2.2 * m.2.2.1)
    + m.1.2.2 * (m.2.1.1 * m.2.2.2.1 - m.2.1.2.1 * m.2.2.1)

/-- `Minv`: the exact inverse of `M`, its cofactors over its determinant (R116). -/
def matMinv : Vec3 × Vec3 × Vec3 :=
  let a := matM.1.1; let b := matM.1.2.1; let c := matM.1.2.2
  let d := matM.2.1.1; let e := matM.2.1.2.1; let f := matM.2.1.2.2
  let g := matM.2.2.1; let h := matM.2.2.2.1; let i := matM.2.2.2.2
  let t := det3 matM
  (((e * i - f * h) / t, (c * h - b * i) / t, (b * f - c * e) / t),
   ((f * g - d * i) / t, (a * i - c * g) / t, (c * d - a * f) / t),
   ((d * h - e * g) / t, (b * g - a * h) / t, (a * e - b * d) / t))

/-! ### RGB to LAB (R110 to R112)

`lin` and `cbrt` are irrational, so each is enclosed between two rationals `2^-P` apart, the enclosures are carried through
the (monotone) formula, and the rounding is taken where both ends round to the same integer, which is then the rounding of
the exact value (R13, 93 I6, log entry 9). -/

/-- A rational lower bound of `lin(v)` (R110); exact on the linear part of the curve. -/
def linDown (P : Nat) (v : Sample) : ℚ :=
  let c := sampleQ v / 255
  if c ≤ 4045 / 100000 then c / (1292 / 100) else rootDown P 5 12 ((c + 55 / 1000) / (1055 / 1000))

/-- A rational upper bound of `lin(v)` (R110); exact on the linear part of the curve. -/
def linUp (P : Nat) (v : Sample) : ℚ :=
  let c := sampleQ v / 255
  if c ≤ 4045 / 100000 then c / (1292 / 100) else rootUp P 5 12 ((c + 55 / 1000) / (1055 / 1000))

/-- A rational lower bound of `f(t)` (R112). -/
def labFDown (P : Nat) (t : ℚ) : ℚ := if labEps < t then rootDown P 3 1 t else (labKap * t + 16) / 116

/-- A rational upper bound of `f(t)` (R112). -/
def labFUp (P : Nat) (t : ℚ) : ℚ := if labEps < t then rootUp P 3 1 t else (labKap * t + 16) / 116

/-- `clamp8(roundTE(x))` for an `x` in the enclosure, when both ends round alike. -/
def roundBetween (lo hi : ℚ) : Option Sample :=
  if roundTE lo = roundTE hi then some (clamp8 (roundTE lo)) else none

/-- Bounds of `f(X/Xn)`, `f(Y/Yn)` and `f(Z/Zn)` for a pixel: the lower ones, then the upper ones (R111, R112). -/
def labFBounds (P : Nat) (r g b : Sample) : Vec3 × Vec3 :=
  let lo := (linDown P r, linDown P g, linDown P b)
  let hi := (linUp P r, linUp P g, linUp P b)
  ((labFDown P (dot matM.1 lo / whiteX), labFDown P (dot matM.2.1 lo / whiteY), labFDown P (dot matM.2.2 lo / whiteZ)),
   (labFUp P (dot matM.1 hi / whiteX), labFUp P (dot matM.2.1 hi / whiteY), labFUp P (dot matM.2.2 hi / whiteZ)))

/-- `L8`, `a8` and `b8` where the enclosure of width about `2^-P` decides them (R112). -/
def labEnclosed (P : Nat) (r g b : Sample) : Option Sample × Option Sample × Option Sample :=
  let lo := (labFBounds P r g b).1
  let hi := (labFBounds P r g b).2
  (roundBetween ((116 * lo.2.1 - 16) * 255 / 100) ((116 * hi.2.1 - 16) * 255 / 100),
   roundBetween (500 * (lo.1 - hi.2.1) + 128) (500 * (hi.1 - lo.2.1) + 128),
   roundBetween (200 * (lo.2.1 - hi.2.2) + 128) (200 * (hi.2.1 - lo.2.2) + 128))

/-- `rgbToLabPx(r, g, b)` (R112). -/
def rgbToLabPx (t : Triple) : Triple :=
  let e := labEnclosed Config.labPrecision t.1 t.2.1 t.2.2
  (e.1.getD (Config.undecidedByte t.1 t.2.1 t.2.2 0),
   e.2.1.getD (Config.undecidedByte t.1 t.2.1 t.2.2 1),
   e.2.2.getD (Config.undecidedByte t.1 t.2.1 t.2.2 2))

/-! ### LAB to RGB (R115, R116) -/

/-- `finv(t)` (R115). -/
def labFinv (t : ℚ) : ℚ := if 6 / 29 < t then t ^ 3 else (116 * t - 16) / labKap

/-- `labToXyz(L8, a8, b8)` (R115). -/
def labToXyz (t : Triple) : Vec3 :=
  let ls := sampleQ t.1 * 100 / 255
  let fy := (ls + 16) / 116
  let fx := fy + (sampleQ t.2.1 - 128) / 500
  let fz := fy - (sampleQ t.2.2 - 128) / 200
  (whiteX * labFinv fx, whiteY * labFinv fy, whiteZ * labFinv fz)

/-- How `255·enc(l)`, for `l` in (0.0031308, 1], compares with `n − 1/2` for `n ≥ 1`: `l^(1/2.4)` is `l^(5/12)`, so both sides
are raised to the twelfth power and the comparison is one of rationals (R13, R116). -/
def encCmp (l : ℚ) (n : Nat) : Ordering :=
  cmpQ (l ^ 5) ((((2 * (n : ℚ) - 1) / 510 + 55 / 1000) / (1055 / 1000)) ^ 12)

/-- `clamp8(roundTE(255·enc(l)))` (R116). -/
def encByte (l : ℚ) : Sample :=
  let c := min (max l 0) 1
  if c ≤ 31308 / 10000000 then clamp8 (roundTE (255 * (1292 / 100 * c)))
  else clamp8 (roundByCmp (encCmp c))

/-- `labToRgbPx(L8, a8, b8)` (R116). -/
def labToRgbPx (t : Triple) : Triple :=
  let xyz := labToXyz t
  (encByte (dot matMinv.1 xyz), encByte (dot matMinv.2.1 xyz), encByte (dot matMinv.2.2 xyz))

/-! ### RGB to HSV (R118) -/

/-- The hue in degrees, in [0, 360), of a pixel with maximum `V` and `d = V − min > 0`; `r` is tested first, then `g` (R118). -/
def hueDegrees (r g b V d : ℚ) : ℚ :=
  let h := if V = r then 60 * (g - b) / d
           else if V = g then 120 + 60 * (b - r) / d
           else 240 + 60 * (r - g) / d
  if h < 0 then h + 360 else h

/-- `rgbToHsvPx(r, g, b)` (R118). -/
def rgbToHsvPx (t : Triple) : Triple :=
  let r := sampleQ t.1
  let g := sampleQ t.2.1
  let b := sampleQ t.2.2
  let V := max (max r g) b
  let d := V - min (min r g) b
  let s8 : Int := if V = 0 then 0 else roundTE (255 * d / V)
  let h8 : Int := if d = 0 then 0 else roundTE (hueDegrees r g b V d * 256 / 360) % 256
  (clamp8 h8, clamp8 s8, clamp8 (roundTE V))

/-! ### HSV to RGB (R121) -/

/-- The sector formula's `(R, G, B)` for sector `i` in 0..5 (R121). -/
def hsvSector (i : Int) (v p q t : ℚ) : Vec3 :=
  if i = 0 then (v, t, p)
  else if i = 1 then (q, v, p)
  else if i = 2 then (p, v, t)
  else if i = 3 then (p, q, v)
  else if i = 4 then (t, p, v)
  else (v, p, q)

/-- `hsvToRgbPx(H8, S8, V8)` (R121). -/
def hsvToRgbPx (x : Triple) : Triple :=
  if x.2.1 = 0#8 then (x.2.2, x.2.2, x.2.2)
  else
    let h := sampleQ x.1 * 360 / 256
    let s := sampleQ x.2.1 / 255
    let v := sampleQ x.2.2 / 255
    let hp := h / 60
    let i := hp.floor
    let fr := hp - (i : ℚ)
    let c := hsvSector i v (v * (1 - s)) (v * (1 - s * fr)) (v * (1 - s * (1 - fr)))
    (clamp8 (roundTE (255 * c.1)), clamp8 (roundTE (255 * c.2.1)), clamp8 (roundTE (255 * c.2.2)))

/-! ### The commands -/

/-- Row 0x01 of the opcode map (R91). -/
def rgb2labShape : Shape := { src := .triple, dst := .triple, params := [], usesImg := true, tiled := false }

/-- The pseudocode of R114. -/
def rgb2labWork (p : Params) (src : List Sample) : Work :=
  { hidden := noHidden, out := toPlanes ((readImg p src).map rgbToLabPx) }

/-- `RGB2LAB` (R114). -/
def execRgb2lab (s : State) : Host.Outcome State Fault Refusal :=
  .next (submit (encode .rgb2lab) rgb2labShape rgb2labWork s)

/-- Row 0x02 of the opcode map (R91). -/
def lab2rgbShape : Shape := { src := .triple, dst := .triple, params := [], usesImg := true, tiled := false }

/-- The pseudocode of R117. -/
def lab2rgbWork (p : Params) (src : List Sample) : Work :=
  { hidden := noHidden, out := writeImg p ((fromPlanes p.N src).map labToRgbPx) }

/-- `LAB2RGB` (R117). -/
def execLab2rgb (s : State) : Host.Outcome State Fault Refusal :=
  .next (submit (encode .lab2rgb) lab2rgbShape lab2rgbWork s)

/-- Row 0x03 of the opcode map (R91). -/
def rgb2hsvShape : Shape := { src := .triple, dst := .triple, params := [], usesImg := true, tiled := false }

/-- The pseudocode of R120. -/
def rgb2hsvWork (p : Params) (src : List Sample) : Work :=
  { hidden := noHidden, out := toPlanes ((readImg p src).map rgbToHsvPx) }

/-- `RGB2HSV` (R120). -/
def execRgb2hsv (s : State) : Host.Outcome State Fault Refusal :=
  .next (submit (encode .rgb2hsv) rgb2hsvShape rgb2hsvWork s)

/-- Row 0x04 of the opcode map (R91). -/
def hsv2rgbShape : Shape := { src := .triple, dst := .triple, params := [], usesImg := true, tiled := false }

/-- The pseudocode of R123. -/
def hsv2rgbWork (p : Params) (src : List Sample) : Work :=
  { hidden := noHidden, out := writeImg p ((fromPlanes p.N src).map hsvToRgbPx) }

/-- `HSV2RGB` (R123). -/
def execHsv2rgb (s : State) : Host.Outcome State Fault Refusal :=
  .next (submit (encode .hsv2rgb) hsv2rgbShape hsv2rgbWork s)

end Sys2Proof.Machine
end

