-- ==== Sys2Proof/Machine/Tone.lean ====
section
/-! DEFINITION. The gamma lookup table, the brightness scaler and the saturation booster (R160 to R167). -/

namespace Sys2Proof.Machine

/-! ### Gamma (R160 to R162) -/

/-- How `255·(i/255)^(1/g)` compares with `n − 1/2` for `n ≥ 1` and `i ≥ 1`: with `g = p/q` both sides, divided by 255, are
raised to the power `p`, which leaves `(i/255)^q`, `i/255` in lowest terms, against `((2n−1)/510)^p` (R13, R160). -/
def gammaCmp (g : ℚ) (i n : Nat) : Ordering :=
  powCmp (i / Nat.gcd i 255) (255 / Nat.gcd i 255) g.den (2 * n - 1) 510 g.num.toNat

/-- `gammaLut(g)[i] = clamp8(roundTE(255·(i/255)^(1/g)))`, with `0^(1/g) = 0` (R160). -/
def gammaEntry (g : ℚ) (i : Nat) : Sample := if i = 0 then 0#8 else clamp8 (roundByCmp (gammaCmp g i))

/-- The gamma LookupTable (R160). -/
def gammaLut (g : ℚ) : List Sample := (List.range 256).map (gammaEntry g)

/-- A table looked up (R162). -/
def lookup (T : List Sample) (v : Sample) : Sample := T.getD v.toNat 0#8

/-- Row 0x06 of the opcode map (R91). -/
def gammalutShape : Shape := { src := .none, dst := .table, params := [.gamma], usesImg := false, tiled := false }

/-- The pseudocode of R161. -/
def gammalutWork (p : Params) (_src : List Sample) : Work :=
  let T := gammaLut p.gammaQ
  { hidden := { gammaTable := T, histograms := [], mappings := [], planes := [] }, out := T }

/-- `GAMMALUT` (R161). -/
def execGammalut (s : State) : Host.Outcome State Fault Refusal :=
  .next (submit (encode .gammalut) gammalutShape gammalutWork s)

/-- Row 0x07 of the opcode map (R91). -/
def gammaShape : Shape := { src := .plane, dst := .plane, params := [.gamma], usesImg := false, tiled := false }

/-- The pseudocode of R162. -/
def gammaWork (p : Params) (src : List Sample) : Work :=
  let T := gammaLut p.gammaQ
  { hidden := { gammaTable := T, histograms := [], mappings := [], planes := [] }, out := src.map (lookup T) }

/-- `GAMMA` (R162). -/
def execGamma (s : State) : Host.Outcome State Fault Refusal :=
  .next (submit (encode .gamma) gammaShape gammaWork s)

/-! ### Brightness (R164) -/

/-- `brightPx(v, s)` (R164). -/
def brightPx (k : ℚ) (v : Sample) : Sample := clamp8 (roundTE (sampleQ v * k))

/-- Row 0x08 of the opcode map (R91). -/
def brightShape : Shape := { src := .plane, dst := .plane, params := [.brightness], usesImg := false, tiled := false }

/-- The pseudocode of R164. -/
def brightWork (p : Params) (src : List Sample) : Work :=
  { hidden := noHidden, out := src.map (brightPx p.brightQ) }

/-- `BRIGHT` (R164). -/
def execBright (s : State) : Host.Outcome State Fault Refusal :=
  .next (submit (encode .bright) brightShape brightWork s)

/-! ### Saturation (R165 to R167) -/

/-- `satPx(r, g, b, t)`: the pixel itself when `t` is exactly 1, else the saturation of its HSV form scaled by `t` (R165). -/
def satPx (t : ℚ) (x : Triple) : Triple :=
  if t = 1 then x
  else
    let hsv := rgbToHsvPx x
    hsvToRgbPx (hsv.1, clamp8 (roundTE (sampleQ hsv.2.1 * t)), hsv.2.2)

/-- The planes of these pixels, one list each (R43). -/
def planesOf (l : List Triple) : List (List Sample) := [l.map (·.1), l.map (·.2.1), l.map (·.2.2)]

/-- Row 0x09 of the opcode map (R91). -/
def satboostShape : Shape :=
  { src := .triple, dst := .triple, params := [.saturation], usesImg := true, tiled := false }

/-- The pseudocode of R167. -/
def satboostWork (p : Params) (src : List Sample) : Work :=
  let px := readImg p src
  { hidden := { gammaTable := [], histograms := [], mappings := [], planes := planesOf (px.map rgbToHsvPx) }
    out := writeImg p (px.map (satPx p.satQ)) }

/-- `SATBOOST` (R167). -/
def execSatboost (s : State) : Host.Outcome State Fault Refusal :=
  .next (submit (encode .satboost) satboostShape satboostWork s)

end Sys2Proof.Machine
end

