-- ==== Sys2Proof/Machine/Pipeline.lean ====
section
/-! DEFINITION. The enhancement pipeline `ENHANCE` (R180, R181). -/

namespace Sys2Proof.Machine

/-- The lightness plane replaced in a list of LAB pixels, pixel by pixel. -/
def withLightness (l : List Sample) (lab : List Triple) : List Triple := l.zipWith (fun x t => (x, t.2)) lab

/-- Row 0x0A of the opcode map (R91). -/
def enhanceShape : Shape :=
  { src := .triple, dst := .triple
    params := [.clipLimit, .tileRows, .tileCols, .gamma, .brightness, .saturation], usesImg := true, tiled := true }

/-- The pseudocode of R181: RGB order, LAB, `CLAHE` on L, gamma, brightness, back to RGB, saturation, and the order of the
output; between stages every plane is 8-bit samples (R180). -/
def enhanceWork (p : Params) (src : List Sample) : Work :=
  let lab := (readImg p src).map rgbToLabPx
  let L := lab.map (·.1)
  let hists := claheHists p L
  let maps := claheMaps p hists
  let L1 := claheBlend p maps L
  let T := gammaLut p.gammaQ
  let L3 := (L1.map (lookup T)).map (brightPx p.brightQ)
  let rgb := (withLightness L3 lab).map labToRgbPx
  { hidden := { gammaTable := T, histograms := hists, mappings := maps,
                planes := planesOf lab ++ planesOf (rgb.map rgbToHsvPx) }
    out := writeImg p (rgb.map (satPx p.satQ)) }

/-- `ENHANCE` (R181). -/
def execEnhance (s : State) : Host.Outcome State Fault Refusal :=
  .next (submit (encode .enhance) enhanceShape enhanceWork s)

end Sys2Proof.Machine
end

