-- ==== Sys2Proof/Machine/Dispatch.lean ====
section
/-! DEFINITION. One arm per command. -/

namespace Sys2Proof.Machine

/-- What a host write of the command's word to `CMD` does (R40). -/
def exec (i : Instr) (s : State) : Host.Outcome State Fault Refusal :=
  match i with
  | .rgb2lab => Sys2Proof.Machine.execRgb2lab s
  | .lab2rgb => Sys2Proof.Machine.execLab2rgb s
  | .rgb2hsv => Sys2Proof.Machine.execRgb2hsv s
  | .hsv2rgb => Sys2Proof.Machine.execHsv2rgb s
  | .clahe => Sys2Proof.Machine.execClahe s
  | .gammalut => Sys2Proof.Machine.execGammalut s
  | .gamma => Sys2Proof.Machine.execGamma s
  | .bright => Sys2Proof.Machine.execBright s
  | .satboost => Sys2Proof.Machine.execSatboost s
  | .enhance => Sys2Proof.Machine.execEnhance s

end Sys2Proof.Machine
end

