-- ==== Sys2Proof/Machine/World.lean ====
section
/-! DEFINITION. The steps that no command runs: register accesses, loads and stores of system memory, the host's cache
operations, waiting, reset, and the engine's own steps (R15, R39, R213). -/

namespace Sys2Proof.Machine

/-! ### Register accesses (R39, R60) -/

/-- How a register-space access falls. -/
inductive Access where
  /-- An aligned 32-bit access at this offset. -/
  | word (off : Nat)
  /-- An access that reaches the block, of another width or alignment (R39; log entry 12). -/
  | undefinedForm
  /-- No byte of the access is one of the block's 4096 (R60; log entry 18). -/
  | outside
  deriving DecidableEq, Repr

/-- The access of `size` bytes at bus address `addr` (R39). The spec does not say what an access is that only partly lies in the
block (4 bytes at `REG_BASE − 2`, or at `REG_BASE + 4094`): DESIGN CHOICE (log entry 12), it is an access of another width or
alignment, since it reaches a byte of the block. -/
def accessOf (p : Platform) (addr size : Nat) : Access :=
  if p.regBase + 4096 ≤ addr ∨ (addr < p.regBase ∧ addr + size ≤ p.regBase) then .outside
  else if p.regBase ≤ addr ∧ size = 4 ∧ (addr - p.regBase) % 4 = 0 then .word (addr - p.regBase)
  else .undefinedForm

/-- The platform answers a register access without a bus error. -/
def accessOk (s : State) : State := s.setHost { s.host with busErr := false }

/-- A register access of another width or alignment: every register unchanged, the read data any value, and the platform may
also signal a bus error (R39, 93 I1). -/
def undefinedAccess (s : State) (isRead : Bool) : State :=
  (s.setHost { s.host with
    rdData := if isRead then Config.freeWord s.fresh else s.host.rdData
    busErr := Config.freeBit s.fresh }).draw 1

/-- A host write that is not a command request (R23, R38, R39). -/
def hostWrite (s : State) (addr size : Nat) (w : Word) : Host.Outcome State Fault Refusal :=
  match accessOf s.plat addr size with
  | .outside => .fault (.noSuchRegister addr)
  | .undefinedForm => .next (undefinedAccess s false)
  | .word off =>
    match Reg.at? off with
    | some r => .next (writeReg (accessOk s) r w)
    | none => .next (accessOk s)

/-- What a read at an offset returns: the register, or 0 at a reserved offset (R23, R38). -/
def readOffset (rs : Regs) (off : Nat) : Word :=
  match Reg.at? off with
  | some r => rs.read r
  | none => 0#32

/-- A host read (R39): the host gets the word, and no register changes. -/
def hostRead (s : State) (addr size : Nat) : Host.Outcome State Fault Refusal :=
  match accessOf s.plat addr size with
  | .outside => .fault (.noSuchRegister addr)
  | .undefinedForm => .next (undefinedAccess s true)
  | .word off => .next (s.setHost { s.host with rdData := readOffset s.regs off, busErr := false })

/-! ### System memory as the host sees it -/

/-- The running command's ranges hold this byte, so that a write of it by another agent disturbs the command (R246). -/
def Engine.touches (e : Engine) (a : Nat) : Bool :=
  match e with
  | .idle => false
  | .busy j => j.inSrc a || j.inDst a

/-- The running command is disturbed (R246). -/
def Engine.disturb : Engine → Engine
  | .idle => .idle
  | .busy j => .busy { j with disturbed := true }

/-- A store by the host or another bus master (R15). A store to a byte of the running command's source or destination range
disturbs it (R246). On a platform whose DMA is not coherent the byte stays in the host's caches until it is cleaned (R75). -/
def memStore (s : State) (a : Nat) (b : Sample) : Host.Outcome State Fault Refusal :=
  if s.plat.memSize ≤ a then .fault (.noSuchMemory a)
  else if s.plat.isDevice a then .refused (.deviceByte a)
  else .next
    { s with
      mem := s.mem.set a b
      eng := if s.eng.touches a then s.eng.disturb else s.eng
      host := if s.plat.dmaCoherent then s.host
              else { s.host with
                uncleaned := a :: s.host.uncleaned.filter (· != a)
                stale := s.host.stale.filter (· != a) } }

/-- The byte is in the destination range of the running command (R247). -/
def Engine.writing (e : Engine) (a : Nat) : Bool :=
  match e with
  | .idle => false
  | .busy j => j.inDst a

/-- A load by the host. While a command runs, a byte of its destination reads as any value (R68, R247); so does, on a platform
whose DMA is not coherent, a byte that a command wrote since the host last invalidated it (R75). -/
def memLoad (s : State) (a : Nat) : Host.Outcome State Fault Refusal :=
  if s.plat.memSize ≤ a then .fault (.noSuchMemory a)
  else if s.plat.isDevice a then .refused (.deviceByte a)
  else if s.eng.writing a || s.host.stale.contains a then
    .next ((s.setHost { s.host with ldData := Config.freeByte s.fresh }).draw 1)
  else .next (s.setHost { s.host with ldData := s.mem.byteAt a })

/-- Each of these bytes takes any value. -/
def scrambleList (s : State) : List Nat → State
  | [] => s
  | a :: l => scrambleList ((s.setMem (s.mem.set a (Config.freeByte s.fresh))).draw 1) l

/-- The bytes of a range that the host stored and has not cleaned leave its caches; those of `free` take any value in memory.
One of them in a range of the running command may reach memory now, which disturbs the command (R246; log entry 8). -/
def leaveCaches (s : State) (r : Region) (free : Nat → Bool) : State :=
  let l := s.host.uncleaned.filter r.has
  { scrambleList s (l.filter free) with
    eng := if l.any s.eng.touches then s.eng.disturb else s.eng
    host := { s.host with uncleaned := s.host.uncleaned.filter (fun a => !r.has a) } }

/-- The host cleans a range: the bytes it stored there have reached memory (R75). A stale byte, which a command has written
since, may so have been overwritten by the older store: it holds any value (log entry 8). -/
def cacheClean (s : State) (r : Region) : State := leaveCaches s r s.host.stale.contains

/-- The host invalidates a range: its loads there see memory again (R75). What it stored there before a command wrote the byte is
dropped and the command's result stays (R71, R247); a byte it stored there later and never cleaned is lost or not, so it holds
any value (log entry 8). -/
def cacheInvalidate (s : State) (r : Region) : State :=
  let t := leaveCaches s r (fun a => !s.host.stale.contains a)
  t.setHost { t.host with stale := t.host.stale.filter (fun a => !r.has a) }

/-! ### One event -/

/-- A step of the engine, if it is busy. -/
def withJob (s : State) (f : Job → Host.Outcome State Fault Refusal) : Host.Outcome State Fault Refusal :=
  match s.eng with
  | .idle => .next s
  | .busy j => f j

/-- The host goes on waiting: the engine takes a step, and the same statement comes again (R95, R251). -/
def waitAgain (s : State) (ev : Event) : State := s.setAgenda (.engAuto :: ev :: s.agenda)

/-- `POLL` (R95): one read, and then on, or again after a step of the engine. -/
def hostPoll (s : State) (addr : Nat) (mask value : Word) : Host.Outcome State Fault Refusal :=
  match hostRead s addr 4 with
  | .next t => if t.host.rdData &&& mask = value then .next t else .next (waitAgain t (.poll addr mask value))
  | .fault f => .fault f
  | .refused r => .refused r

/-- What an event does, once it has been taken off the agenda. -/
def handle (ev : Event) (s : State) : Host.Outcome State Fault Refusal :=
  match ev with
  | .regWrite addr size w => hostWrite s addr size w
  | .regRead addr size => hostRead s addr size
  | .poll addr mask value => hostPoll s addr mask value
  | .waitIrq => if s.irq then .next s else .next (waitAgain s .waitIrq)
  | .memStore a b => memStore s a b
  | .memLoad a => memLoad s a
  | .cacheClean r => .next (cacheClean s r)
  | .cacheInvalidate r => .next (cacheInvalidate s r)
  | .hardReset => .next (resetBlock s)
  | .engRead a => withJob s fun j => engineRead s j a
  | .engWrite a => withJob s fun j => engineWrite s j a
  | .engFinish => withJob s fun j => .next (engineFinish s j)
  | .engAuto => engineTurn s

/-- The step of the outside world or the engine: the next event, or, with nothing to come, the engine alone. -/
def worldStep (s : State) : Host.Outcome State Fault Refusal :=
  match s.agenda with
  | [] => engineTurn s
  | ev :: rest => handle ev (s.setAgenda rest)

/-! ### A command request -/

/-- The next event is a defined host write to `CMD` (R26): the word, and the state with the event taken. -/
def fetchCommand (s : State) : Option (Word × State) :=
  match s.agenda with
  | .regWrite addr size w :: rest =>
    if accessOf s.plat addr size = .word Reg.cmd.offset then some (w, accessOk (s.setAgenda rest)) else none
  | _ => none

end Sys2Proof.Machine
end

