-- ==== Sys2Proof/Machine/Step.lean ====
section
/-! DEFINITION. One step of the machine. The block fetches no code (R61, R69): its instruction is the word of the host's next
write to `CMD`, which is the head of the agenda. -/

namespace Sys2Proof.Machine

/-- One step (R213). A host write of a legal word to `CMD` runs the command it decodes to; of an illegal word, raises
`IllegalCommand` (R92); every other step is `worldStep`. -/
def step (s : State) : Host.Outcome State Fault Refusal :=
  match fetchCommand s with
  | none => worldStep s
  | some (w, t) =>
    match decode w with
    | .ok i => exec i t
    | .error _ => .next (submitIllegal w t)

/-- The state with a host write of the command word `w` to `CMD` as its very next step (R95: `CMD <mnemonic>` is a write of
the word to `REG_BASE + 0x010`). -/
def State.withFetchWord (s : State) (_nbits w : Nat) : State :=
  s.setAgenda (.regWrite (s.plat.regBase + Reg.cmd.offset) 4 (BitVec.ofNat 32 w) :: s.agenda)

end Sys2Proof.Machine
end

