-- ==== Sys2Proof/Machine/Assembly.lean ====
section
/-! DEFINITION. The host-program notation of R95 and R96: each statement as the steps it puts on the agenda. -/

namespace Sys2Proof.Machine

/-- A statement of R95, or a pseudo-instruction of R96. -/
inductive Stmt where
  | wr (r : Reg) (value : Word)
  | rd (r : Reg)
  | cmd (i : Instr)
  | poll (r : Reg) (mask value : Word)
  | waitIrq
  | mem (addr : Nat) (bytes : List Sample)
  | setf (r : Reg) (d : ℚ)
  | run (i : Instr)
  | clear
  | setimg (h w src srclen dst dstlen : Word)
  deriving DecidableEq, Repr

/-- `floor(log2 x)` of a positive rational. -/
def floorLog2 (x : ℚ) : Int :=
  let k : Int := (Nat.log2 x.num.toNat : Int) - (Nat.log2 x.den : Int)
  if x < pow2 k then k - 1 else k

/-- The magnitude bits of the binary32 pattern nearest to a positive rational, ties to even; infinity past the largest. -/
def bits32Mag (x : ℚ) : Nat :=
  let e := max (-126) (floorLog2 x)
  min (((e + 126) * 2 ^ 23 + roundTE (x * pow2 (23 - e))).toNat) 0x7F800000

/-- `bits32(d)`: the binary32 pattern nearest to `d`, ties to even (R96). Both zeros have the value 0 (R11), so R96 does not say
which is meant: DESIGN CHOICE (log entry 21), the sign of `d` is kept, so a negative `d` that rounds to 0 gives −0.0 and 0 itself
gives +0.0; and a magnitude past the largest finite value gives infinity. -/
def bits32 (d : ℚ) : Word :=
  if d = 0 then 0#32
  else if d < 0 then BitVec.ofNat 32 (0x80000000 + bits32Mag (-d))
  else BitVec.ofNat 32 (bits32Mag d)

/-- The host's write of a word to a register (R95). -/
def wrEvent (p : Platform) (r : Reg) (w : Word) : Event := .regWrite (p.regBase + r.offset) 4 w

/-- Byte stores from an address (R95). -/
def memEvents : Nat → List Sample → List Event
  | _, [] => []
  | a, b :: bs => .memStore a b :: memEvents (a + 1) bs

/-- The steps of a statement on a platform: bus accesses as in the table of R95, and the expansions of R96. -/
def assemble (p : Platform) : Stmt → List Event
  | .wr r value => [wrEvent p r value]
  | .rd r => [.regRead (p.regBase + r.offset) 4]
  | .cmd i => [wrEvent p .cmd (encode i)]
  | .poll r mask value => [.poll (p.regBase + r.offset) mask value]
  | .waitIrq => [.waitIrq]
  | .mem a bytes => memEvents a bytes
  | .setf r d => [wrEvent p r (bits32 d)]
  | .run i => [wrEvent p .cmd (encode i), .poll (p.regBase + Reg.status.offset) 0x00000002#32 0x00000002#32]
  | .clear => [wrEvent p .status 0x0000000E#32]
  | .setimg h w src srclen dst dstlen =>
    [wrEvent p .height h, wrEvent p .width w, wrEvent p .srcAddr src, wrEvent p .srcLen srclen,
     wrEvent p .dstAddr dst, wrEvent p .dstLen dstlen]

/-- The state with a host program still to come. -/
def State.withProgram (s : State) (prog : List Stmt) : State := s.setAgenda (prog.flatMap (assemble s.plat) ++ s.agenda)

end Sys2Proof.Machine
end

