-- ==== Sys2Proof/Machine/Commands.lean ====
section
/-! DEFINITION. The opcode map of R91 as two functions of the command, for statements about all of them at once; each column
is what the command's own meaning uses. -/

namespace Sys2Proof.Machine

/-- The row of the opcode map (R91). -/
def shapeOf : Instr → Shape
  | .rgb2lab => rgb2labShape
  | .lab2rgb => lab2rgbShape
  | .rgb2hsv => rgb2hsvShape
  | .hsv2rgb => hsv2rgbShape
  | .clahe => claheShape
  | .gammalut => gammalutShape
  | .gamma => gammaShape
  | .bright => brightShape
  | .satboost => satboostShape
  | .enhance => enhanceShape

/-- The command's rule: the bytes of the destination from the snapshot and the source bytes. -/
def workOf : Instr → Params → List Sample → Work
  | .rgb2lab => rgb2labWork
  | .lab2rgb => lab2rgbWork
  | .rgb2hsv => rgb2hsvWork
  | .hsv2rgb => hsv2rgbWork
  | .clahe => claheWork
  | .gammalut => gammalutWork
  | .gamma => gammaWork
  | .bright => brightWork
  | .satboost => satboostWork
  | .enhance => enhanceWork

end Sys2Proof.Machine
end

