-- ==== Sys2Proof/Safety.lean ====
section
/-! DEFINITION. What claims speak about: the good states of the machine, the conditions under which a command is handed to
the engine, and the state in which it has finished. -/

namespace Sys2Proof.Machine

/-! ### One event -/

/-- The step in which `ev` is the next event, whatever else is to come. -/
def stepWith (ev : Event) (s : State) : Host.Outcome State Fault Refusal := step (s.setAgenda (ev :: s.agenda))

/-! ### Conditions on a command's operands -/

/-- The image registers that a command touching an `Img` needs: a known order and three channels (R202, R203). -/
def ImageOk (p : Params) : Prop := (u32 p.channelOrder = 0 ∨ u32 p.channelOrder = 1) ∧ u32 p.channels = 3

/-- Both ranges lie in system memory and do not overlap (R206). -/
def RangesOk (plat : Platform) (p : Params) : Prop :=
  p.sA + p.sL ≤ plat.memSize ∧ p.dA + p.dL ≤ plat.memSize ∧ (p.sA + p.sL ≤ p.dA ∨ p.dA + p.dL ≤ p.sA)

/-- A binary32 parameter that must be finite and above 0 (R33, R35, R36). -/
def PositiveF32 (w : Word) : Prop := isFinite w = true ∧ 0 < f32 w

/-- A binary32 parameter that must be finite and not below 0 (R37). -/
def NonnegF32 (w : Word) : Prop := isFinite w = true ∧ 0 ≤ f32 w

/-- The parameters that `CLAHE` uses are legal, and the engine's tile storage holds the grid (R201, R207). -/
def TilesOk (plat : Platform) (p : Params) : Prop :=
  PositiveF32 p.clipLimit ∧ 1 ≤ s32 p.tileRows ∧ 1 ≤ s32 p.tileCols ∧
    ∀ limit, plat.maxTiles = some limit → tilesY p * tilesX p ≤ limit

/-- The commands that read or write an `Img` (R202). -/
def usesImage : Instr → Bool
  | .rgb2lab | .lab2rgb | .rgb2hsv | .hsv2rgb | .satboost | .enhance => true
  | .clahe | .gammalut | .gamma | .bright => false

/-- `srcNeed(op)` for `N` pixels; 0 for `GAMMALUT`, which has no source (R91, R203). -/
def srcNeed (i : Instr) (N : Nat) : Nat :=
  match i with
  | .rgb2lab | .lab2rgb | .rgb2hsv | .hsv2rgb | .satboost | .enhance => 3 * N
  | .clahe | .gamma | .bright => N
  | .gammalut => 0

/-- `dstNeed(op)` for `N` pixels (R91, R203). -/
def dstNeed (i : Instr) (N : Nat) : Nat :=
  match i with
  | .rgb2lab | .lab2rgb | .rgb2hsv | .hsv2rgb | .satboost | .enhance => 3 * N
  | .clahe | .gamma | .bright => N
  | .gammalut => 256

/-- The parameter registers that a command uses are legal (R91, R201). -/
def ParamsLegal (i : Instr) (p : Params) : Prop :=
  match i with
  | .rgb2lab | .lab2rgb | .rgb2hsv | .hsv2rgb => True
  | .clahe => PositiveF32 p.clipLimit ∧ 1 ≤ s32 p.tileRows ∧ 1 ≤ s32 p.tileCols
  | .gammalut | .gamma => PositiveF32 p.gamma
  | .bright => PositiveF32 p.brightness
  | .satboost => NonnegF32 p.saturation
  | .enhance =>
    PositiveF32 p.clipLimit ∧ 1 ≤ s32 p.tileRows ∧ 1 ≤ s32 p.tileCols ∧ PositiveF32 p.gamma ∧
      PositiveF32 p.brightness ∧ NonnegF32 p.saturation

/-- The command passes every check of R205 on this platform with this snapshot, each check said as R201 to R207 say it. -/
def Legal (plat : Platform) (i : Instr) (p : Params) : Prop :=
  ParamsLegal i p ∧
  (usesImage i = true → ImageOk p) ∧
  (i ≠ .gammalut → p.sL = srcNeed i p.N) ∧
  p.dL = dstNeed i p.N ∧
  (i ≠ .gammalut → 0 < p.sL → p.sA + p.sL ≤ plat.memSize) ∧
  (0 < p.dL → p.dA + p.dL ≤ plat.memSize) ∧
  (i ≠ .gammalut → 0 < p.sL → 0 < p.dL → p.sA + p.sL ≤ p.dA ∨ p.dA + p.dL ≤ p.sA) ∧
  ((i = .clahe ∨ i = .enhance) → 0 < p.N → ∀ limit, plat.maxTiles = some limit → tilesY p * tilesX p ≤ limit)

/-- The checks of R205 for a legal word, in its order: each with the report it raises when it fails. -/
def checksOf (plat : Platform) (i : Instr) (p : Params) : List (Bool × Report) :=
  let contrast := i == .clahe || i == .enhance
  let img := usesImage i
  let src := i != .gammalut
  let positive (w : Word) : Bool := isFinite w && decide (0 < f32 w)
  [ (contrast && !positive p.clipLimit, { code := .invalidParameter, field := .clipLimit, value := p.clipLimit }),
    (contrast && decide (s32 p.tileRows ≤ 0), { code := .invalidParameter, field := .tileRows, value := p.tileRows }),
    (contrast && decide (s32 p.tileCols ≤ 0), { code := .invalidParameter, field := .tileCols, value := p.tileCols }),
    ((i == .gammalut || i == .gamma || i == .enhance) && !positive p.gamma,
      { code := .invalidParameter, field := .gamma, value := p.gamma }),
    ((i == .bright || i == .enhance) && !positive p.brightness,
      { code := .invalidParameter, field := .brightness, value := p.brightness }),
    ((i == .satboost || i == .enhance) && !(isFinite p.saturation && decide (0 ≤ f32 p.saturation)),
      { code := .invalidParameter, field := .saturation, value := p.saturation }),
    (img && decide (1 < u32 p.channelOrder),
      { code := .unsupportedChannelOrder, field := .channelOrder, value := p.channelOrder }),
    (img && decide (u32 p.channels ≠ 3), { code := .invalidImage, field := .channels, value := p.channels }),
    (src && decide (p.sL ≠ srcNeed i p.N), { code := .invalidImage, field := .srcLen, value := p.srcLen }),
    (decide (p.dL ≠ dstNeed i p.N), { code := .invalidImage, field := .dstLen, value := p.dstLen }),
    (src && decide (0 < p.sL ∧ plat.memSize < p.sA + p.sL),
      { code := .addressRange, field := .srcAddr, value := p.srcAddr }),
    (decide (0 < p.dL ∧ plat.memSize < p.dA + p.dL),
      { code := .addressRange, field := .dstAddr, value := p.dstAddr }),
    (src && decide (0 < p.sL ∧ 0 < p.dL ∧ p.sA < p.dA + p.dL ∧ p.dA < p.sA + p.sL),
      { code := .bufferOverlap, field := .dstAddr, value := p.dstAddr }),
    (contrast && decide (0 < p.N) && plat.maxTiles.any (fun limit => decide (limit < tilesY p * tilesX p)),
      { code := .resourceLimit, field := .tileRows, value := p.tileRows }) ]

/-- The report that R205 raises for a command, if any. -/
def firstFailure (plat : Platform) (i : Instr) (p : Params) : Option Report :=
  ((checksOf plat i p).find? (·.1)).map (·.2)

/-- Nothing outside the engine gets in the way of a command with `srcSize` source bytes: no event to come, no access of it
faults or meets a device, and the host has cleaned the source (R75). -/
def Undisturbed (s : State) (srcSize : Nat) : Prop :=
  s.agenda = [] ∧
  (∀ a, (inRange s.regs.params.sA srcSize a || inRange s.regs.params.dA s.regs.params.dL a) = true →
    s.plat.isDevice a = false ∧ s.plat.busFault a = false) ∧
  (∀ a, inRange s.regs.params.sA srcSize a = true → a ∉ s.host.uncleaned)

/-! ### What a command leaves -/

/-- The registers right after a command has been taken and handed to the engine (R40). -/
def acceptedRegs (s : State) (i : Instr) : Regs :=
  { s.regs with
    cmd := encode i
    errCode := 0#32
    errField := 0#32
    errValue := 0#32
    status := { busy := true, done := false, error := false, overrun := s.regs.status.overrun } }

/-- The state right after the command `i` has been taken and handed to the engine, the destination bytes its rule gives being
`out` (R40, R41). -/
def Accepted (s t : State) (i : Instr) (srcSize : Nat) (out : List Sample) : Prop :=
  t.regs = acceptedRegs s i ∧ t.mem = s.mem ∧ t.plat = s.plat ∧ t.host = s.host ∧ t.agenda = s.agenda ∧ t.fresh = s.fresh ∧
    ∃ j, t.eng = .busy j ∧ j.cmd = encode i ∧ j.snap = s.regs.params ∧ j.srcSize = srcSize ∧
      j.unread = addrRange s.regs.params.sA srcSize ∧ j.pend = addrRange s.regs.params.dA s.regs.params.dL ∧
      j.work.out = out

/-- The registers when the command `i` has completed (R42). -/
def completedRegs (s : State) (i : Instr) : Regs :=
  { s.regs with
    cmd := encode i
    errCode := 0#32
    errField := 0#32
    errValue := 0#32
    status := { busy := false, done := true, error := false, overrun := s.regs.status.overrun } }

/-- The state in which the command `i`, taken in `s`, has completed with the bytes `out` in its destination range: byte `k` of
the range holds byte `k` of `out`, every other byte of memory reads as before, and of the registers only `CMD`, `STATUS` and
the error report have changed (R42, R66). On a platform that is not coherent the host's caches may hold old copies (R75). -/
def Completed (s u : State) (i : Instr) (out : List Sample) : Prop :=
  u.regs = completedRegs s i ∧ u.eng = .idle ∧ u.plat = s.plat ∧ u.agenda = s.agenda ∧ u.fresh = s.fresh ∧
    (s.plat.dmaCoherent = true → u.host = s.host) ∧
    out.length = s.regs.params.dL ∧
    (∀ k (h : k < out.length), u.mem.byteAt (s.regs.params.dA + k) = out[k]) ∧
    (∀ a, inRange s.regs.params.dA s.regs.params.dL a = false → u.mem.byteAt a = s.mem.byteAt a)

/-- `exec i` hands the command to the engine, and the engine then completes it in `srcSize + DST_LEN + 1` steps of its own
(R40, R42; the number of steps is that of log entry 3). -/
def RunsTo (s : State) (i : Instr) (srcSize : Nat) (out : List Sample) : Prop :=
  ∃ t, exec i s = .next t ∧ Accepted s t i srcSize out ∧
    (Undisturbed s srcSize →
      ∃ u, Host.Core.run core (srcSize + s.regs.params.dL + 1) t = .next u ∧ Completed s u i out)

/-- The state in which a bus fault at `a`, in the range that register offset `field` names, has ended the job `j` of `s`
(R209): the report of code 8, every byte outside the destination range as before, and an engine that makes no access. -/
def BusFaulted (s t : State) (j : Job) (field : Word) (a : Nat) : Prop :=
  t.eng = .idle ∧
  t.regs = { s.regs with
    errCode := 8#32
    errField := field
    errValue := t.regs.errValue
    status := { busy := false, done := true, error := true, overrun := s.regs.status.overrun } } ∧
  u32 t.regs.errValue = a ∧
  t.plat = s.plat ∧ t.agenda = s.agenda ∧
  (∀ x, j.inDst x = false → t.mem.byteAt x = s.mem.byteAt x) ∧
  (∀ x, stepWith (.engRead x) t = .next t ∧ stepWith (.engWrite x) t = .next t) ∧
  stepWith .engFinish t = .next t ∧ stepWith .engAuto t = .next t

/-! ### The source as the commands read it (R62 to R64) -/

/-- The pixels of the source `Img` in RGB order: pixel `k` is at `SRC_ADDR + 3k` (R63, R125). -/
def imgPixels (s : State) : List Triple :=
  (List.range s.regs.params.N).map fun k =>
    reorder s.regs.params.bgr
      (s.mem.byteAt (s.regs.params.sA + 3 * k), s.mem.byteAt (s.regs.params.sA + 3 * k + 1),
       s.mem.byteAt (s.regs.params.sA + 3 * k + 2))

/-- The pixels of the three source planes: sample `k` of plane `j` is at `SRC_ADDR + j·N + k` (R64). -/
def planePixels (s : State) : List Triple :=
  (List.range s.regs.params.N).map fun k =>
    (s.mem.byteAt (s.regs.params.sA + k), s.mem.byteAt (s.regs.params.sA + s.regs.params.N + k),
     s.mem.byteAt (s.regs.params.sA + 2 * s.regs.params.N + k))

/-- The samples of the source `Plane` (R62). -/
def planeSamples (s : State) : List Sample :=
  (List.range s.regs.params.N).map fun k => s.mem.byteAt (s.regs.params.sA + k)

/-- The bytes of a destination `Img`: pixel `k` in bytes `3k` to `3k + 2`, in the order that `CHANNEL_ORDER` says (R63, R125). -/
def imgBytes (s : State) (l : List Triple) : List Sample :=
  (l.map (reorder s.regs.params.bgr)).flatMap fun t => [t.1, t.2.1, t.2.2]

/-- The bytes of three destination planes, one after another (R64). -/
def planeBytes (l : List Triple) : List Sample := l.map (·.1) ++ (l.map (·.2.1) ++ l.map (·.2.2))

/-- Bytes 0 and 2 of every pixel exchanged (R183). -/
def swapBytes : List Sample → List Sample
  | x :: y :: z :: rest => z :: y :: x :: swapBytes rest
  | l => l

/-! ### Good states -/

/-- The list is made of different addresses of the range of `len` bytes from `base`. -/
def WithinRange (base len : Nat) (l : List Nat) : Prop := l.Nodup ∧ ∀ a ∈ l, inRange base len a = true

/-- What holds of a running command in a good state (R21, R41, R65, R66). -/
def JobOk (s : State) (j : Job) : Prop :=
  (∃ i, j.cmd = encode i ∧ j.srcSize = (shapeOf i).srcSize j.snap ∧ j.srcSize = srcNeed i j.snap.N ∧
    j.snap.dL = dstNeed i j.snap.N ∧
    (j.disturbed = false → j.work = workOf i j.snap (s.mem.read j.snap.sA j.srcSize))) ∧
  0 < j.snap.dL ∧
  j.snap.dA + j.snap.dL ≤ s.plat.memSize ∧
  (0 < j.srcSize → j.snap.sA + j.srcSize ≤ s.plat.memSize ∧
    (j.snap.sA + j.srcSize ≤ j.snap.dA ∨ j.snap.dA + j.snap.dL ≤ j.snap.sA)) ∧
  j.work.out.length = j.snap.dL ∧
  WithinRange j.snap.sA j.srcSize j.unread ∧
  WithinRange j.snap.dA j.snap.dL j.pend ∧
  (j.disturbed = false → ∀ a, j.inDst a = true → a ∉ j.pend → s.mem.byteAt a = j.valueAt a) ∧
  (∀ a ∈ s.host.uncleaned, j.inSrc a = true → j.disturbed = true)

/-- What `ERR_FIELD` may hold beside each code of `ERR_CODE` (the table of R200); no other code is ever written. -/
def reportFields (code : Nat) : List Word :=
  match code with
  | 0 => [0x000#32]
  | 1 => [0x040#32, 0x044#32, 0x048#32, 0x04C#32, 0x050#32, 0x054#32]
  | 2 => [0x028#32, 0x034#32, 0x03C#32]
  | 3 => [0x02C#32]
  | 4 => [0x010#32]
  | 5 => [0x038#32]
  | 6 => [0x030#32, 0x038#32]
  | 7 => [0x044#32]
  | 8 => [0x030#32, 0x038#32]
  | _ => []

/-- The error report is one of the table of R200: a code of 0 to 8 with a field of that code, and no value without a code. -/
def ReportOk (r : Regs) : Prop :=
  u32 r.errCode ≤ 8 ∧ r.errField ∈ reportFields (u32 r.errCode) ∧ (r.errCode = 0#32 → r.errValue = 0#32)

/-- The good states: memory is canonical and lies inside `MEM_SIZE` (R60); `BUSY` tells whether the engine is busy (R21, R25);
while it is, `CMD` holds the running word, `DONE`, `ERROR` and the error report are clear (R40) and the job is sound; the
error report is one of R200; and a coherent platform hides nothing in host caches (R75). -/
def Inv (s : State) : Prop :=
  s.mem.wf = true ∧
  (∀ c ∈ s.mem, c.1 < s.plat.memSize) ∧
  s.regs.status.busy = s.eng.isBusy ∧
  (∀ j, s.eng = .busy j →
    s.regs.status.done = false ∧ s.regs.status.error = false ∧ s.regs.errCode = 0#32 ∧ s.regs.cmd = j.cmd ∧ JobOk s j) ∧
  ReportOk s.regs ∧
  (∀ a ∈ s.host.uncleaned, a < s.plat.memSize) ∧
  (s.plat.dmaCoherent = true → s.host.uncleaned = [] ∧ s.host.stale = [])

end Sys2Proof.Machine
end

