-- ==== Sys2Proof/Safety/Reals.lean ====
section
/-! DEFINITION. The formulas of the spec on real numbers, where powers and roots are exact (R13), for the claims that the
machine's bytes are their exact roundings. Nothing of the machine uses this file. -/

namespace Sys2Proof.Machine

/-- `n` is `roundTE(x)`: the nearest integer, and the even one on a tie (R10). -/
def IsRoundTE (x : ℝ) (n : ℤ) : Prop := |x - n| ≤ 1 / 2 ∧ (|x - n| = 1 / 2 → n % 2 = 0)

/-- `lin(v)` (R110). -/
noncomputable def linR (v : Sample) : ℝ :=
  if (v.toNat : ℝ) / 255 ≤ 0.04045 then (v.toNat : ℝ) / 255 / 12.92
  else (((v.toNat : ℝ) / 255 + 0.055) / 1.055) ^ (2.4 : ℝ)

/-- `X` (R111). -/
noncomputable def xR (r g b : Sample) : ℝ := 0.412453 * linR r + 0.357580 * linR g + 0.180423 * linR b

/-- `Y` (R111). -/
noncomputable def yR (r g b : Sample) : ℝ := 0.212671 * linR r + 0.715160 * linR g + 0.072169 * linR b

/-- `Z` (R111). -/
noncomputable def zR (r g b : Sample) : ℝ := 0.019334 * linR r + 0.119193 * linR g + 0.950227 * linR b

/-- `f(t)` (R112). -/
noncomputable def labFR (t : ℝ) : ℝ :=
  if 216 / 24389 < t then t ^ (1 / 3 : ℝ) else (24389 / 27 * t + 16) / 116

/-- `Ls·255/100` (R112). -/
noncomputable def labLR (r g b : Sample) : ℝ := (116 * labFR (yR r g b / 1) - 16) * 255 / 100

/-- `As + 128` (R112). -/
noncomputable def labAR (r g b : Sample) : ℝ := 500 * (labFR (xR r g b / 0.950456) - labFR (yR r g b / 1)) + 128

/-- `Bs + 128` (R112). -/
noncomputable def labBR (r g b : Sample) : ℝ := 200 * (labFR (yR r g b / 1) - labFR (zR r g b / 1.088754)) + 128

/-- `finv(t)` (R115). -/
noncomputable def labFinvR (t : ℝ) : ℝ := if 6 / 29 < t then t ^ 3 else (116 * t - 16) / (24389 / 27)

/-- `enc(l)` (R116). -/
noncomputable def encR (l : ℝ) : ℝ :=
  if min (max l 0) 1 ≤ 0.0031308 then 12.92 * min (max l 0) 1
  else 1.055 * (min (max l 0) 1) ^ (1 / 2.4 : ℝ) - 0.055

end Sys2Proof.Machine
end

