-- ==== Sys2Proof/Certificates/Slice0/Obligations.lean ====
section
/-! DEFINITION. The statements about the model, one definition each. Registers are named by their offset from `REG_BASE` (R23). -/

section

open Sys2Proof Sys2Proof.Machine

/-! ### Reset and registers -/

/-- R23, R240, R242: the reset column of the register map, an idle engine and a low `irq`, on every platform. That
`State.reset` stands on `Config.platform` is the model's choice (log entry 5). -/
def Obligations.ResetLeavesTableValues : Prop :=
  State.reset = State.resetOn Config.platform ∧
  ∀ p : Platform,
    readOffset (State.resetOn p).regs 0x000 = 0x4C414243#32 ∧
    readOffset (State.resetOn p).regs 0x004 = 0x00010000#32 ∧
    readOffset (State.resetOn p).regs 0x008 = 0x00000000#32 ∧
    readOffset (State.resetOn p).regs 0x00C = 0x00000000#32 ∧
    readOffset (State.resetOn p).regs 0x010 = 0x00000000#32 ∧
    readOffset (State.resetOn p).regs 0x014 = 0x00000000#32 ∧
    readOffset (State.resetOn p).regs 0x018 = 0x00000000#32 ∧
    readOffset (State.resetOn p).regs 0x01C = 0x00000000#32 ∧
    readOffset (State.resetOn p).regs 0x020 = 0x00000000#32 ∧
    readOffset (State.resetOn p).regs 0x024 = 0x00000000#32 ∧
    readOffset (State.resetOn p).regs 0x028 = 0x00000003#32 ∧
    readOffset (State.resetOn p).regs 0x02C = 0x00000000#32 ∧
    readOffset (State.resetOn p).regs 0x030 = 0x00000000#32 ∧
    readOffset (State.resetOn p).regs 0x034 = 0x00000000#32 ∧
    readOffset (State.resetOn p).regs 0x038 = 0x00000000#32 ∧
    readOffset (State.resetOn p).regs 0x03C = 0x00000000#32 ∧
    readOffset (State.resetOn p).regs 0x040 = 0x40000000#32 ∧
    readOffset (State.resetOn p).regs 0x044 = 0x00000008#32 ∧
    readOffset (State.resetOn p).regs 0x048 = 0x00000008#32 ∧
    readOffset (State.resetOn p).regs 0x04C = 0x3F99999A#32 ∧
    readOffset (State.resetOn p).regs 0x050 = 0x3F8CCCCD#32 ∧
    readOffset (State.resetOn p).regs 0x054 = 0x3F8CCCCD#32 ∧
    (∀ off, 0x058 ≤ off → readOffset (State.resetOn p).regs off = 0#32) ∧
    (State.resetOn p).eng = .idle ∧
    (State.resetOn p).irq = false

/-- R241 whole, and R240 for the reset input: both resets leave the same registers and an idle engine that makes no access;
only the destination range of an aborted command may have changed in memory. -/
def Obligations.EitherResetLeavesTheResetState : Prop :=
  ∀ (s : State) (ev : Event),
    (ev = .hardReset ∨ ∃ w : Word, w.getLsbD 1 = true ∧ ev = .regWrite (s.plat.regBase + 0x008) 4 w) →
    ∃ t, stepWith ev s = .next t ∧
      t.regs = Regs.reset ∧ t.eng = .idle ∧ t.irq = false ∧
      t.plat = s.plat ∧ t.agenda = s.agenda ∧ t.host.uncleaned = s.host.uncleaned ∧
      (s.eng = .idle → t.mem = s.mem) ∧
      (∀ j, s.eng = .busy j → ∀ a, j.inDst a = false → t.mem.byteAt a = s.mem.byteAt a) ∧
      (∀ a, stepWith (.engRead a) t = .next t ∧ stepWith (.engWrite a) t = .next t) ∧
      stepWith .engFinish t = .next t ∧ stepWith .engAuto t = .next t

/-- R22: the identity registers read as their constants in every state, also right after a reset, and ignore writes. -/
def Obligations.IdentityRegistersAreConstant : Prop :=
  (∀ s : State,
    (∃ t, stepWith (.regRead (s.plat.regBase + 0x000) 4) s = .next t ∧ t.host.rdData = 0x4C414243#32) ∧
    (∃ t, stepWith (.regRead (s.plat.regBase + 0x004) 4) s = .next t ∧ t.host.rdData = 0x00010000#32)) ∧
  (0x00010000#32).extractLsb' 16 16 = 1#16 ∧ (0x00010000#32).extractLsb' 0 16 = 0#16 ∧
  (∀ (s : State) (w : Word) (off : Nat), off = 0x000 ∨ off = 0x004 →
    ∃ t, stepWith (.regWrite (s.plat.regBase + off) 4 w) s = .next t ∧ t.regs = s.regs ∧ t.eng = s.eng ∧ t.mem = s.mem)

/-- R45: `irq` is bit 0 of `CTRL` and bit 1 of `STATUS`, as they read, and nothing of its own; it is 0 after reset. -/
def Obligations.InterruptIsAWire : Prop :=
  (∀ s : State, s.irq = ((readOffset s.regs 0x008).getLsbD 0 && (readOffset s.regs 0x00C).getLsbD 1)) ∧
  ∀ p : Platform, (State.resetOn p).irq = false

/-- R25, R211, R249: a write of `w` to `STATUS` clears exactly the bits among 1, 2 and 3 that are set in `w`, as they stand at
that step; bit 0 and the reserved bits ignore it, the reserved bits read 0, and nothing else changes. -/
def Obligations.StatusWriteClearsWrittenOnes : Prop :=
  ∀ (s : State) (w : Word),
    readOffset s.regs 0x00C &&& 0xFFFFFFF0#32 = 0#32 ∧
    ∃ t, stepWith (.regWrite (s.plat.regBase + 0x00C) 4 w) s = .next t ∧
      readOffset t.regs 0x00C = readOffset s.regs 0x00C &&& ~~~(w &&& 0x0000000E#32) ∧
      t.regs = { s.regs with status := t.regs.status } ∧
      t.eng = s.eng ∧ t.mem = s.mem ∧ t.plat = s.plat ∧ t.agenda = s.agenda ∧ t.fresh = s.fresh

/-- R24: without bit 1 a write to `CTRL` sets `IRQ_EN` to bit 0 and changes nothing else; with bit 1 it is the reset, and the
written `IRQ_EN` is lost. Bit 1 and the reserved bits read 0. -/
def Obligations.CtrlWriteSetsEnableOrResets : Prop :=
  ∀ (s : State) (w : Word),
    readOffset s.regs 0x008 &&& 0xFFFFFFFE#32 = 0#32 ∧
    (w.getLsbD 1 = false →
      ∃ t, stepWith (.regWrite (s.plat.regBase + 0x008) 4 w) s = .next t ∧
        readOffset t.regs 0x008 = w &&& 0x00000001#32 ∧
        t.regs = { s.regs with irqEn := t.regs.irqEn } ∧
        t.eng = s.eng ∧ t.mem = s.mem ∧ t.plat = s.plat ∧ t.agenda = s.agenda ∧ t.fresh = s.fresh) ∧
    (w.getLsbD 1 = true →
      ∃ t, stepWith (.regWrite (s.plat.regBase + 0x008) 4 w) s = .next t ∧
        stepWith .hardReset (s.setHost { s.host with busErr := false }) = .next t ∧
        readOffset t.regs 0x008 = 0x00000000#32)

/-- R23, R38, R39, R245: each of the fourteen registers 0x020 to 0x054 reads back the word written, all 32 bits; every other
register, the running command with its snapshot, and memory are as before. -/
def Obligations.ParameterWriteReadsBack : Prop :=
  ∀ (s : State) (r : Reg) (w : Word), 0x020 ≤ r.offset →
    ∃ t, stepWith (.regWrite (s.plat.regBase + r.offset) 4 w) s = .next t ∧
      readOffset t.regs r.offset = w ∧
      (∀ r' : Reg, r' ≠ r → readOffset t.regs r'.offset = readOffset s.regs r'.offset) ∧
      t.regs = { s.regs with params := t.regs.params } ∧
      t.eng = s.eng ∧ t.mem = s.mem ∧ t.plat = s.plat ∧ t.agenda = s.agenda ∧ t.fresh = s.fresh

/-- R23, R27, R38, R39: a read of any word of the block returns it and has no side effect; reserved offsets read 0; a write to a
read-only register or a reserved offset changes nothing. -/
def Obligations.ReadsAndIgnoredWrites : Prop :=
  (∀ (s : State) (off : Nat), off < 4096 → off % 4 = 0 →
    ∃ t, stepWith (.regRead (s.plat.regBase + off) 4) s = .next t ∧
      t.host.rdData = readOffset s.regs off ∧ (0x058 ≤ off → t.host.rdData = 0#32) ∧ t.host.busErr = false ∧
      t.regs = s.regs ∧ t.eng = s.eng ∧ t.mem = s.mem ∧ t.plat = s.plat ∧ t.agenda = s.agenda ∧ t.fresh = s.fresh) ∧
  (∀ (s : State) (off : Nat) (w : Word), off < 4096 → off % 4 = 0 →
    (off = 0x000 ∨ off = 0x004 ∨ off = 0x014 ∨ off = 0x018 ∨ off = 0x01C ∨ 0x058 ≤ off) →
    ∃ t, stepWith (.regWrite (s.plat.regBase + off) 4 w) s = .next t ∧
      t.regs = s.regs ∧ t.eng = s.eng ∧ t.mem = s.mem ∧ t.plat = s.plat ∧ t.agenda = s.agenda ∧ t.fresh = s.fresh)

/-- R39, 93 I1: an access of another width or alignment leaves every register, the engine and memory as they are, and starts
no command even at `CMD`; the data of such a read and the bus error are free values, and an access that only partly lies in the
block is taken to be one of these (log entry 12: the model's choice). -/
def Obligations.UndefinedAccessChangesNoRegister : Prop :=
  ∀ (s : State) (addr size : Nat) (w : Word),
    addr < s.plat.regBase + 4096 → (s.plat.regBase ≤ addr ∨ s.plat.regBase < addr + size) →
    ¬(s.plat.regBase ≤ addr ∧ size = 4 ∧ (addr - s.plat.regBase) % 4 = 0) →
    (∃ t, stepWith (.regWrite addr size w) s = .next t ∧
      t.regs = s.regs ∧ t.eng = s.eng ∧ t.mem = s.mem ∧ t.plat = s.plat ∧ t.agenda = s.agenda ∧
      t.host.busErr = Config.freeBit s.fresh) ∧
    (∃ t, stepWith (.regRead addr size) s = .next t ∧
      t.regs = s.regs ∧ t.eng = s.eng ∧ t.mem = s.mem ∧ t.plat = s.plat ∧ t.agenda = s.agenda ∧
      t.host.rdData = Config.freeWord s.fresh ∧ t.host.busErr = Config.freeBit s.fresh)

/-! ### Encoding -/

/-- R93: a word is a command exactly when its bits 31:8 are 0 and its bits 7:0 are 0x01 to 0x0A, the command is the one of that
opcode and no other, and every other word is illegal. -/
def Obligations.DecodeIsTotal : Prop :=
  (∀ (w : Word) (i : Instr), decode w = .ok i ↔ w.extractLsb' 8 24 = 0#24 ∧ w.extractLsb' 0 8 = i.opcode) ∧
  (∀ w : Word, (∃ i, decode w = .ok i) ↔
    w.extractLsb' 8 24 = 0#24 ∧ 0x01 ≤ (w.extractLsb' 0 8).toNat ∧ (w.extractLsb' 0 8).toNat ≤ 0x0A) ∧
  (∀ w : Word, ¬(w.extractLsb' 8 24 = 0#24 ∧ 0x01 ≤ (w.extractLsb' 0 8).toNat ∧ (w.extractLsb' 0 8).toNat ≤ 0x0A) →
    ∃ e, decode w = .error e) ∧
  (∀ i k : Instr, i.opcode = k.opcode → i = k)

/-- R90, R91, R93: encoding and decoding agree in both directions, on every word and every form; no bit of the format is
dropped, and the words that decode are those whose form is well formed. -/
def Obligations.EncodeDecodeRoundTrip : Prop :=
  (∀ c : CMD32, CMD32.ofWord c.toWord = c) ∧
  (∀ w : Word, (CMD32.ofWord w).toWord = w) ∧
  (∀ i : Instr, i.wellFormed = true ∧ decode (encode i) = .ok i) ∧
  (∀ (w : Word) (i : Instr), decode w = .ok i → encode i = w) ∧
  (∀ w : Word, (∃ i, decode w = .ok i) ↔ (CMD32.ofWord w).wellFormed = true)

/-- R92: an illegal word, written to `CMD` while the engine is idle, is stored in `CMD` and reported with code 4, field 0x010
and the word as value; it touches no memory and starts nothing. -/
def Obligations.IllegalWordIsReported : Prop :=
  ∀ (s : State) (w : Word), s.eng = .idle →
    (w.extractLsb' 8 24 ≠ 0#24 ∨ w.extractLsb' 0 8 = 0x00#8 ∨ 0x0B ≤ (w.extractLsb' 0 8).toNat) →
    ∃ t, stepWith (.regWrite (s.plat.regBase + 0x010) 4 w) s = .next t ∧
      t.regs = { s.regs with
        cmd := w
        errCode := 4#32
        errField := 0x010#32
        errValue := w
        status := { busy := false, done := true, error := true, overrun := s.regs.status.overrun } } ∧
      t.eng = .idle ∧ t.mem = s.mem ∧ t.plat = s.plat ∧ t.agenda = s.agenda ∧ t.fresh = s.fresh

/-- R91, R92: the ten words of the opcode map, and words that are none. -/
def Obligations.WordsOfTheOpcodeMap : Prop :=
  decode 0x00000001#32 = .ok .rgb2lab ∧ decode 0x00000002#32 = .ok .lab2rgb ∧ decode 0x00000003#32 = .ok .rgb2hsv ∧
  decode 0x00000004#32 = .ok .hsv2rgb ∧ decode 0x00000005#32 = .ok .clahe ∧ decode 0x00000006#32 = .ok .gammalut ∧
  decode 0x00000007#32 = .ok .gamma ∧ decode 0x00000008#32 = .ok .bright ∧ decode 0x00000009#32 = .ok .satboost ∧
  decode 0x0000000A#32 = .ok .enhance ∧
  decode 0x00000000#32 = .error .opZero ∧ decode 0x0000000B#32 = .error .opUndefined ∧
  decode 0x000000FF#32 = .error .opUndefined ∧ decode 0x00000105#32 = .error .reservedNonzero ∧
  decode 0x80000007#32 = .error .reservedNonzero

/-- R26, R40, R95, R213: when the next event is a host write to `CMD` of a word that decodes to `i`, the step is `exec i` on the
state with that event taken (and the bus access answered without error); `withFetchWord` is such a write; any other event is
what `handle` makes of it; and with no event to come the engine goes on. -/
def Obligations.StepRunsTheFetchedCommand : Prop :=
  (∀ (s : State) (w : Word) (rest : List Event) (i : Instr),
    s.agenda = .regWrite (s.plat.regBase + 0x010) 4 w :: rest → decode w = .ok i →
    step s = exec i ((s.setAgenda rest).setHost { s.host with busErr := false })) ∧
  (∀ (s : State) (nbits : Nat) (i : Instr),
    step (s.withFetchWord nbits (encode i).toNat) = exec i (s.setHost { s.host with busErr := false })) ∧
  (∀ (s : State) (ev : Event) (rest : List Event), s.agenda = ev :: rest →
    (∀ addr size w, ev = .regWrite addr size w → accessOf s.plat addr size ≠ .word 0x010) →
    step s = handle ev (s.setAgenda rest)) ∧
  (∀ s : State, s.agenda = [] → step s = engineTurn s)

/-! ### Acceptance, validation and the error report -/

/-- R248, R40, R211: a write to `CMD` while the engine is busy, of a legal word or not, sets `OVERRUN`, which then reads 1, and
changes nothing else: not `CMD`, not the running command, not memory. -/
def Obligations.OverrunDiscardsTheWord : Prop :=
  ∀ (s : State) (j : Job) (w : Word), s.eng = .busy j →
    ∃ t, stepWith (.regWrite (s.plat.regBase + 0x010) 4 w) s = .next t ∧
      t.regs = { s.regs with status := { s.regs.status with overrun := true } } ∧
      (readOffset t.regs 0x00C).getLsbD 3 = true ∧
      t.eng = s.eng ∧ t.mem = s.mem ∧ t.plat = s.plat ∧ t.agenda = s.agenda ∧ t.fresh = s.fresh

/-- R201: the conditions per register, on the value of the pattern, and the report of the first check; −0.0 counts as 0. -/
def Obligations.IllegalParameterConditions : Prop :=
  (∀ w : Word,
    (illegalParam .clipLimit w = true ↔ isFinite w = false ∨ f32 w ≤ 0) ∧
    (illegalParam .tileRows w = true ↔ s32 w ≤ 0) ∧
    (illegalParam .tileCols w = true ↔ s32 w ≤ 0) ∧
    (illegalParam .gamma w = true ↔ isFinite w = false ∨ f32 w ≤ 0) ∧
    (illegalParam .brightness w = true ↔ isFinite w = false ∨ f32 w ≤ 0) ∧
    (illegalParam .saturation w = true ↔ isFinite w = false ∨ f32 w < 0)) ∧
  f32 0x00000000#32 = 0 ∧ f32 0x80000000#32 = 0 ∧
  (∀ (p : Params) (r : Reg), 0x040 ≤ r.offset →
    checkParams p [r] =
      if illegalParam r (p.get r) then some { code := .invalidParameter, field := r, value := p.get r } else none)

/-- R201 to R207: validation passes exactly the commands that `Legal` describes, for each command and every platform. -/
def Obligations.ValidationPassesExactlyLegalCommands : Prop :=
  ∀ (plat : Platform) (i : Instr) (p : Params), validate plat (shapeOf i) p = none ↔ Legal plat i p

/-- R205: the first failing check, in its order, is what the `ERR_*` registers report after a `CMD` write; an illegal word is
the first check, and when every check passes the three registers are 0. -/
def Obligations.FirstFailingCheckIsReported : Prop :=
  ∀ (s : State) (w : Word), s.eng = .idle →
    ∃ t, stepWith (.regWrite (s.plat.regBase + 0x010) 4 w) s = .next t ∧
      match decode w with
      | .error _ =>
        t.regs.errCode = 4#32 ∧ t.regs.errField = 0x010#32 ∧ t.regs.errValue = w ∧ t.regs.status.error = true
      | .ok i =>
        match firstFailure s.plat i s.regs.params with
        | some r =>
          t.regs.errCode = r.code.toWord ∧ t.regs.errField = BitVec.ofNat 32 r.field.offset ∧
            t.regs.errValue = r.value ∧ t.regs.status.error = true
        | none =>
          t.regs.errCode = 0#32 ∧ t.regs.errField = 0#32 ∧ t.regs.errValue = 0#32 ∧ t.regs.status.error = false

/-- R204: the error report of a word that fails validation, an illegal word included, and all that it leaves alone. -/
def Obligations.ValidationErrorReport : Prop :=
  ∀ (s : State) (w : Word) (r : Report), s.eng = .idle →
    (match decode w with
      | .error _ => r = { code := .illegalCommand, field := .cmd, value := w }
      | .ok i => validate s.plat (shapeOf i) s.regs.params = some r) →
    ∃ t, stepWith (.regWrite (s.plat.regBase + 0x010) 4 w) s = .next t ∧
      t.regs = { s.regs with
        cmd := w
        errCode := r.code.toWord
        errField := BitVec.ofNat 32 r.field.offset
        errValue := r.value
        status := { busy := false, done := true, error := true, overrun := s.regs.status.overrun } } ∧
      (∀ i, decode w = .ok i → r.value = s.regs.params.get r.field) ∧
      1 ≤ u32 r.code.toWord ∧ u32 r.code.toWord ≤ 7 ∧
      t.eng = .idle ∧ t.mem = s.mem ∧ t.plat = s.plat ∧ t.agenda = s.agenda ∧ t.fresh = s.fresh

/-- R185: a valid command other than `GAMMALUT` with `N = 0` completes within the `CMD` write and touches no memory; its lengths
are then 0; a valid `GAMMALUT` always goes to the engine. -/
def Obligations.EmptyWorkCompletesAtOnce : Prop :=
  (∀ (s : State) (i : Instr), s.eng = .idle → i ≠ .gammalut → s.regs.params.N = 0 → Legal s.plat i s.regs.params →
    s.regs.params.sL = 0 ∧ s.regs.params.dL = 0 ∧
    ∃ t, exec i s = .next t ∧ t.regs = completedRegs s i ∧ t.eng = .idle ∧
      t.mem = s.mem ∧ t.plat = s.plat ∧ t.host = s.host ∧ t.agenda = s.agenda ∧ t.fresh = s.fresh) ∧
  (∀ s : State, s.eng = .idle → Legal s.plat .gammalut s.regs.params →
    ∃ t, exec .gammalut s = .next t ∧ t.eng.isBusy = true)

/-! ### What each command leaves in its destination -/

/-- R114: `RGB2LAB` is accepted and runs to completion, leaving the L, a and b planes of the source image. -/
def Obligations.Rgb2labWritesLabPlanes : Prop :=
  ∀ s : State, s.eng = .idle → ImageOk s.regs.params → 0 < s.regs.params.N →
    s.regs.params.sL = 3 * s.regs.params.N → s.regs.params.dL = 3 * s.regs.params.N → RangesOk s.plat s.regs.params →
    RunsTo s .rgb2lab (3 * s.regs.params.N) (planeBytes ((imgPixels s).map rgbToLabPx))

/-- R117: `LAB2RGB` is accepted and runs to completion, leaving the image of the L, a and b planes. -/
def Obligations.Lab2rgbWritesImage : Prop :=
  ∀ s : State, s.eng = .idle → ImageOk s.regs.params → 0 < s.regs.params.N →
    s.regs.params.sL = 3 * s.regs.params.N → s.regs.params.dL = 3 * s.regs.params.N → RangesOk s.plat s.regs.params →
    RunsTo s .lab2rgb (3 * s.regs.params.N) (imgBytes s ((planePixels s).map labToRgbPx))

/-- R120: `RGB2HSV` is accepted and runs to completion, leaving the H, S and V planes of the source image. -/
def Obligations.Rgb2hsvWritesHsvPlanes : Prop :=
  ∀ s : State, s.eng = .idle → ImageOk s.regs.params → 0 < s.regs.params.N →
    s.regs.params.sL = 3 * s.regs.params.N → s.regs.params.dL = 3 * s.regs.params.N → RangesOk s.plat s.regs.params →
    RunsTo s .rgb2hsv (3 * s.regs.params.N) (planeBytes ((imgPixels s).map rgbToHsvPx))

/-- R123: `HSV2RGB` is accepted and runs to completion, leaving the image of the H, S and V planes. -/
def Obligations.Hsv2rgbWritesImage : Prop :=
  ∀ s : State, s.eng = .idle → ImageOk s.regs.params → 0 < s.regs.params.N →
    s.regs.params.sL = 3 * s.regs.params.N → s.regs.params.dL = 3 * s.regs.params.N → RangesOk s.plat s.regs.params →
    RunsTo s .hsv2rgb (3 * s.regs.params.N) (imgBytes s ((planePixels s).map hsvToRgbPx))

/-- R147: `CLAHE` is accepted and runs to completion, leaving `claheMap` of the source plane (`ClaheBlendsTileMappings` says
what that is, pixel by pixel). -/
def Obligations.ClaheWritesEqualisedPlane : Prop :=
  ∀ s : State, s.eng = .idle → TilesOk s.plat s.regs.params → 0 < s.regs.params.N →
    s.regs.params.sL = s.regs.params.N → s.regs.params.dL = s.regs.params.N → RangesOk s.plat s.regs.params →
    RunsTo s .clahe s.regs.params.N (claheMap s.regs.params (planeSamples s))

/-- R161: `GAMMALUT` is accepted, whatever the registers it ignores hold, and runs to completion, leaving the table. -/
def Obligations.GammalutWritesTheTable : Prop :=
  ∀ s : State, s.eng = .idle → PositiveF32 s.regs.params.gamma → s.regs.params.dL = 256 →
    s.regs.params.dA + 256 ≤ s.plat.memSize →
    RunsTo s .gammalut 0 ((List.range 256).map fun i => gammaEntry (f32 s.regs.params.gamma) i)

/-- R162: `GAMMA` is accepted and runs to completion, leaving each source sample looked up in the gamma table. -/
def Obligations.GammaLooksUpEverySample : Prop :=
  ∀ s : State, s.eng = .idle → PositiveF32 s.regs.params.gamma → 0 < s.regs.params.N →
    s.regs.params.sL = s.regs.params.N → s.regs.params.dL = s.regs.params.N → RangesOk s.plat s.regs.params →
    RunsTo s .gamma s.regs.params.N ((planeSamples s).map fun v => gammaEntry (f32 s.regs.params.gamma) v.toNat)

/-- R164: `BRIGHT` is accepted and runs to completion, leaving each source sample times the boost, rounded and clamped. -/
def Obligations.BrightScalesEverySample : Prop :=
  ∀ s : State, s.eng = .idle → PositiveF32 s.regs.params.brightness → 0 < s.regs.params.N →
    s.regs.params.sL = s.regs.params.N → s.regs.params.dL = s.regs.params.N → RangesOk s.plat s.regs.params →
    RunsTo s .bright s.regs.params.N
      ((planeSamples s).map fun v => clamp8 (roundTE ((v.toNat : ℚ) * f32 s.regs.params.brightness)))

/-- R167: `SATBOOST` is accepted and runs to completion, leaving each pixel as it is when the boost is exactly 1, and
else with the saturation of its HSV form times the boost, rounded and clamped (R165). -/
def Obligations.SatboostScalesSaturation : Prop :=
  ∀ s : State, s.eng = .idle → NonnegF32 s.regs.params.saturation → ImageOk s.regs.params → 0 < s.regs.params.N →
    s.regs.params.sL = 3 * s.regs.params.N → s.regs.params.dL = 3 * s.regs.params.N → RangesOk s.plat s.regs.params →
    let t := f32 s.regs.params.saturation
    RunsTo s .satboost (3 * s.regs.params.N) (imgBytes s ((imgPixels s).map fun x =>
      if t = 1 then x
      else
        let hsv := rgbToHsvPx x
        hsvToRgbPx (hsv.1, clamp8 (roundTE ((hsv.2.1.toNat : ℚ) * t)), hsv.2.2)))

/-- R181: `ENHANCE` is accepted and runs to completion, leaving what its pseudocode computes, stage by stage. -/
def Obligations.EnhanceRunsThePipeline : Prop :=
  ∀ s : State, s.eng = .idle → TilesOk s.plat s.regs.params → PositiveF32 s.regs.params.gamma →
    PositiveF32 s.regs.params.brightness → NonnegF32 s.regs.params.saturation → ImageOk s.regs.params →
    0 < s.regs.params.N → s.regs.params.sL = 3 * s.regs.params.N → s.regs.params.dL = 3 * s.regs.params.N →
    RangesOk s.plat s.regs.params →
    let lab := (imgPixels s).map rgbToLabPx
    let l1 := claheMap s.regs.params (lab.map (·.1))
    let l2 := l1.map fun v => gammaEntry (f32 s.regs.params.gamma) v.toNat
    let l3 := l2.map fun v => clamp8 (roundTE ((v.toNat : ℚ) * f32 s.regs.params.brightness))
    let rgb := l3.zipWith (fun l t => labToRgbPx (l, t.2.1, t.2.2)) lab
    RunsTo s .enhance (3 * s.regs.params.N) (imgBytes s (rgb.map (satPx (f32 s.regs.params.saturation))))

/-- R40, R42, R66, R251: every legal command with work to do, from every idle state, is accepted and, left alone, completes
with the bytes of its rule; no command is stuck. The number of steps is that of the engine's fixed order (log entry 3: the
model's choice). -/
def Obligations.EveryLegalCommandRunsToCompletion : Prop :=
  ∀ (s : State) (i : Instr), s.eng = .idle → Legal s.plat i s.regs.params → (i = .gammalut ∨ 0 < s.regs.params.N) →
    RunsTo s i (srcNeed i s.regs.params.N)
      (workOf i s.regs.params (s.mem.read s.regs.params.sA (srcNeed i s.regs.params.N))).out

/-! ### The engine, hazards and memory -/

/-- R42: the completion step is taken exactly when `pend` is empty; then the destination holds the rule's values, and the host,
which reads `BUSY = 0` and `DONE = 1`, loads them. A command that another agent disturbed is out of the last clause (R246). -/
def Obligations.CompletionStep : Prop :=
  ∀ (s : State) (j : Job), Inv s → s.eng = .busy j →
    ∃ t, stepWith .engFinish s = .next t ∧
      (j.pend ≠ [] → t = s) ∧
      (j.pend = [] →
        t.eng = .idle ∧
        t.regs = { s.regs with
          status := { busy := false, done := true, error := false, overrun := s.regs.status.overrun } } ∧
        t.plat = s.plat ∧ t.agenda = s.agenda ∧
        (j.disturbed = false →
          t.mem = s.mem ∧
          ∀ k, k < j.snap.dL →
            t.mem.byteAt (j.snap.dA + k) = j.work.out.getD k 0 ∧
            (s.plat.dmaCoherent = true → s.plat.isDevice (j.snap.dA + k) = false →
              ∃ u, stepWith (.memLoad (j.snap.dA + k)) t = .next u ∧ u.host.ldData = j.work.out.getD k 0)))

/-- R209: an engine access that faults ends the command with the report of code 8, whichever of the faulting accesses comes
first; and code 8 comes from nothing else, so a platform without faulting addresses never shows it. -/
def Obligations.BusFaultEndsTheCommand : Prop :=
  (∀ (s : State) (j : Job) (a : Nat), Inv s → s.eng = .busy j → s.plat.busFault a = true → s.plat.isDevice a = false →
    (j.inSrc a = true → ∃ t, stepWith (.engRead a) s = .next t ∧ BusFaulted s t j 0x030#32 a) ∧
    (j.inDst a = true → ∃ t, stepWith (.engWrite a) s = .next t ∧ BusFaulted s t j 0x038#32 a)) ∧
  (∀ s t : State, step s = .next t → t.regs.errCode = 8#32 →
    s.regs.errCode = 8#32 ∨ (s.eng.isBusy = true ∧ ∃ a, s.plat.busFault a = true))

/-- R20, R32, R66: a step of the engine writes no register but `STATUS` and the error report, and no byte of memory outside the
destination range of the running command. -/
def Obligations.EngineTouchesOnlyItsDestination : Prop :=
  ∀ (s t : State) (ev : Event),
    (ev = .engAuto ∨ ev = .engFinish ∨ (∃ a, ev = .engRead a) ∨ ∃ a, ev = .engWrite a) → stepWith ev s = .next t →
    t.regs = { s.regs with
      errCode := t.regs.errCode
      errField := t.regs.errField
      errValue := t.regs.errValue
      status := { t.regs.status with overrun := s.regs.status.overrun } } ∧
    t.plat = s.plat ∧ t.agenda = s.agenda ∧
    (∀ a, (∀ j, s.eng = .busy j → j.inDst a = false) → t.mem.byteAt a = s.mem.byteAt a)

/-- R246 as the model carries it (log entry 23: the model's choice): a store by another agent lands in memory at once and changes
that byte alone; in one of the running command's ranges it sets the model's flag on the job, elsewhere it leaves the job alone.
A flagged command still completes and changes no memory outside its destination, which is what R246 itself says. -/
def Obligations.ForeignStoreDisturbsTheCommand : Prop :=
  (∀ (s : State) (j : Job) (a : Nat) (b : Sample), s.eng = .busy j → a < s.plat.memSize → s.plat.isDevice a = false →
    ∃ t, stepWith (.memStore a b) s = .next t ∧ t.regs = s.regs ∧ t.plat = s.plat ∧ t.agenda = s.agenda ∧
      t.mem.byteAt a = b ∧ (∀ x, x ≠ a → t.mem.byteAt x = s.mem.byteAt x) ∧
      ((j.inSrc a || j.inDst a) = true → t.eng = .busy { j with disturbed := true }) ∧
      ((j.inSrc a || j.inDst a) = false → t.eng = s.eng)) ∧
  (∀ (s : State) (j : Job), s.eng = .busy j → j.disturbed = true → j.pend = [] →
    ∃ t, stepWith .engFinish s = .next t ∧ t.eng = .idle ∧ t.regs.status.done = true ∧ t.regs.status.busy = false ∧
      ∀ x, j.inDst x = false → t.mem.byteAt x = s.mem.byteAt x)

/-- R15, R60, R247: a load gives what was stored last at the address, and changes nothing but what the host has got back; a
destination byte of a running command reads as a free value (log entry 13). On a platform that is not coherent it is the model's
choice that a store to a stale byte ends its staleness (log entry 8), and that a store of another master counts as the host's own
(log entry 20). -/
def Obligations.HostLoadsWhatWasStored : Prop :=
  (∀ (s : State) (a : Nat) (b : Sample), Inv s → s.eng = .idle → a < s.plat.memSize → s.plat.isDevice a = false →
    ∃ t u, stepWith (.memStore a b) s = .next t ∧ stepWith (.memLoad a) t = .next u ∧ u.host.ldData = b ∧
      u.mem = t.mem ∧ u.regs = s.regs ∧ u.eng = s.eng ∧ u.plat = s.plat ∧ u.agenda = s.agenda ∧
      ∀ x, x ≠ a → u.mem.byteAt x = s.mem.byteAt x) ∧
  (∀ (s : State) (a : Nat), a < s.plat.memSize → s.plat.isDevice a = false → s.eng.writing a = false →
    a ∉ s.host.stale →
    ∃ u, stepWith (.memLoad a) s = .next u ∧ u.host = { s.host with ldData := s.mem.byteAt a } ∧ u.mem = s.mem ∧
      u.regs = s.regs ∧ u.eng = s.eng ∧ u.fresh = s.fresh) ∧
  (∀ (s : State) (j : Job) (a : Nat), a < s.plat.memSize → s.plat.isDevice a = false → s.eng = .busy j →
    j.inDst a = true →
    ∃ u, stepWith (.memLoad a) s = .next u ∧ u.host = { s.host with ldData := Config.freeByte s.fresh } ∧ u.mem = s.mem ∧
      u.regs = s.regs ∧ u.eng = s.eng)

/-- R75, and what the model makes of it where R75 says nothing (log entry 8). Cleaning and invalidating take bytes out of the
host's caches and change no memory outside the range; cleaning a byte that is not stale changes none at all. A command starts
disturbed exactly when a byte of its source was not cleaned. On a platform that is not coherent, a host that invalidates the
destination after completion loads the result of an undisturbed command, whatever it had stored there before (R71, R247). -/
def Obligations.CacheMaintenance : Prop :=
  (∀ (s : State) (r : Region), ∃ t u,
    stepWith (.cacheClean r) s = .next t ∧ stepWith (.cacheInvalidate r) s = .next u ∧
    (∀ a, a ∈ t.host.uncleaned ↔ a ∈ s.host.uncleaned ∧ r.has a = false) ∧
    (∀ a, a ∈ u.host.uncleaned ↔ a ∈ s.host.uncleaned ∧ r.has a = false) ∧
    t.host.stale = s.host.stale ∧ (∀ a, a ∈ u.host.stale ↔ a ∈ s.host.stale ∧ r.has a = false) ∧
    t.regs = s.regs ∧ u.regs = s.regs ∧ t.plat = s.plat ∧ u.plat = s.plat ∧ t.agenda = s.agenda ∧ u.agenda = s.agenda ∧
    (∀ a, (r.has a = false ∨ a ∉ s.host.uncleaned) → t.mem.byteAt a = s.mem.byteAt a ∧ u.mem.byteAt a = s.mem.byteAt a) ∧
    (∀ a, a ∉ s.host.stale → t.mem.byteAt a = s.mem.byteAt a) ∧
    (∀ a, a ∈ s.host.stale → u.mem.byteAt a = s.mem.byteAt a)) ∧
  (∀ (s : State) (i : Instr), s.eng = .idle → Legal s.plat i s.regs.params → (i = .gammalut ∨ 0 < s.regs.params.N) →
    ∃ t j, exec i s = .next t ∧ t.eng = .busy j ∧
      (j.disturbed = true ↔
        ∃ a ∈ s.host.uncleaned, inRange s.regs.params.sA (srcNeed i s.regs.params.N) a = true)) ∧
  (∀ (s : State) (j : Job) (r : Region), Inv s → s.eng = .busy j → j.pend = [] → j.disturbed = false →
    (∀ a, j.inDst a = true → r.has a = true ∧ s.plat.isDevice a = false) →
    ∃ t u, stepWith .engFinish s = .next t ∧ stepWith (.cacheInvalidate r) t = .next u ∧
      ∀ k, k < j.snap.dL → ∃ v, stepWith (.memLoad (j.snap.dA + k)) u = .next v ∧
        v.host.ldData = j.work.out.getD k 0)

/-- R251: from every good state with a command running, the engine, left alone, leaves `Busy` within a number of steps that the
command and its `N` alone bound: by completion or by a bus fault. The order of its steps is the model's (log entry 3). -/
def Obligations.BusyEndsWithinABound : Prop :=
  ∀ (s : State) (j : Job) (i : Instr), Inv s → s.eng = .busy j → j.cmd = encode i → s.agenda = [] →
    (∀ a, (j.inSrc a || j.inDst a) = true → s.plat.isDevice a = false) →
    ∃ k u, k ≤ srcNeed i j.snap.N + dstNeed i j.snap.N + 1 ∧ Host.Core.run Sys2Proof.core k s = .next u ∧
      u.eng = .idle ∧ u.regs.status.busy = false ∧ u.regs.status.done = true ∧
      (u.regs.status.error = false ∨ u.regs.errCode = 8#32)

/-- Every step keeps a good state good: `Inv` gathers R21, R25, R40, R60, R65, R66 and R200 (the code in
`ERR_CODE` with a field of that code in `ERR_FIELD`). -/
def Obligations.StepKeepsInvariant : Prop :=
  ∀ s t : State, Inv s → step s = .next t → Inv t

/-- The state after reset is good, on every platform. -/
def Obligations.ResetMeetsInvariant : Prop :=
  Inv State.reset ∧ ∀ p : Platform, Inv (State.resetOn p)

/-- R21, R41, R240: the engine becomes busy only by a `CMD` write that passes validation, with the snapshot of that moment; it
becomes idle only by completion, by a reset or by a bus fault; and while it runs, the command, its snapshot and its work stay
the same. The platform never changes. -/
def Obligations.EngineChangesOnlyAsRuled : Prop :=
  ∀ s t : State, step s = .next t →
    t.plat = s.plat ∧
    (∀ j, s.eng = .idle → t.eng = .busy j →
      ∃ addr size w rest i, s.agenda = .regWrite addr size w :: rest ∧ accessOf s.plat addr size = .word 0x010 ∧
        decode w = .ok i ∧ Legal s.plat i s.regs.params ∧ j.cmd = w ∧ j.snap = s.regs.params ∧
        j.pend = addrRange s.regs.params.dA s.regs.params.dL) ∧
    (∀ j, s.eng = .busy j → t.eng = .idle →
      (j.pend = [] ∧ t.regs.status.done = true ∧ t.regs.status.busy = false) ∨
      (t.regs = Regs.reset ∧ ∃ ev rest, s.agenda = ev :: rest ∧
        (ev = .hardReset ∨ ∃ addr size w, ev = .regWrite addr size w ∧ accessOf s.plat addr size = .word 0x008 ∧
          w.getLsbD 1 = true)) ∨
      (t.regs.errCode = 8#32 ∧ ∃ a, s.plat.busFault a = true ∧ (j.inSrc a || j.inDst a) = true)) ∧
    (∀ j j', s.eng = .busy j → t.eng = .busy j' →
      j'.cmd = j.cmd ∧ j'.snap = j.snap ∧ j'.work = j.work ∧ j'.srcSize = j.srcSize)

/-- R16, for a command run by an engine that is left alone, in the order of log entry 3 (the model's choice): two such runs with
equal snapshots and equal source bytes leave equal destination bytes, whatever else the two states and platforms hold. -/
def Obligations.CommandsAreDeterministic : Prop :=
  ∀ (s₁ s₂ : State) (i : Instr), s₁.eng = .idle → s₂.eng = .idle → s₁.regs.params = s₂.regs.params →
    Legal s₁.plat i s₁.regs.params → Legal s₂.plat i s₂.regs.params → (i = .gammalut ∨ 0 < s₁.regs.params.N) →
    (∀ a, inRange s₁.regs.params.sA (srcNeed i s₁.regs.params.N) a = true → s₁.mem.byteAt a = s₂.mem.byteAt a) →
    Undisturbed s₁ (srcNeed i s₁.regs.params.N) → Undisturbed s₂ (srcNeed i s₁.regs.params.N) →
    ∃ k t₁ u₁ t₂ u₂,
      exec i s₁ = .next t₁ ∧ Host.Core.run Sys2Proof.core k t₁ = .next u₁ ∧ u₁.eng = .idle ∧ u₁.regs.status.error = false ∧
      exec i s₂ = .next t₂ ∧ Host.Core.run Sys2Proof.core k t₂ = .next u₂ ∧ u₂.eng = .idle ∧ u₂.regs.status.error = false ∧
      ∀ a, inRange s₁.regs.params.dA s₁.regs.params.dL a = true → u₁.mem.byteAt a = u₂.mem.byteAt a

/-- R210: no command ever stops the machine. The stops are the model's (log entries 17 and 18): a step faults only for a host
access where neither memory nor a register stands, and is refused only for a byte of a device; and such host accesses outside
the address spaces of R60 do fault. -/
def Obligations.StopsAreOnlyOutsideTheBlock : Prop :=
  ∀ s : State,
    (∀ i, ∃ t, exec i s = .next t) ∧
    (∀ f, step s = .fault f → ∃ ev rest, s.agenda = ev :: rest ∧
      ((∃ a, f = .noSuchMemory a ∧ s.plat.memSize ≤ a ∧ (ev = .memLoad a ∨ ∃ b, ev = .memStore a b)) ∨
       (∃ a size, f = .noSuchRegister a ∧ (a + size ≤ s.plat.regBase ∨ s.plat.regBase + 4096 ≤ a) ∧
        ((∃ w, ev = .regWrite a size w) ∨ ev = .regRead a size ∨ (size = 4 ∧ ∃ m v, ev = .poll a m v))))) ∧
    (∀ r, step s = .refused r → ∃ a, r = .deviceByte a ∧ s.plat.isDevice a = true) ∧
    (∀ a b, s.plat.memSize ≤ a → stepWith (.memStore a b) s = .fault (.noSuchMemory a) ∧
      stepWith (.memLoad a) s = .fault (.noSuchMemory a)) ∧
    (∀ a size w, (a < s.plat.regBase ∧ a + size ≤ s.plat.regBase) ∨ s.plat.regBase + 4096 ≤ a →
      stepWith (.regWrite a size w) s = .fault (.noSuchRegister a) ∧
      stepWith (.regRead a size) s = .fault (.noSuchRegister a))

/-! ### Colour -/

/-- R110 to R112, R13: a byte that the enclosures of the LAB conversion decide, at any precision, is the exact rounding of the
real formula, clamped; and the conversion gives the bytes that its enclosure decides. -/
def Obligations.LabEnclosureIsSound : Prop :=
  (∀ (P : Nat) (r g b v : Sample),
    ((labEnclosed P r g b).1 = some v → ∃ n : ℤ, IsRoundTE (labLR r g b) n ∧ v = clamp8 n) ∧
    ((labEnclosed P r g b).2.1 = some v → ∃ n : ℤ, IsRoundTE (labAR r g b) n ∧ v = clamp8 n) ∧
    ((labEnclosed P r g b).2.2 = some v → ∃ n : ℤ, IsRoundTE (labBR r g b) n ∧ v = clamp8 n)) ∧
  (∀ r g b v : Sample,
    ((labEnclosed Config.labPrecision r g b).1 = some v → (rgbToLabPx (r, g, b)).1 = v) ∧
    ((labEnclosed Config.labPrecision r g b).2.1 = some v → (rgbToLabPx (r, g, b)).2.1 = v) ∧
    ((labEnclosed Config.labPrecision r g b).2.2 = some v → (rgbToLabPx (r, g, b)).2.2 = v))

/-- R112, R113, R117 on gray: a gray pixel has a = b = 128, black and white are the ends of L, and every (L, 128, 128) comes
back gray. R124 says that gray survives both round trips exactly; by R112 and R116 that holds for HSV, while the LAB round trip
moves some gray levels by 1 (log entry 11), which is what is stated. -/
def Obligations.GrayStaysGray : Prop :=
  (∀ v : Sample, (rgbToLabPx (v, v, v)).2 = (128#8, 128#8)) ∧
  rgbToLabPx (0#8, 0#8, 0#8) = (0#8, 128#8, 128#8) ∧ rgbToLabPx (255#8, 255#8, 255#8) = (255#8, 128#8, 128#8) ∧
  (∀ l : Sample, ∃ v, labToRgbPx (l, 128#8, 128#8) = (v, v, v)) ∧
  (∀ v : Sample, hsvToRgbPx (rgbToHsvPx (v, v, v)) = (v, v, v)) ∧
  (∀ v : Sample, ∃ u : Sample, labToRgbPx (rgbToLabPx (v, v, v)) = (u, u, u) ∧
    u.toNat ≤ v.toNat + 1 ∧ v.toNat ≤ u.toNat + 1) ∧
  labToRgbPx (rgbToLabPx (2#8, 2#8, 2#8)) = (1#8, 1#8, 1#8)

/-- R115, R116, R13, on real numbers: the byte of a linear component is the exact rounding of its sRGB encoding, which lies in
[0, 255]; and the three bytes of `labToRgbPx` are those of the components `R`, `G`, `B` that the matrix `M` of R111 takes to the
`X`, `Y`, `Z` of R115. -/
def Obligations.EncodedByteIsExactRounding : Prop :=
  (∀ l : ℚ, IsRoundTE (255 * encR (l : ℝ)) ((encByte l).toNat : ℤ)) ∧
  (∀ L8 a8 b8 : Sample,
    let fy : ℝ := ((L8.toNat : ℝ) * 100 / 255 + 16) / 116
    let fx : ℝ := fy + ((a8.toNat : ℝ) - 128) / 500
    let fz : ℝ := fy - ((b8.toNat : ℝ) - 128) / 200
    let out := labToRgbPx (L8, a8, b8)
    ∃ R G B : ℝ,
      0.412453 * R + 0.357580 * G + 0.180423 * B = 0.950456 * labFinvR fx ∧
      0.212671 * R + 0.715160 * G + 0.072169 * B = 1 * labFinvR fy ∧
      0.019334 * R + 0.119193 * G + 0.950227 * B = 1.088754 * labFinvR fz ∧
      IsRoundTE (255 * encR R) (out.1.toNat : ℤ) ∧ IsRoundTE (255 * encR G) (out.2.1.toNat : ℤ) ∧
      IsRoundTE (255 * encR B) (out.2.2.toNat : ℤ))

/-- R119 whole; and R118 written out: the value, the saturation, and the hue branch by branch. -/
def Obligations.HsvDerivedFacts : Prop :=
  (∀ v : Sample, (rgbToHsvPx (v, v, v)).1 = 0#8 ∧ (rgbToHsvPx (v, v, v)).2.1 = 0#8) ∧
  rgbToHsvPx (0#8, 0#8, 0#8) = (0#8, 0#8, 0#8) ∧
  (∀ v : Sample, v ≠ 0#8 →
    (rgbToHsvPx (v, 0#8, 0#8)).1 = 0#8 ∧ (rgbToHsvPx (0#8, v, 0#8)).1 = 85#8 ∧ (rgbToHsvPx (0#8, 0#8, v)).1 = 171#8) ∧
  (∀ r g b : Sample, ¬(r = g ∧ g = b) →
    let V := max (max (sampleQ r) (sampleQ g)) (sampleQ b)
    let h := hueDegrees (sampleQ r) (sampleQ g) (sampleQ b) V (V - min (min (sampleQ r) (sampleQ g)) (sampleQ b))
    let n := roundTE (h * 256 / 360)
    0 ≤ n ∧ n ≤ 256 ∧ n % 256 = (if n = 256 then 0 else n) ∧ h < 360 ∧ (n = 256 ↔ 359296875 / 1000000 ≤ h) ∧
      ((rgbToHsvPx (r, g, b)).1.toNat : ℤ) = n % 256) ∧
  (∀ r g b : Sample,
    let R := (r.toNat : ℚ)
    let G := (g.toNat : ℚ)
    let B := (b.toNat : ℚ)
    let V := max (max R G) B
    let d := V - min (min R G) B
    let y := rgbToHsvPx (r, g, b)
    (y.2.2.toNat : ℚ) = V ∧
    (y.2.1.toNat : ℤ) = (if V = 0 then 0 else roundTE (255 * d / V)) ∧
    (d = 0 → y.1 = 0#8) ∧
    (d ≠ 0 → ∃ h : ℚ,
      (V = R → B ≤ G → h = 60 * (G - B) / d) ∧
      (V = R → G < B → h = 60 * (G - B) / d + 360) ∧
      (V ≠ R → V = G → h = 120 + 60 * (B - R) / d) ∧
      (V ≠ R → V ≠ G → h = 240 + 60 * (R - G) / d) ∧
      0 ≤ h ∧ h < 360 ∧ (y.1.toNat : ℤ) = roundTE (h * 256 / 360) % 256))

/-- R122 whole; and R121 written out: gray at `V` without saturation, else the three bytes of each sector, none above `V`. -/
def Obligations.HsvToRgbDerivedFacts : Prop :=
  (∀ h s v : Sample,
    let y := hsvToRgbPx (h, s, v)
    (y.1 = v ∨ y.2.1 = v ∨ y.2.2 = v) ∧
    (s = 255#8 → y.1 = 0#8 ∨ y.2.1 = 0#8 ∨ y.2.2 = 0#8) ∧
    y.1.toNat ≤ v.toNat ∧ y.2.1.toNat ≤ v.toNat ∧ y.2.2.toNat ≤ v.toNat) ∧
  (∀ h8 s8 v8 : Sample,
    let hp : ℚ := (h8.toNat : ℚ) * 360 / 256 / 60
    let s : ℚ := (s8.toNat : ℚ) / 255
    let v : ℚ := (v8.toNat : ℚ) / 255
    let fr := hp - (hp.floor : ℚ)
    let p := v * (1 - s)
    let q := v * (1 - s * fr)
    let t := v * (1 - s * (1 - fr))
    let y := hsvToRgbPx (h8, s8, v8)
    let gives (r g b : ℚ) : Prop := (y.1.toNat : ℤ) = roundTE (255 * r) ∧ (y.2.1.toNat : ℤ) = roundTE (255 * g) ∧
      (y.2.2.toNat : ℤ) = roundTE (255 * b)
    (s8 = 0#8 → y = (v8, v8, v8)) ∧
    (s8 ≠ 0#8 →
      (0 ≤ hp ∧ hp < 1 → gives v t p) ∧
      (1 ≤ hp ∧ hp < 2 → gives q v p) ∧
      (2 ≤ hp ∧ hp < 3 → gives p v t) ∧
      (3 ≤ hp ∧ hp < 4 → gives p q v) ∧
      (4 ≤ hp ∧ hp < 5 → gives t p v) ∧
      (5 ≤ hp ∧ hp < 6 → gives v p q) ∧ 0 ≤ hp ∧ hp < 6)) ∧
  (∀ v : Sample, sampleQ v / 255 * (1 - sampleQ 255#8 / 255) = 0) ∧
  (∀ h : Sample, 0 ≤ (sampleQ h * 360 / 256 / 60).floor ∧ (sampleQ h * 360 / 256 / 60).floor ≤ 5) ∧
  sampleQ 255#8 * 360 / 256 = 35859375 / 100000

/-! ### Contrast -/

/-- R144 whole: the redistributed bins by its formula, their total, and that a bin may end above the limit. -/
def Obligations.RedistributionKeepsTheTotal : Prop :=
  (∀ (limit : Nat) (hist : List Nat), hist.length = 256 →
    let E := ((List.range 256).map fun v => hist.getD v 0 - limit).sum
    (∀ v, v < 256 →
      (redistribute limit hist).getD v 0 = min (hist.getD v 0) limit + E / 256 + (if v < E % 256 then 1 else 0)) ∧
    (redistribute limit hist).length = 256 ∧
    (redistribute limit hist).sum = hist.sum) ∧
  (∀ (limit : Nat) (tile : List Sample), (redistribute limit (histogram tile)).sum = tile.length) ∧
  (∃ (limit : Nat) (tile : List Sample) (v : Nat), limit < (redistribute limit (histogram tile)).getD v 0)

/-- R145 whole, with the limit of R143: the mapping by its formula on the inclusive distribution, which needs no clamp; it ends
at 255, never falls, and may start above 0. -/
def Obligations.MappingFollowsTheDistribution : Prop :=
  (∀ (c : ℚ) (tile : List Sample), 0 < c → tile ≠ [] →
    let Nt := tile.length
    let h2 := redistribute (max 1 (c * (Nt : ℚ) / 256).floor.toNat) (histogram tile)
    let lut := mappingOf c Nt (histogram tile)
    (∀ v, v < 256 →
      ((lut.getD v 0).toNat : ℤ) = roundTE ((((h2.take (v + 1)).sum : Nat) : ℚ) * 255 / (Nt : ℚ))) ∧
    lut.getD 255 0 = 255#8 ∧
    (∀ u v, u ≤ v → v < 256 → (lut.getD u 0).toNat ≤ (lut.getD v 0).toNat)) ∧
  (∃ (c : ℚ) (tile : List Sample), 0 < c ∧ 0 < ((mappingOf c tile.length (histogram tile)).getD 0 0).toNat)

/-- R140 to R142, R146: each output sample of `CLAHE` is the rounded blend of the mappings of its four nearest tiles, each mapping
made from the histogram of that tile's own samples, where a row or column past the image is its last one; the blend lies in
[0, 255], so no clamp is needed. -/
def Obligations.ClaheBlendsTileMappings : Prop :=
  ∀ (p : Params) (L : List Sample) (y x : Nat), 1 ≤ p.tr → 1 ≤ p.tc → 0 < p.clip → L.length = p.N →
    y < p.H → x < p.W →
    let th := min p.tr p.H
    let tw := min p.tc p.W
    let nY := (p.H + th - 1) / th
    let nX := (p.W + tw - 1) / tw
    let v := L.getD (y * p.W + x) 0
    let hist : Nat → Nat → List Nat := fun ty tx => (List.range 256).map fun u =>
      ((List.range th).map fun i => ((List.range tw).filter fun j =>
        (L.getD (min (ty * th + i) (p.H - 1) * p.W + min (tx * tw + j) (p.W - 1)) 0).toNat = u).length).sum
    let lut : Nat → Nat → ℚ := fun ty tx => sampleQ ((mappingOf p.clip (th * tw) (hist ty tx)).getD v.toNat 0)
    let fy : ℚ := (2 * (y : ℚ) + 1 - (th : ℚ)) / (2 * (th : ℚ))
    let fx : ℚ := (2 * (x : ℚ) + 1 - (tw : ℚ)) / (2 * (tw : ℚ))
    let wy := fy - (fy.floor : ℚ)
    let wx := fx - (fx.floor : ℚ)
    let y1 := (min (max fy.floor 0) ((nY : ℤ) - 1)).toNat
    let y2 := (min (max (fy.floor + 1) 0) ((nY : ℤ) - 1)).toNat
    let x1 := (min (max fx.floor 0) ((nX : ℤ) - 1)).toNat
    let x2 := (min (max (fx.floor + 1) 0) ((nX : ℤ) - 1)).toNat
    let val := (1 - wy) * ((1 - wx) * lut y1 x1 + wx * lut y1 x2) + wy * ((1 - wx) * lut y2 x1 + wx * lut y2 x2)
    0 ≤ wy ∧ wy < 1 ∧ 0 ≤ wx ∧ wx < 1 ∧ 0 ≤ val ∧ val ≤ 255 ∧
      (((claheMap p L).getD (y * p.W + x) 0).toNat : ℤ) = roundTE val

/-- R148 whole: a single tile, plain equalisation, a uniform plane, a plane of one pixel, and the bounds. -/
def Obligations.ClaheDerivedFacts : Prop :=
  (∀ (p : Params) (L : List Sample), 1 ≤ p.tr → 1 ≤ p.tc → 0 < p.clip → 0 < p.N → L.length = p.N →
    (p.H ≤ p.tr → p.W ≤ p.tc →
      tilesY p = 1 ∧ tilesX p = 1 ∧
      (∀ k, k < p.N → (claheMap p L).getD k 0 =
        (mappingOf p.clip p.N (histogram L)).getD (L.getD k 0).toNat 0) ∧
      ((∀ v : Sample, (L.count v : ℤ) ≤ (p.clip * (p.N : ℚ) / 256).floor) →
        ∀ k, k < p.N → (((claheMap p L).getD k 0).toNat : ℤ) =
          roundTE (255 * (((L.filter fun x => decide (x.toNat ≤ (L.getD k 0).toNat)).length : Nat) : ℚ) / (p.N : ℚ)))) ∧
    (∀ u : Sample, L = List.replicate p.N u →
      let Nt := min p.tr p.H * min p.tc p.W
      let l := min (max 1 (p.clip * (Nt : ℚ) / 256).floor.toNat) Nt
      let q := (Nt - l) / 256
      let r := (Nt - l) % 256
      let cdf := (u.toNat + 1) * q + min (u.toNat + 1) r + l
      ∀ k, k < p.N → (((claheMap p L).getD k 0).toNat : ℤ) = roundTE (255 * (cdf : ℚ) / (Nt : ℚ))) ∧
    (p.H = 1 → p.W = 1 → claheMap p L = [255#8]) ∧
    (claheMap p L).length = p.N ∧ ∀ x ∈ claheMap p L, x.toNat ≤ 255)

/-! ### Tone -/

/-- R160, R13: entry `i` of the gamma table is the exact rounding of `255·(i/255)^(1/g)` on real numbers. -/
def Obligations.GammaEntryIsExactRounding : Prop :=
  ∀ (g : ℚ) (i : Nat), 0 < g → i < 256 →
    (gammaLut g)[i]? = some (gammaEntry g i) ∧
    IsRoundTE (255 * ((i : ℝ) / 255) ^ (1 / (g : ℝ))) ((gammaEntry g i).toNat : ℤ)

/-- R163 whole, for every legal `GAMMA` word. -/
def Obligations.GammaTableDerivedFacts : Prop :=
  ∀ w : Word, PositiveF32 w →
    (gammaLut (f32 w)).length = 256 ∧
    (gammaLut (f32 w)).getD 0 0 = 0#8 ∧
    (gammaLut (f32 w)).getD 255 0 = 255#8 ∧
    (∀ i k, i ≤ k → k < 256 → ((gammaLut (f32 w)).getD i 0).toNat ≤ ((gammaLut (f32 w)).getD k 0).toNat) ∧
    (f32 w = 1 → ∀ i, i < 256 → ((gammaLut (f32 w)).getD i 0).toNat = i) ∧
    (1 < f32 w → ∀ i, i < 256 → i ≤ ((gammaLut (f32 w)).getD i 0).toNat) ∧
    (f32 w < 1 → ∀ i, i < 256 → ((gammaLut (f32 w)).getD i 0).toNat ≤ i)

/-- R164, its corner cases: 1.0 is the identity, the smallest subnormal gives 0, half-way products round to even, products at or
above 255 give 255, and no boost reverses two samples. -/
def Obligations.BrightnessCornerCases : Prop :=
  (∀ v : Sample, brightPx (f32 0x3F800000#32) v = v) ∧
  (∀ v : Sample, brightPx (f32 0x00000001#32) v = 0#8) ∧
  brightPx (f32 0x3FC00000#32) 1#8 = 2#8 ∧ brightPx (f32 0x3FC00000#32) 3#8 = 4#8 ∧
  brightPx (f32 0x3F000000#32) 1#8 = 0#8 ∧ brightPx (f32 0x3F000000#32) 255#8 = 128#8 ∧
  (∀ (w : Word) (u v : Sample), PositiveF32 w →
    (255 ≤ sampleQ v * f32 w → brightPx (f32 w) v = 255#8) ∧
    (u.toNat ≤ v.toNat → (brightPx (f32 w) u).toNat ≤ (brightPx (f32 w) v).toNat))

/-- R166 whole, for every legal `SATURATION` word; and R165 written out. -/
def Obligations.SaturationDerivedFacts : Prop :=
  f32 0x80000000#32 = 0 ∧
  ∀ (w : Word) (r g b : Sample), NonnegF32 w →
    (f32 w = 1 → satPx (f32 w) (r, g, b) = (r, g, b)) ∧
    (f32 w ≠ 1 → ∀ S2 : Sample,
      (S2.toNat : ℤ) = min (roundTE (((rgbToHsvPx (r, g, b)).2.1.toNat : ℚ) * f32 w)) 255 →
      satPx (f32 w) (r, g, b) = hsvToRgbPx ((rgbToHsvPx (r, g, b)).1, S2, (rgbToHsvPx (r, g, b)).2.2)) ∧
    (r = g → g = b → satPx (f32 w) (r, g, b) = (r, g, b)) ∧
    (f32 w = 0 → ∃ m : Sample, m.toNat = max (max r.toNat g.toNat) b.toNat ∧ satPx (f32 w) (r, g, b) = (m, m, m)) ∧
    max (max (satPx (f32 w) (r, g, b)).1.toNat (satPx (f32 w) (r, g, b)).2.1.toNat) (satPx (f32 w) (r, g, b)).2.2.toNat =
      max (max r.toNat g.toNat) b.toNat

/-! ### The pipeline -/

/-- R182, on the commands' rules (the bytes each computes from a snapshot and source bytes): with one snapshot, the single-stage
rules applied one after another to each other's bytes give the bytes of `ENHANCE`, in both channel orders. -/
def Obligations.EnhanceIsTheComposition : Prop :=
  ∀ (p : Params) (src : List Sample), src.length = 3 * p.N →
    let lab := (rgb2labWork p src).out
    let l1 := (claheWork p (lab.take p.N)).out
    let l2 := (gammaWork p l1).out
    let l3 := (brightWork p l2).out
    let rgb := (lab2rgbWork p (l3 ++ lab.drop p.N)).out
    (enhanceWork p src).out = (satboostWork p rgb).out

/-- R183 whole: a command with `CHANNEL_ORDER = 1` is the command with `CHANNEL_ORDER = 0` with bytes 0 and 2 of every pixel
exchanged on its image sides. -/
def Obligations.ChannelOrderSymmetry : Prop :=
  ∀ (p q : Params) (src : List Sample), u32 p.channelOrder = 1 → q = { p with channelOrder := 0#32 } →
    (enhanceWork p src).out = swapBytes (enhanceWork q (swapBytes src)).out ∧
    (satboostWork p src).out = swapBytes (satboostWork q (swapBytes src)).out ∧
    (rgb2labWork p src).out = (rgb2labWork q (swapBytes src)).out ∧
    (rgb2hsvWork p src).out = (rgb2hsvWork q (swapBytes src)).out ∧
    (lab2rgbWork p src).out = swapBytes (lab2rgbWork q src).out ∧
    (hsv2rgbWork p src).out = swapBytes (hsv2rgbWork q src).out

/-- R184 item 3: with gamma, brightness and saturation at exactly 1, `ENHANCE` is `LAB2RGB` of the equalised L with the old a and
b; and each of the three stages is the identity. -/
def Obligations.IdentityStagesDropOut : Prop :=
  ∀ (p : Params) (src : List Sample), f32 p.gamma = 1 → f32 p.brightness = 1 → f32 p.saturation = 1 →
    src.length = 3 * p.N →
    (∀ l : List Sample, (gammaWork p l).out = l ∧ (brightWork p l).out = l) ∧
    (satboostWork p src).out = src ∧
    (enhanceWork p src).out =
      (lab2rgbWork p ((claheWork p ((rgb2labWork p src).out.take p.N)).out ++ (rgb2labWork p src).out.drop p.N)).out

/-- R11, R96: `bits32` finds the pattern of every finite value that has one, and the examples of the two rules. −0.0 is left
aside, since its value 0 is that of +0.0: both zeros are nearest to 0, and that `bits32` of 0 is +0.0 is the model's choice (log
entry 21). -/
def Obligations.PatternsAndValuesAgree : Prop :=
  (∀ w : Word, isFinite w = true → w ≠ 0x80000000#32 → bits32 (f32 w) = w) ∧
  bits32 (12 / 10) = 0x3F99999A#32 ∧
  f32 0x3F99999A#32 = 12000000476837158203125 / 10 ^ 22 ∧ f32 0x3F8CCCCD#32 = 110000002384185791015625 / 10 ^ 23

end
end

