-- ==== Sys2Proof/Laws/State.lean ====
section
/-! SUPPORT. One lemma per field per named update of the state, each true by rfl, so that no proof unfolds an update; and
the fields of the state after reset. -/

namespace Sys2Proof.Machine

variable (s : State)

@[simp] theorem setRegs_plat (rs : Regs) : (s.setRegs rs).plat = s.plat := rfl
@[simp] theorem setRegs_regs (rs : Regs) : (s.setRegs rs).regs = rs := rfl
@[simp] theorem setRegs_eng (rs : Regs) : (s.setRegs rs).eng = s.eng := rfl
@[simp] theorem setRegs_mem (rs : Regs) : (s.setRegs rs).mem = s.mem := rfl
@[simp] theorem setRegs_host (rs : Regs) : (s.setRegs rs).host = s.host := rfl
@[simp] theorem setRegs_agenda (rs : Regs) : (s.setRegs rs).agenda = s.agenda := rfl
@[simp] theorem setRegs_fresh (rs : Regs) : (s.setRegs rs).fresh = s.fresh := rfl

@[simp] theorem setStatus_plat (st : Status) : (s.setStatus st).plat = s.plat := rfl
@[simp] theorem setStatus_regs (st : Status) : (s.setStatus st).regs = { s.regs with status := st } := rfl
@[simp] theorem setStatus_eng (st : Status) : (s.setStatus st).eng = s.eng := rfl
@[simp] theorem setStatus_mem (st : Status) : (s.setStatus st).mem = s.mem := rfl
@[simp] theorem setStatus_host (st : Status) : (s.setStatus st).host = s.host := rfl
@[simp] theorem setStatus_agenda (st : Status) : (s.setStatus st).agenda = s.agenda := rfl
@[simp] theorem setStatus_fresh (st : Status) : (s.setStatus st).fresh = s.fresh := rfl

@[simp] theorem setEng_plat (e : Engine) : (s.setEng e).plat = s.plat := rfl
@[simp] theorem setEng_regs (e : Engine) : (s.setEng e).regs = s.regs := rfl
@[simp] theorem setEng_eng (e : Engine) : (s.setEng e).eng = e := rfl
@[simp] theorem setEng_mem (e : Engine) : (s.setEng e).mem = s.mem := rfl
@[simp] theorem setEng_host (e : Engine) : (s.setEng e).host = s.host := rfl
@[simp] theorem setEng_agenda (e : Engine) : (s.setEng e).agenda = s.agenda := rfl
@[simp] theorem setEng_fresh (e : Engine) : (s.setEng e).fresh = s.fresh := rfl

@[simp] theorem setMem_plat (m : Memory) : (s.setMem m).plat = s.plat := rfl
@[simp] theorem setMem_regs (m : Memory) : (s.setMem m).regs = s.regs := rfl
@[simp] theorem setMem_eng (m : Memory) : (s.setMem m).eng = s.eng := rfl
@[simp] theorem setMem_mem (m : Memory) : (s.setMem m).mem = m := rfl
@[simp] theorem setMem_host (m : Memory) : (s.setMem m).host = s.host := rfl
@[simp] theorem setMem_agenda (m : Memory) : (s.setMem m).agenda = s.agenda := rfl
@[simp] theorem setMem_fresh (m : Memory) : (s.setMem m).fresh = s.fresh := rfl

@[simp] theorem setHost_plat (h : HostSide) : (s.setHost h).plat = s.plat := rfl
@[simp] theorem setHost_regs (h : HostSide) : (s.setHost h).regs = s.regs := rfl
@[simp] theorem setHost_eng (h : HostSide) : (s.setHost h).eng = s.eng := rfl
@[simp] theorem setHost_mem (h : HostSide) : (s.setHost h).mem = s.mem := rfl
@[simp] theorem setHost_host (h : HostSide) : (s.setHost h).host = h := rfl
@[simp] theorem setHost_agenda (h : HostSide) : (s.setHost h).agenda = s.agenda := rfl
@[simp] theorem setHost_fresh (h : HostSide) : (s.setHost h).fresh = s.fresh := rfl

@[simp] theorem setAgenda_plat (l : List Event) : (s.setAgenda l).plat = s.plat := rfl
@[simp] theorem setAgenda_regs (l : List Event) : (s.setAgenda l).regs = s.regs := rfl
@[simp] theorem setAgenda_eng (l : List Event) : (s.setAgenda l).eng = s.eng := rfl
@[simp] theorem setAgenda_mem (l : List Event) : (s.setAgenda l).mem = s.mem := rfl
@[simp] theorem setAgenda_host (l : List Event) : (s.setAgenda l).host = s.host := rfl
@[simp] theorem setAgenda_agenda (l : List Event) : (s.setAgenda l).agenda = l := rfl
@[simp] theorem setAgenda_fresh (l : List Event) : (s.setAgenda l).fresh = s.fresh := rfl

@[simp] theorem draw_plat (n : Nat) : (s.draw n).plat = s.plat := rfl
@[simp] theorem draw_regs (n : Nat) : (s.draw n).regs = s.regs := rfl
@[simp] theorem draw_eng (n : Nat) : (s.draw n).eng = s.eng := rfl
@[simp] theorem draw_mem (n : Nat) : (s.draw n).mem = s.mem := rfl
@[simp] theorem draw_host (n : Nat) : (s.draw n).host = s.host := rfl
@[simp] theorem draw_agenda (n : Nat) : (s.draw n).agenda = s.agenda := rfl
@[simp] theorem draw_fresh (n : Nat) : (s.draw n).fresh = s.fresh + n := rfl

@[simp] theorem setError_irqEn (rs : Regs) (c f v : Word) : (rs.setError c f v).irqEn = rs.irqEn := rfl
@[simp] theorem setError_status (rs : Regs) (c f v : Word) : (rs.setError c f v).status = rs.status := rfl
@[simp] theorem setError_cmd (rs : Regs) (c f v : Word) : (rs.setError c f v).cmd = rs.cmd := rfl
@[simp] theorem setError_errCode (rs : Regs) (c f v : Word) : (rs.setError c f v).errCode = c := rfl
@[simp] theorem setError_errField (rs : Regs) (c f v : Word) : (rs.setError c f v).errField = f := rfl
@[simp] theorem setError_errValue (rs : Regs) (c f v : Word) : (rs.setError c f v).errValue = v := rfl
@[simp] theorem setError_params (rs : Regs) (c f v : Word) : (rs.setError c f v).params = rs.params := rfl

@[simp] theorem status_accept_busy (st : Status) : st.accept.busy = st.busy := rfl
@[simp] theorem status_accept_done (st : Status) : st.accept.done = false := rfl
@[simp] theorem status_accept_error (st : Status) : st.accept.error = false := rfl
@[simp] theorem status_accept_overrun (st : Status) : st.accept.overrun = st.overrun := rfl

@[simp] theorem status_start_busy (st : Status) : st.start.busy = true := rfl
@[simp] theorem status_start_done (st : Status) : st.start.done = st.done := rfl
@[simp] theorem status_start_error (st : Status) : st.start.error = st.error := rfl
@[simp] theorem status_start_overrun (st : Status) : st.start.overrun = st.overrun := rfl

@[simp] theorem status_complete_busy (st : Status) : st.complete.busy = false := rfl
@[simp] theorem status_complete_done (st : Status) : st.complete.done = true := rfl
@[simp] theorem status_complete_error (st : Status) : st.complete.error = st.error := rfl
@[simp] theorem status_complete_overrun (st : Status) : st.complete.overrun = st.overrun := rfl

@[simp] theorem status_fail_busy (st : Status) : st.fail.busy = false := rfl
@[simp] theorem status_fail_done (st : Status) : st.fail.done = true := rfl
@[simp] theorem status_fail_error (st : Status) : st.fail.error = true := rfl
@[simp] theorem status_fail_overrun (st : Status) : st.fail.overrun = st.overrun := rfl

@[simp] theorem status_overran_busy (st : Status) : st.overran.busy = st.busy := rfl
@[simp] theorem status_overran_done (st : Status) : st.overran.done = st.done := rfl
@[simp] theorem status_overran_error (st : Status) : st.overran.error = st.error := rfl
@[simp] theorem status_overran_overrun (st : Status) : st.overran.overrun = true := rfl

@[simp] theorem resetOn_plat (p : Platform) : (State.resetOn p).plat = p := rfl
@[simp] theorem resetOn_regs (p : Platform) : (State.resetOn p).regs = Regs.reset := rfl
@[simp] theorem resetOn_eng (p : Platform) : (State.resetOn p).eng = .idle := rfl
@[simp] theorem resetOn_mem (p : Platform) : (State.resetOn p).mem = [] := rfl
@[simp] theorem resetOn_host (p : Platform) : (State.resetOn p).host = HostSide.reset := rfl
@[simp] theorem resetOn_agenda (p : Platform) : (State.resetOn p).agenda = [] := rfl
@[simp] theorem resetOn_fresh (p : Platform) : (State.resetOn p).fresh = 0 := rfl

theorem reset_eq_resetOn : State.reset = State.resetOn Config.platform := rfl

@[simp] theorem isBusy_idle : Engine.idle.isBusy = false := rfl
@[simp] theorem isBusy_busy (j : Job) : (Engine.busy j).isBusy = true := rfl

/-- The engine is idle exactly when it is not busy. -/
theorem isBusy_eq_false_iff (e : Engine) : e.isBusy = false ↔ e = .idle := by
  cases e <;> simp

/-! ### The shared operations, field by field -/

@[simp] theorem raiseError_plat (r : Report) : (raiseError s r).plat = s.plat := rfl
@[simp] theorem raiseError_regs (r : Report) : (raiseError s r).regs = { s.regs.setError r.code.toWord (BitVec.ofNat 32 r.field.offset) r.value with status := s.regs.status.fail } := rfl
@[simp] theorem raiseError_eng (r : Report) : (raiseError s r).eng = .idle := rfl
@[simp] theorem raiseError_mem (r : Report) : (raiseError s r).mem = s.mem := rfl
@[simp] theorem raiseError_host (r : Report) : (raiseError s r).host = s.host := rfl
@[simp] theorem raiseError_agenda (r : Report) : (raiseError s r).agenda = s.agenda := rfl
@[simp] theorem raiseError_fresh (r : Report) : (raiseError s r).fresh = s.fresh := rfl

@[simp] theorem beginAccept_plat (w : Word) : (beginAccept w s).plat = s.plat := rfl
@[simp] theorem beginAccept_regs (w : Word) : (beginAccept w s).regs = { (s.regs.setError 0#32 0#32 0#32) with cmd := w, status := s.regs.status.accept } := rfl
@[simp] theorem beginAccept_eng (w : Word) : (beginAccept w s).eng = s.eng := rfl
@[simp] theorem beginAccept_mem (w : Word) : (beginAccept w s).mem = s.mem := rfl
@[simp] theorem beginAccept_host (w : Word) : (beginAccept w s).host = s.host := rfl
@[simp] theorem beginAccept_agenda (w : Word) : (beginAccept w s).agenda = s.agenda := rfl
@[simp] theorem beginAccept_fresh (w : Word) : (beginAccept w s).fresh = s.fresh := rfl

@[simp] theorem overrun_plat  : (overrun s).plat = s.plat := rfl
@[simp] theorem overrun_regs  : (overrun s).regs = { s.regs with status := s.regs.status.overran } := rfl
@[simp] theorem overrun_eng  : (overrun s).eng = s.eng := rfl
@[simp] theorem overrun_mem  : (overrun s).mem = s.mem := rfl
@[simp] theorem overrun_host  : (overrun s).host = s.host := rfl
@[simp] theorem overrun_agenda  : (overrun s).agenda = s.agenda := rfl
@[simp] theorem overrun_fresh  : (overrun s).fresh = s.fresh := rfl

@[simp] theorem endJob_plat (j : Job) : (endJob s j).plat = s.plat := rfl
@[simp] theorem endJob_regs (j : Job) : (endJob s j).regs = s.regs := rfl
@[simp] theorem endJob_eng (j : Job) : (endJob s j).eng = .idle := rfl
@[simp] theorem endJob_mem (j : Job) : (endJob s j).mem = s.mem := rfl
@[simp] theorem endJob_host (j : Job) : (endJob s j).host = if s.plat.dmaCoherent then s.host
    else { s.host with stale := addrRange j.snap.dA j.snap.dL ++ s.host.stale } := rfl
@[simp] theorem endJob_agenda (j : Job) : (endJob s j).agenda = s.agenda := rfl
@[simp] theorem endJob_fresh (j : Job) : (endJob s j).fresh = s.fresh := rfl

@[simp] theorem scramble_plat (j : Job) : (scramble s j).plat = s.plat := rfl
@[simp] theorem scramble_regs (j : Job) : (scramble s j).regs = s.regs := rfl
@[simp] theorem scramble_eng (j : Job) : (scramble s j).eng = s.eng := rfl
@[simp] theorem scramble_mem (j : Job) : (scramble s j).mem = s.mem.setAll j.snap.dA (freeBytes s.fresh j.snap.dL) := rfl
@[simp] theorem scramble_host (j : Job) : (scramble s j).host = s.host := rfl
@[simp] theorem scramble_agenda (j : Job) : (scramble s j).agenda = s.agenda := rfl
@[simp] theorem scramble_fresh (j : Job) : (scramble s j).fresh = s.fresh + j.snap.dL := rfl

@[simp] theorem busFaultAt_plat (j : Job) (r : Reg) (a : Nat) : (busFaultAt s j r a).plat = s.plat := rfl
@[simp] theorem busFaultAt_regs (j : Job) (r : Reg) (a : Nat) : (busFaultAt s j r a).regs = { s.regs.setError 8#32 (BitVec.ofNat 32 r.offset) (BitVec.ofNat 32 a) with status := s.regs.status.fail } := rfl
@[simp] theorem busFaultAt_eng (j : Job) (r : Reg) (a : Nat) : (busFaultAt s j r a).eng = .idle := rfl
@[simp] theorem busFaultAt_mem (j : Job) (r : Reg) (a : Nat) : (busFaultAt s j r a).mem = s.mem.setAll j.snap.dA (freeBytes s.fresh j.snap.dL) := rfl
@[simp] theorem busFaultAt_host (j : Job) (r : Reg) (a : Nat) : (busFaultAt s j r a).host = if s.plat.dmaCoherent then s.host
    else { s.host with stale := addrRange j.snap.dA j.snap.dL ++ s.host.stale } := rfl
@[simp] theorem busFaultAt_agenda (j : Job) (r : Reg) (a : Nat) : (busFaultAt s j r a).agenda = s.agenda := rfl
@[simp] theorem busFaultAt_fresh (j : Job) (r : Reg) (a : Nat) : (busFaultAt s j r a).fresh = s.fresh + j.snap.dL := rfl

@[simp] theorem acknowledge_plat (w : Word) : (acknowledge s w).plat = s.plat := rfl
@[simp] theorem acknowledge_regs (w : Word) : (acknowledge s w).regs = { s.regs with status := s.regs.status.writeOneClear w } := rfl
@[simp] theorem acknowledge_eng (w : Word) : (acknowledge s w).eng = s.eng := rfl
@[simp] theorem acknowledge_mem (w : Word) : (acknowledge s w).mem = s.mem := rfl
@[simp] theorem acknowledge_host (w : Word) : (acknowledge s w).host = s.host := rfl
@[simp] theorem acknowledge_agenda (w : Word) : (acknowledge s w).agenda = s.agenda := rfl
@[simp] theorem acknowledge_fresh (w : Word) : (acknowledge s w).fresh = s.fresh := rfl

end Sys2Proof.Machine
end

