-- ==== Sys2Proof/Laws/Memory.lean ====
section
/-! SUPPORT. The laws of system memory: a read after a write, a write leaves every other byte alone, every operation keeps the
canonical form. -/

namespace Sys2Proof.Machine

/-! ### One byte -/

@[simp] theorem get?_set_self (m : Memory) (a : Nat) (b : Sample) : (m.set a b).get? a = some b := by
  induction m with
  | nil => simp [Memory.set, Memory.get?]
  | cons c m ih =>
    obtain ⟨k, d⟩ := c
    simp only [Memory.set]
    split
    · simp [Memory.get?]
    · split
      · simp [Memory.get?]
      · rename_i h1 h2
        have : k ≠ a := fun h => h2 h.symm
        simp [Memory.get?, this, ih]

@[simp] theorem get?_set_of_ne (m : Memory) {a a' : Nat} (b : Sample) (h : a' ≠ a) : (m.set a b).get? a' = m.get? a' := by
  induction m with
  | nil => simp [Memory.set, Memory.get?, h.symm]
  | cons c m ih =>
    obtain ⟨k, d⟩ := c
    simp only [Memory.set]
    split
    · simp [Memory.get?, h.symm]
    · split
      · rename_i h1 h2
        subst h2
        simp [Memory.get?, h.symm]
      · simp only [Memory.get?]
        split
        · rfl
        · exact ih

@[simp] theorem byteAt_set_self (m : Memory) (a : Nat) (b : Sample) : (m.set a b).byteAt a = b := by
  simp [Memory.byteAt]

@[simp] theorem byteAt_set_of_ne (m : Memory) {a a' : Nat} (b : Sample) (h : a' ≠ a) :
    (m.set a b).byteAt a' = m.byteAt a' := by
  simp [Memory.byteAt, h]

/-! ### Runs of bytes -/

/-- A run written from `a` leaves every address before it and after it alone. -/
theorem get?_setAll_of_outside (m : Memory) (a : Nat) (l : List Sample) (x : Nat) (h : x < a ∨ a + l.length ≤ x) :
    (m.setAll a l).get? x = m.get? x := by
  induction l generalizing m a with
  | nil => rfl
  | cons b l ih =>
    simp only [List.length_cons] at h
    have hx : x ≠ a := by omega
    rw [Memory.setAll, ih _ _ (by omega), get?_set_of_ne _ _ hx]

theorem byteAt_setAll_of_outside (m : Memory) (a : Nat) (l : List Sample) (x : Nat) (h : x < a ∨ a + l.length ≤ x) :
    (m.setAll a l).byteAt x = m.byteAt x := by
  simp [Memory.byteAt, get?_setAll_of_outside m a l x h]

/-- Byte `k` of a run written from `a` stands at `a + k`. -/
theorem byteAt_setAll_inside (m : Memory) (a : Nat) (l : List Sample) (k : Nat) (h : k < l.length) :
    (m.setAll a l).byteAt (a + k) = l[k] := by
  induction l generalizing m a k with
  | nil => simp at h
  | cons b l ih =>
    cases k with
    | zero =>
      rw [Memory.setAll, byteAt_setAll_of_outside _ _ _ _ (by omega)]
      simp
    | succ k =>
      have := ih (m.set a b) (a + 1) k (by simpa using h)
      rw [Memory.setAll, show a + (k + 1) = a + 1 + k by omega, this]
      simp

@[simp] theorem length_freeBytes (n len : Nat) : (freeBytes n len).length = len := by simp [freeBytes]

@[simp] theorem length_addrRange (a n : Nat) : (addrRange a n).length = n := by simp [addrRange]

@[simp] theorem length_read (m : Memory) (a n : Nat) : (m.read a n).length = n := by simp [Memory.read]

theorem mem_addrRange (base len a : Nat) : a ∈ addrRange base len ↔ base ≤ a ∧ a < base + len := by
  simp only [addrRange, List.mem_map, List.mem_range]
  constructor
  · rintro ⟨k, hk, rfl⟩
    omega
  · intro h
    exact ⟨a - base, by omega, by omega⟩

theorem inRange_iff (base len a : Nat) : inRange base len a = true ↔ base ≤ a ∧ a < base + len := by
  simp [inRange]

theorem inRange_eq_false_iff (base len a : Nat) : inRange base len a = false ↔ a < base ∨ base + len ≤ a := by
  rw [← Bool.not_eq_true, inRange_iff]
  omega

theorem nodup_addrRange (base len : Nat) : (addrRange base len).Nodup :=
  List.Nodup.map (fun _ _ h => Nat.add_left_cancel h) List.nodup_range

/-- Two memories that agree on a range are read alike there. -/
theorem read_congr (m m' : Memory) (a n : Nat) (h : ∀ x, inRange a n x = true → m.byteAt x = m'.byteAt x) :
    m.read a n = m'.read a n := by
  simp only [Memory.read]
  refine List.map_congr_left fun x hx => h x ?_
  rw [inRange_iff]
  exact (mem_addrRange a n x).mp hx

/-! ### The canonical form -/

/-- Every address of a canonical memory lies above a bound. -/
def Memory.above (m : Memory) (k : Nat) : Prop := ∀ c ∈ m, k < c.1

theorem wf_cons_iff (c : Host.Cell) (m : Memory) :
    Memory.wf (c :: m) = true ↔ Memory.above m c.1 ∧ Memory.wf m = true := by
  induction m generalizing c with
  | nil => simp [Memory.wf, Memory.above]
  | cons d m ih =>
    simp only [Memory.wf, Bool.and_eq_true, decide_eq_true_eq]
    constructor
    · rintro ⟨h, hw⟩
      refine ⟨?_, hw⟩
      intro x hx
      rcases List.mem_cons.mp hx with rfl | hx
      · exact h
      · exact Nat.lt_trans h (((ih d).mp hw).1 x hx)
    · rintro ⟨h, hw⟩
      exact ⟨h d (by simp), hw⟩

/-- Where the entries of a memory come from after a write. -/
theorem mem_set (m : Memory) (a : Nat) (b : Sample) (c : Host.Cell) (h : c ∈ m.set a b) : c = (a, b) ∨ c ∈ m := by
  induction m with
  | nil => simpa [Memory.set] using h
  | cons d m ih =>
    obtain ⟨k, e⟩ := d
    simp only [Memory.set] at h
    split at h
    · simpa using h
    · split at h
      · rcases List.mem_cons.mp h with h | h
        · exact .inl h
        · exact .inr (List.mem_cons_of_mem _ h)
      · rcases List.mem_cons.mp h with h | h
        · exact .inr (by simp [h])
        · rcases ih h with h | h
          · exact .inl h
          · exact .inr (List.mem_cons_of_mem _ h)

theorem set_wf (m : Memory) (a : Nat) (b : Sample) (h : m.wf = true) : (m.set a b).wf = true := by
  induction m with
  | nil => rfl
  | cons d m ih =>
    obtain ⟨k, e⟩ := d
    obtain ⟨habove, hm⟩ := (wf_cons_iff _ _).mp h
    simp only [Memory.set]
    split
    · rename_i hlt
      refine (wf_cons_iff _ _).mpr ⟨?_, h⟩
      intro x hx
      rcases List.mem_cons.mp hx with rfl | hx
      · exact hlt
      · exact Nat.lt_trans hlt (habove x hx)
    · split
      · rename_i _ heq
        subst heq
        exact (wf_cons_iff _ _).mpr ⟨habove, hm⟩
      · refine (wf_cons_iff _ _).mpr ⟨?_, ih hm⟩
        intro x hx
        rcases mem_set m a b x hx with rfl | hx
        · show k < a
          omega
        · exact habove x hx

theorem setAll_wf (m : Memory) (a : Nat) (l : List Sample) (h : m.wf = true) : (m.setAll a l).wf = true := by
  induction l generalizing m a with
  | nil => exact h
  | cons b l ih => exact ih _ _ (set_wf m a b h)

theorem mem_setAll (m : Memory) (a : Nat) (l : List Sample) (c : Host.Cell) (h : c ∈ m.setAll a l) :
    (a ≤ c.1 ∧ c.1 < a + l.length) ∨ c ∈ m := by
  induction l generalizing m a with
  | nil => exact .inr h
  | cons b l ih =>
    rcases ih _ _ h with h | h
    · left
      simp only [List.length_cons]
      omega
    · rcases mem_set m a b c h with rfl | h
      · left
        simp
      · exact .inr h

theorem get?_of_above (m : Memory) (k x : Nat) (h : Memory.above m k) (hx : x ≤ k) : m.get? x = none := by
  induction m with
  | nil => rfl
  | cons c m ih =>
    have hc : k < c.1 := h c (by simp)
    have hne : c.1 ≠ x := by omega
    simp only [Memory.get?, if_neg hne]
    exact ih fun d hd => h d (List.mem_cons_of_mem _ hd)

/-- Two canonical memories in which the same bytes have been written are the same data. -/
theorem eq_of_get?_eq (m m' : Memory) (h : m.wf = true) (h' : m'.wf = true) (he : ∀ a, m.get? a = m'.get? a) : m = m' := by
  induction m generalizing m' with
  | nil =>
    cases m' with
    | nil => rfl
    | cons c m' =>
      have := he c.1
      simp [Memory.get?] at this
  | cons c m ih =>
    obtain ⟨k, b⟩ := c
    cases m' with
    | nil =>
      have := he k
      simp [Memory.get?] at this
    | cons d m' =>
      obtain ⟨k', b'⟩ := d
      obtain ⟨ha, hm⟩ := (wf_cons_iff _ _).mp h
      obtain ⟨ha', hm'⟩ := (wf_cons_iff _ _).mp h'
      have hk : k = k' := by
        rcases Nat.lt_trichotomy k k' with hlt | heq | hlt
        · have h1 := he k
          have hne : k' ≠ k := by omega
          simp [Memory.get?, hne, get?_of_above m' k' k ha' (by omega)] at h1
        · exact heq
        · have h1 := he k'
          have hne : k ≠ k' := by omega
          simp [Memory.get?, hne, get?_of_above m k k' ha (by omega)] at h1
      subst hk
      have hb : b = b' := by simpa [Memory.get?] using he k
      subst hb
      rw [ih m' hm hm' fun a => ?_]
      by_cases hak : k = a
      · subst hak
        rw [get?_of_above m k k ha (Nat.le_refl _), get?_of_above m' k k ha' (Nat.le_refl _)]
      · simpa [Memory.get?, hak] using he a

/-- Reset lists nothing, so its memory is canonical. -/
theorem reset_wf (p : Platform) : (State.resetOn p).mem.wf = true := rfl

end Sys2Proof.Machine
end

