-- ==== Sys2Proof/Laws/Operands.lean ====
section
/-! SUPPORT. The buffer layouts read back what they write (R62 to R64, R125), and each command's rule gives one byte for every
byte of its destination range (R66). -/

namespace Sys2Proof.Machine

/-! ### Interleaved buffers (R63) -/

@[simp] theorem length_unchunk3 (l : List Triple) : (unchunk3 l).length = 3 * l.length := by
  induction l with
  | nil => rfl
  | cons t l ih =>
    obtain ⟨x, y, z⟩ := t
    simp only [unchunk3, List.length_cons, ih]
    omega

@[simp] theorem chunk3_unchunk3 (l : List Triple) : chunk3 (unchunk3 l) = l := by
  induction l with
  | nil => rfl
  | cons t l ih =>
    obtain ⟨x, y, z⟩ := t
    simp [unchunk3, chunk3, ih]

theorem unchunk3_chunk3 (n : Nat) (l : List Sample) (h : l.length = 3 * n) : unchunk3 (chunk3 l) = l := by
  induction n generalizing l with
  | zero =>
    have : l = [] := by simpa using h
    simp [this, chunk3, unchunk3]
  | succ n ih =>
    match l, h with
    | x :: y :: z :: l, h =>
      simp only [List.length_cons] at h
      simp [chunk3, unchunk3, ih l (by omega)]
    | [], h => simp at h
    | [_], h => simp at h; omega
    | [_, _], h => simp at h; omega

theorem length_chunk3 (n : Nat) (l : List Sample) (h : l.length = 3 * n) : (chunk3 l).length = n := by
  have h1 := congrArg List.length (unchunk3_chunk3 n l h)
  rw [length_unchunk3] at h1
  omega

/-- Pixel `k` of an interleaved buffer is its bytes `3k`, `3k + 1`, `3k + 2` (R63). -/
theorem getElem?_chunk3 (n : Nat) (l : List Sample) (h : l.length = 3 * n) (k : Nat) (hk : k < n) :
    (chunk3 l)[k]? = some (l.getD (3 * k) 0, l.getD (3 * k + 1) 0, l.getD (3 * k + 2) 0) := by
  induction n generalizing l k with
  | zero => omega
  | succ n ih =>
    match l, h with
    | x :: y :: z :: l, h =>
      simp only [List.length_cons] at h
      cases k with
      | zero => simp [chunk3]
      | succ k =>
        have := ih l (by omega) k (by omega)
        simp only [chunk3, List.getElem?_cons_succ, this]
        rw [show 3 * (k + 1) = 3 * k + 1 + 1 + 1 by ring, show 3 * k + 1 + 1 + 1 + 1 = 3 * k + 1 + 1 + 1 + 1 from rfl]
        simp only [List.getD_cons_succ]
    | [], h => simp at h
    | [_], h => simp at h; omega
    | [_, _], h => simp at h; omega

/-! ### Three planes (R64) -/

theorem length_zip3 (xs ys zs : List Sample) (n : Nat) (hx : xs.length = n) (hy : ys.length = n) (hz : zs.length = n) :
    (zip3 xs ys zs).length = n := by
  induction n generalizing xs ys zs with
  | zero =>
    have : xs = [] := by simpa using hx
    simp [this, zip3]
  | succ n ih =>
    match xs, ys, zs, hx, hy, hz with
    | x :: xs, y :: ys, z :: zs, hx, hy, hz =>
      simp only [List.length_cons] at hx hy hz
      simp [zip3, ih xs ys zs (by omega) (by omega) (by omega)]

theorem zip3_map (l : List Triple) : zip3 (l.map (·.1)) (l.map (·.2.1)) (l.map (·.2.2)) = l := by
  induction l with
  | nil => rfl
  | cons t l ih => simp [zip3, ih]

@[simp] theorem length_toPlanes (l : List Triple) : (toPlanes l).length = 3 * l.length := by
  simp [toPlanes]
  omega

theorem length_fromPlanes (N : Nat) (l : List Sample) (h : l.length = 3 * N) : (fromPlanes N l).length = N := by
  refine length_zip3 _ _ _ N ?_ ?_ ?_ <;> simp [h] <;> omega

/-- Three planes read back as the pixels they were written from (R64). -/
theorem fromPlanes_toPlanes (N : Nat) (l : List Triple) (h : l.length = N) : fromPlanes N (toPlanes l) = l := by
  have h1 : (toPlanes l).take N = l.map (·.1) := by simp [toPlanes, ← h]
  have h2 : ((toPlanes l).drop N).take N = l.map (·.2.1) := by simp [toPlanes, ← h]
  have h3 : ((toPlanes l).drop (2 * N)).take N = l.map (·.2.2) := by
    have : 2 * N = (l.map (·.1)).length + (l.map (·.2.1)).length := by simp; omega
    simp only [toPlanes, ← List.append_assoc]
    rw [List.drop_left' (by simp; omega), List.take_of_length_le (by simp; omega)]
  rw [fromPlanes, h1, h2, h3, zip3_map]

/-! ### Channel order (R125) -/

@[simp] theorem reorder_reorder (b : Bool) (t : Triple) : reorder b (reorder b t) = t := by
  cases b <;> rfl

@[simp] theorem reorder_false (t : Triple) : reorder false t = t := rfl

@[simp] theorem reorder_true (x y z : Sample) : reorder true (x, y, z) = (z, y, x) := rfl

theorem readImg_writeImg (p : Params) (l : List Triple) : readImg p (writeImg p l) = l := by
  simp [readImg, writeImg, Function.comp_def]

theorem length_readImg (p : Params) (n : Nat) (l : List Sample) (h : l.length = 3 * n) : (readImg p l).length = n := by
  simp [readImg, length_chunk3 n l h]

@[simp] theorem length_writeImg (p : Params) (l : List Triple) : (writeImg p l).length = 3 * l.length := by
  simp [writeImg]

/-! ### Lengths of what the commands write (R66, R91) -/

@[simp] theorem length_gammaLut (g : ℚ) : (gammaLut g).length = 256 := by simp [gammaLut]

/-- A flat list of rows. -/
theorem length_flatMap_range {α : Type} (m n : Nat) (f : Nat → List α) (h : ∀ i, (f i).length = n) :
    ((List.range m).flatMap f).length = m * n := by
  induction m with
  | zero => simp
  | succ m ih => rw [List.range_succ, List.flatMap_append, List.length_append, ih]; simp [h, Nat.succ_mul]

@[simp] theorem length_claheBlend (p : Params) (maps : List (List Sample)) (L : List Sample) :
    (claheBlend p maps L).length = p.N := by
  rw [claheBlend, length_flatMap_range _ p.W _ (by simp)]
  rfl

theorem length_withLightness (l : List Sample) (lab : List Triple) (n : Nat) (h : l.length = n) (h2 : lab.length = n) :
    (withLightness l lab).length = n := by
  simp [withLightness, h, h2]

/-- Every command's rule gives `dstNeed` bytes when it is given `srcNeed` (R66, R91). -/
theorem length_work_out (i : Instr) (p : Params) (src : List Sample) (h : src.length = (shapeOf i).src.bytes p.N) :
    (workOf i p src).out.length = (shapeOf i).dst.bytes p.N := by
  cases i
  case rgb2lab => simp [workOf, rgb2labWork, shapeOf, rgb2labShape, Extent.bytes, length_readImg p p.N src h]
  case lab2rgb => simp [workOf, lab2rgbWork, shapeOf, lab2rgbShape, Extent.bytes, length_fromPlanes p.N src h]
  case rgb2hsv => simp [workOf, rgb2hsvWork, shapeOf, rgb2hsvShape, Extent.bytes, length_readImg p p.N src h]
  case hsv2rgb => simp [workOf, hsv2rgbWork, shapeOf, hsv2rgbShape, Extent.bytes, length_fromPlanes p.N src h]
  case clahe => simp [workOf, claheWork, shapeOf, claheShape, Extent.bytes]
  case gammalut => simp [workOf, gammalutWork, shapeOf, gammalutShape, Extent.bytes]
  case gamma => simpa [workOf, gammaWork, shapeOf, gammaShape, Extent.bytes] using h
  case bright => simpa [workOf, brightWork, shapeOf, brightShape, Extent.bytes] using h
  case satboost => simp [workOf, satboostWork, shapeOf, satboostShape, Extent.bytes, length_readImg p p.N src h]
  case enhance =>
    have h1 : (readImg p src).length = p.N := length_readImg p p.N src h
    simp [workOf, enhanceWork, shapeOf, enhanceShape, Extent.bytes, withLightness, h1]

end Sys2Proof.Machine
end

