-- ==== Sys2Proof/Laws/Ops.lean ====
section
/-! SUPPORT. What the shared operations can do, each said once: validation, acceptance of a command, the engine's steps, and
whole runs of the engine. -/

namespace Sys2Proof.Machine

/-! ### Validation (R205) -/

theorem firstOf_eq_none_iff (x y : Option Report) : firstOf x y = none ↔ x = none ∧ y = none := by
  cases x <;> simp [firstOf]

theorem firstOf_eq_some_iff (x y : Option Report) (r : Report) :
    firstOf x y = some r ↔ x = some r ∨ (x = none ∧ y = some r) := by
  cases x <;> simp [firstOf]

/-- A command is valid exactly when every check passes. -/
theorem validate_eq_none_iff (p : Platform) (sh : Shape) (snap : Params) :
    validate p sh snap = none ↔
      checkParams snap sh.params = none ∧ checkOrder sh snap = none ∧ checkImage sh snap = none ∧
        checkRanges p sh snap = none ∧ checkTiles p sh snap = none := by
  simp [validate, firstOf_eq_none_iff]

/-- Every listed register is legal. -/
theorem checkParams_eq_none_iff (snap : Params) (rs : List Reg) :
    checkParams snap rs = none ↔ ∀ r ∈ rs, illegalParam r (snap.get r) = false := by
  induction rs with
  | nil => simp [checkParams]
  | cons r rs ih =>
    simp only [checkParams, List.mem_cons, forall_eq_or_imp]
    split <;> simp_all

/-- The report names the first illegal register, and the value it had. -/
theorem checkParams_eq_some (snap : Params) (rs : List Reg) (rep : Report) (h : checkParams snap rs = some rep) :
    ∃ before r after, rs = before ++ r :: after ∧ (∀ x ∈ before, illegalParam x (snap.get x) = false) ∧
      illegalParam r (snap.get r) = true ∧ rep = { code := .invalidParameter, field := r, value := snap.get r } := by
  induction rs with
  | nil => simp [checkParams] at h
  | cons r rs ih =>
    simp only [checkParams] at h
    split at h
    · rename_i hr
      exact ⟨[], r, rs, rfl, by simp, hr, by simpa using h.symm⟩
    · rename_i hr
      obtain ⟨b, x, a, h1, h2, h3, h4⟩ := ih h
      refine ⟨r :: b, x, a, by simp [h1], ?_, h3, h4⟩
      intro y hy
      rcases List.mem_cons.mp hy with rfl | hy
      · simpa using hr
      · exact h2 y hy

theorem checkOrder_eq_none_iff (sh : Shape) (snap : Params) :
    checkOrder sh snap = none ↔ (sh.usesImg = true → u32 snap.channelOrder = 0 ∨ u32 snap.channelOrder = 1) := by
  simp only [checkOrder]
  split
  · rename_i h
    simp only [Bool.and_eq_true, Bool.not_eq_true', Bool.or_eq_false_iff, beq_eq_false_iff_ne] at h
    simp only [reduceCtorEq, false_iff, Classical.not_imp, not_or]
    exact h
  · rename_i h
    simp only [Bool.and_eq_true, Bool.not_eq_true', Bool.or_eq_false_iff, beq_eq_false_iff_ne, not_and] at h
    simp only [true_iff]
    intro hu
    have := h hu
    tauto

theorem checkImage_eq_none_iff (sh : Shape) (snap : Params) :
    checkImage sh snap = none ↔
      (sh.usesImg = true → u32 snap.channels = 3) ∧ (sh.hasSrc = true → snap.sL = sh.src.bytes snap.N) ∧
        snap.dL = sh.dst.bytes snap.N := by
  simp only [checkImage]
  split_ifs <;> simp_all

theorem checkRanges_eq_none_iff (p : Platform) (sh : Shape) (snap : Params) :
    checkRanges p sh snap = none ↔
      (sh.hasSrc = true → 0 < snap.sL → snap.sA + snap.sL ≤ p.memSize) ∧
      (0 < snap.dL → snap.dA + snap.dL ≤ p.memSize) ∧
      (sh.hasSrc = true → 0 < snap.sL → 0 < snap.dL →
        snap.sA + snap.sL ≤ snap.dA ∨ snap.dA + snap.dL ≤ snap.sA) := by
  simp only [checkRanges]
  cases sh.hasSrc <;> simp only [Bool.false_and, Bool.true_and, Bool.and_eq_true, decide_eq_true_eq, Bool.false_eq_true,
    ↓reduceIte, false_implies, true_implies, true_and, and_true] <;> split_ifs <;> simp <;> omega

theorem checkTiles_eq_none_iff (p : Platform) (sh : Shape) (snap : Params) :
    checkTiles p sh snap = none ↔
      ∀ limit, p.maxTiles = some limit → sh.tiled = true → 0 < snap.N → tilesY snap * tilesX snap ≤ limit := by
  simp only [checkTiles]
  cases hm : p.maxTiles with
  | none => simp
  | some limit =>
    cases sh.tiled <;> simp

/-! ### Acceptance (R40) -/

/-- Every command is a submission of its word with its row of the opcode map and its rule. -/
theorem exec_eq_submit (i : Instr) (s : State) : exec i s = .next (submit (encode i) (shapeOf i) (workOf i) s) := by
  cases i <;> rfl

/-- All that a host write of a command word can do. -/
theorem submit_cases (w : Word) (sh : Shape) (work : Params → List Sample → Work) (s : State) :
    (s.eng.isBusy = true ∧ submit w sh work s = overrun s) ∨
    (∃ r, s.eng = .idle ∧ validate s.plat sh s.regs.params = some r ∧
      submit w sh work s = raiseError (beginAccept w s) r) ∨
    (s.eng = .idle ∧ validate s.plat sh s.regs.params = none ∧ sh.emptyWork s.regs.params = true ∧
      submit w sh work s = (beginAccept w s).setStatus (beginAccept w s).regs.status.complete) ∨
    (s.eng = .idle ∧ validate s.plat sh s.regs.params = none ∧ sh.emptyWork s.regs.params = false ∧
      submit w sh work s =
        ((beginAccept w s).setStatus (beginAccept w s).regs.status.start).setEng (.busy (newJob w sh work s))) := by
  simp only [submit]
  split
  · rename_i h
    exact .inl ⟨h, rfl⟩
  · rename_i h
    have hi : s.eng = .idle := (isBusy_eq_false_iff _).mp (by simpa using h)
    split
    · rename_i r hr
      exact .inr (.inl ⟨r, hi, hr, rfl⟩)
    · rename_i hv
      split
      · rename_i he
        exact .inr (.inr (.inl ⟨hi, hv, he, rfl⟩))
      · rename_i he
        exact .inr (.inr (.inr ⟨hi, hv, by simpa using he, rfl⟩))

theorem submit_of_busy (w : Word) (sh : Shape) (work : Params → List Sample → Work) (s : State)
    (h : s.eng.isBusy = true) : submit w sh work s = overrun s := by simp [submit, h]

theorem submit_of_error (w : Word) (sh : Shape) (work : Params → List Sample → Work) (s : State) (r : Report)
    (h : s.eng = .idle) (hv : validate s.plat sh s.regs.params = some r) :
    submit w sh work s = raiseError (beginAccept w s) r := by simp [submit, h, hv]

theorem submit_of_empty (w : Word) (sh : Shape) (work : Params → List Sample → Work) (s : State)
    (h : s.eng = .idle) (hv : validate s.plat sh s.regs.params = none) (he : sh.emptyWork s.regs.params = true) :
    submit w sh work s = (beginAccept w s).setStatus (beginAccept w s).regs.status.complete := by
  simp [submit, h, hv, he]

theorem submit_of_start (w : Word) (sh : Shape) (work : Params → List Sample → Work) (s : State)
    (h : s.eng = .idle) (hv : validate s.plat sh s.regs.params = none) (he : sh.emptyWork s.regs.params = false) :
    submit w sh work s =
      ((beginAccept w s).setStatus (beginAccept w s).regs.status.start).setEng (.busy (newJob w sh work s)) := by
  simp [submit, h, hv, he]

/-! ### The engine's steps (R42, R66, R209) -/

/-- All that a read by the engine can do. -/
theorem engineRead_cases (s : State) (j : Job) (a : Nat) :
    (j.inSrc a = false ∧ engineRead s j a = .next s) ∨
    (j.inSrc a = true ∧ s.plat.isDevice a = true ∧ engineRead s j a = .refused (.deviceByte a)) ∨
    (j.inSrc a = true ∧ s.plat.isDevice a = false ∧ s.plat.busFault a = true ∧
      engineRead s j a = .next (busFaultAt s j .srcAddr a)) ∨
    (j.inSrc a = true ∧ s.plat.isDevice a = false ∧ s.plat.busFault a = false ∧
      engineRead s j a = .next (s.setEng (.busy { j with unread := j.unread.erase a }))) := by
  simp only [engineRead]
  split_ifs <;> simp_all

/-- All that a write by the engine can do. -/
theorem engineWrite_cases (s : State) (j : Job) (a : Nat) :
    (j.inDst a = false ∧ engineWrite s j a = .next s) ∨
    (j.inDst a = true ∧ s.plat.isDevice a = true ∧ engineWrite s j a = .refused (.deviceByte a)) ∨
    (j.inDst a = true ∧ s.plat.isDevice a = false ∧ s.plat.busFault a = true ∧
      engineWrite s j a = .next (busFaultAt s j .dstAddr a)) ∨
    (j.inDst a = true ∧ s.plat.isDevice a = false ∧ s.plat.busFault a = false ∧
      engineWrite s j a =
        .next ((s.setMem (s.mem.set a (j.valueAt a))).setEng (.busy { j with pend := j.pend.erase a }))) := by
  simp only [engineWrite]
  split_ifs <;> simp_all

/-- All that the completion step can do. -/
theorem engineFinish_cases (s : State) (j : Job) :
    (j.pend ≠ [] ∧ engineFinish s j = s) ∨
    (j.pend = [] ∧ j.disturbed = false ∧
      engineFinish s j = endJob (s.setStatus s.regs.status.complete) j) ∨
    (j.pend = [] ∧ j.disturbed = true ∧
      engineFinish s j = endJob ((scramble s j).setStatus s.regs.status.complete) j) := by
  simp only [engineFinish]
  split
  · rename_i h
    cases hd : j.disturbed <;> simp [h]
  · rename_i h
    exact .inl ⟨h, rfl⟩

/-- All that the engine does when it is left alone. -/
theorem engineTurn_cases (s : State) :
    (s.eng = .idle ∧ engineTurn s = .next s) ∨
    (∃ j a l, s.eng = .busy j ∧ j.unread = a :: l ∧ engineTurn s = engineRead s j a) ∨
    (∃ j a l, s.eng = .busy j ∧ j.unread = [] ∧ j.pend = a :: l ∧ engineTurn s = engineWrite s j a) ∨
    (∃ j, s.eng = .busy j ∧ j.unread = [] ∧ j.pend = [] ∧ engineTurn s = .next (engineFinish s j)) := by
  simp only [engineTurn]
  cases he : s.eng with
  | idle => exact .inl ⟨rfl, rfl⟩
  | busy j =>
    cases hu : j.unread with
    | cons a l => exact .inr (.inl ⟨j, a, l, rfl, hu, by simp [hu]⟩)
    | nil =>
      cases hp : j.pend with
      | cons a l => exact .inr (.inr (.inl ⟨j, a, l, rfl, hu, hp, by simp [hu, hp]⟩))
      | nil => exact .inr (.inr (.inr ⟨j, rfl, hu, hp, by simp [hu, hp]⟩))

/-! ### Runs of the machine -/

@[simp] theorem core_step_eq (s : State) : core.step s = step s := rfl

theorem run_zero (s : State) : Host.Core.run core 0 s = .next s := rfl

theorem run_succ_of_next (n : Nat) (s t : State) (h : step s = .next t) :
    Host.Core.run core (n + 1) s = Host.Core.run core n t := by
  simp only [Host.Core.run, core_step_eq, h]

/-- A run cut in two. -/
theorem run_add_of_next (m n : Nat) (s t : State) (h : Host.Core.run core m s = .next t) :
    Host.Core.run core (m + n) s = Host.Core.run core n t := by
  induction m generalizing s with
  | zero =>
    cases h
    rw [Nat.zero_add]
  | succ m ih =>
    rw [Nat.succ_add]
    simp only [Host.Core.run, core_step_eq] at h
    cases hs : step s with
    | next s' =>
      rw [hs] at h
      rw [run_succ_of_next _ _ _ hs]
      exact ih s' h
    | fault r => simp [hs] at h
    | refused r => simp [hs] at h

/-- With nothing to come the machine's step is the engine's. -/
theorem step_of_agenda_nil (s : State) (h : s.agenda = []) : step s = engineTurn s := by
  simp [step, fetchCommand, worldStep, h]

/-- The engine reads the source bytes it has not read, one a step, when none of them is a device or faults. -/
theorem run_reads (s : State) (j : Job) (l : List Nat) (ha : s.agenda = []) (he : s.eng = .busy j) (hl : j.unread = l)
    (hok : ∀ a ∈ l, j.inSrc a = true ∧ s.plat.isDevice a = false ∧ s.plat.busFault a = false) :
    Host.Core.run core l.length s = .next (s.setEng (.busy { j with unread := [] })) := by
  induction l generalizing s j with
  | nil =>
    have : s.setEng (.busy { j with unread := [] }) = s := by
      cases s
      cases j
      simp_all [State.setEng]
    rw [this]
    rfl
  | cons a l ih =>
    obtain ⟨h1, h2, h3⟩ := hok a (by simp)
    have hstep : step s = .next (s.setEng (.busy { j with unread := l })) := by
      rw [step_of_agenda_nil s ha]
      simp [engineTurn, he, hl, engineRead, h1, h2, h3]
    rw [List.length_cons, run_succ_of_next _ _ _ hstep,
      ih (s.setEng (.busy { j with unread := l })) { j with unread := l } ha rfl rfl
        (fun x hx => hok x (List.mem_cons_of_mem _ hx))]
    rfl

/-- The bytes of a list of addresses written with the job's values. -/
def writeList (j : Job) (m : Memory) (l : List Nat) : Memory := l.foldl (fun m a => m.set a (j.valueAt a)) m

theorem byteAt_writeList (j : Job) (l : List Nat) (m : Memory) (a : Nat) :
    (writeList j m l).byteAt a = if a ∈ l then j.valueAt a else m.byteAt a := by
  induction l generalizing m with
  | nil => simp [writeList]
  | cons b l ih =>
    have := ih (m.set b (j.valueAt b))
    simp only [writeList, List.foldl_cons] at this ⊢
    rw [this]
    by_cases hab : a = b
    · subst hab
      simp
    · simp [hab]

/-- The engine, having read everything, writes what it has not written, one byte a step. -/
theorem run_writes (s : State) (j : Job) (l : List Nat) (ha : s.agenda = []) (he : s.eng = .busy j)
    (hu : j.unread = []) (hl : j.pend = l)
    (hok : ∀ a ∈ l, j.inDst a = true ∧ s.plat.isDevice a = false ∧ s.plat.busFault a = false) :
    Host.Core.run core l.length s =
      .next ((s.setMem (writeList j s.mem l)).setEng (.busy { j with pend := [] })) := by
  induction l generalizing s j with
  | nil =>
    have : (s.setMem (writeList j s.mem [])).setEng (.busy { j with pend := [] }) = s := by
      cases s
      cases j
      simp_all [State.setEng, State.setMem, writeList]
    rw [this]
    rfl
  | cons a l ih =>
    obtain ⟨h1, h2, h3⟩ := hok a (by simp)
    have hstep : step s =
        .next ((s.setMem (s.mem.set a (j.valueAt a))).setEng (.busy { j with pend := l })) := by
      rw [step_of_agenda_nil s ha]
      simp [engineTurn, he, hl, hu, engineWrite, h1, h2, h3]
    rw [List.length_cons, run_succ_of_next _ _ _ hstep,
      ih ((s.setMem (s.mem.set a (j.valueAt a))).setEng (.busy { j with pend := l })) { j with pend := l } ha rfl hu rfl
        (fun x hx => hok x (List.mem_cons_of_mem _ hx))]
    rfl

end Sys2Proof.Machine
end

