-- ==== Sys2Proof/Laws/Step.lean ====
section
/-! SUPPORT. What a step can do, said once: how the events of the agenda are taken, and what each kind of access of the register
space does. -/

namespace Sys2Proof.Machine

/-! ### Register accesses (R39) -/

/-- An aligned 32-bit access of the block. -/
theorem accessOf_word (p : Platform) (off : Nat) (h : off < 4096) (h4 : off % 4 = 0) :
    accessOf p (p.regBase + off) 4 = .word off := by
  simp only [accessOf, Nat.add_sub_cancel_left]
  rw [if_neg (by omega), if_pos ⟨Nat.le_add_right _ _, trivial, h4⟩]

/-- The offset of every register is one of the block's words. -/
theorem offset_lt (r : Reg) : r.offset < 4096 ∧ r.offset % 4 = 0 := by cases r <;> decide

/-- A register stands at its own offset. -/
@[simp] theorem at?_offset (r : Reg) : Reg.at? r.offset = some r := by cases r <;> rfl

/-- The reserved offsets hold no register (R38). -/
theorem at?_reserved (off : Nat) (h : 0x058 ≤ off) : Reg.at? off = none := by
  simp only [Reg.at?, List.find?_eq_none]
  intro r _
  have : r.offset ≤ 0x054 := by cases r <;> decide
  simp only [beq_iff_eq]
  omega

@[simp] theorem accessOf_reg (p : Platform) (r : Reg) : accessOf p (p.regBase + r.offset) 4 = .word r.offset :=
  accessOf_word p r.offset (offset_lt r).1 (offset_lt r).2

/-- A write of a register by the host. -/
@[simp] theorem hostWrite_reg (s : State) (r : Reg) (w : Word) :
    hostWrite s (s.plat.regBase + r.offset) 4 w = .next (writeReg (accessOk s) r w) := by
  simp [hostWrite]

/-- A read of a register by the host. -/
@[simp] theorem hostRead_reg (s : State) (r : Reg) :
    hostRead s (s.plat.regBase + r.offset) 4 =
      .next (s.setHost { s.host with rdData := s.regs.read r, busErr := false }) := by
  simp [hostRead, readOffset]

/-- All that a host write that is no command request can do. -/
theorem hostWrite_cases (s : State) (addr size : Nat) (w : Word) :
    (hostWrite s addr size w = .fault (.noSuchRegister addr)) ∨
    (hostWrite s addr size w = .next (undefinedAccess s false)) ∨
    (∃ r, hostWrite s addr size w = .next (writeReg (accessOk s) r w)) ∨
    (hostWrite s addr size w = .next (accessOk s)) := by
  simp only [hostWrite]
  split
  · exact .inl rfl
  · exact .inr (.inl rfl)
  · split
    · exact .inr (.inr (.inl ⟨_, rfl⟩))
    · exact .inr (.inr (.inr rfl))

/-- All that a host read can do. -/
theorem hostRead_cases (s : State) (addr size : Nat) :
    (hostRead s addr size = .fault (.noSuchRegister addr)) ∨
    (hostRead s addr size = .next (undefinedAccess s true)) ∨
    (∃ w, hostRead s addr size = .next (s.setHost { s.host with rdData := w, busErr := false })) := by
  simp only [hostRead]
  split
  · exact .inl rfl
  · exact .inr (.inl rfl)
  · exact .inr (.inr ⟨_, rfl⟩)

/-- All that a write to a register other than `CMD` can do. -/
theorem writeReg_cases (s : State) (r : Reg) (w : Word) :
    writeReg s r w = s ∨
    writeReg s r w = resetBlock s ∨
    writeReg s r w = s.setRegs { s.regs with irqEn := w.getLsbD 0 } ∨
    writeReg s r w = acknowledge s w ∨
    writeReg s r w = s.setRegs { s.regs with params := s.regs.params.set r w } := by
  cases r
  case ctrl =>
    simp only [writeReg, writeCtrl]
    split
    · exact .inr (.inl rfl)
    · exact .inr (.inr (.inl rfl))
  case status => exact .inr (.inr (.inr (.inl rfl)))
  all_goals first | exact .inl rfl | exact .inr (.inr (.inr (.inr rfl)))

/-! ### How a step takes its event (R213) -/

/-- A command request is a defined write to `CMD` at the head of the agenda. -/
theorem fetchCommand_eq_some_iff (s : State) (w : Word) (t : State) :
    fetchCommand s = some (w, t) ↔
      ∃ addr size rest, s.agenda = .regWrite addr size w :: rest ∧
        accessOf s.plat addr size = .word Reg.cmd.offset ∧ t = accessOk (s.setAgenda rest) := by
  simp only [fetchCommand]
  split
  · rename_i addr size w' rest ha
    rw [ha]
    split
    · rename_i h
      simp only [Option.some.injEq, Prod.mk.injEq, List.cons.injEq, Event.regWrite.injEq]
      constructor
      · rintro ⟨rfl, rfl⟩
        exact ⟨addr, size, rest, ⟨⟨rfl, rfl, rfl⟩, rfl⟩, h, rfl⟩
      · rintro ⟨a, b, c, ⟨⟨rfl, rfl, rfl⟩, rfl⟩, _, rfl⟩
        exact ⟨rfl, rfl⟩
    · rename_i h
      simp only [reduceCtorEq, List.cons.injEq, Event.regWrite.injEq, false_iff, not_exists]
      rintro a b c ⟨⟨⟨rfl, rfl, rfl⟩, rfl⟩, h2, _⟩
      exact h h2
  · rename_i h
    simp only [reduceCtorEq, false_iff, not_exists]
    rintro a b c ⟨h1, -, -⟩
    exact h a b w c h1

/-- A write of a word to `CMD`, next on the agenda, is the command request. -/
theorem fetchCommand_of_write (s : State) (w : Word) (rest : List Event)
    (h : s.agenda = .regWrite (s.plat.regBase + 0x010) 4 w :: rest) :
    fetchCommand s = some (w, accessOk (s.setAgenda rest)) :=
  (fetchCommand_eq_some_iff _ _ _).mpr ⟨_, _, _, h, accessOf_reg s.plat .cmd, rfl⟩

/-- All that a step can be: a command run, an illegal word reported, an event of the world, or the engine alone. -/
theorem step_cases (s : State) :
    (∃ w t i, fetchCommand s = some (w, t) ∧ decode w = .ok i ∧ step s = exec i t) ∨
    (∃ w t e, fetchCommand s = some (w, t) ∧ decode w = .error e ∧ step s = .next (submitIllegal w t)) ∨
    (∃ ev rest, fetchCommand s = none ∧ s.agenda = ev :: rest ∧ step s = handle ev (s.setAgenda rest)) ∨
    (s.agenda = [] ∧ step s = engineTurn s) := by
  simp only [step]
  cases hf : fetchCommand s with
  | some x =>
    obtain ⟨w, t⟩ := x
    cases hd : decode w with
    | ok i => exact .inl ⟨w, t, i, rfl, hd, by simp [hd]⟩
    | error e => exact .inr (.inl ⟨w, t, e, rfl, hd, by simp [hd]⟩)
  | none =>
    cases ha : s.agenda with
    | nil => exact .inr (.inr (.inr ⟨rfl, by simp [worldStep, ha]⟩))
    | cons ev rest => exact .inr (.inr (.inl ⟨ev, rest, rfl, rfl, by simp [worldStep, ha]⟩))

/-- All that a host write of an illegal word can do (R92). -/
theorem submitIllegal_cases (w : Word) (s : State) :
    (s.eng.isBusy = true ∧ submitIllegal w s = overrun s) ∨
    (s.eng = .idle ∧
      submitIllegal w s = raiseError (beginAccept w s) { code := .illegalCommand, field := .cmd, value := w }) := by
  simp only [submitIllegal]
  split
  · rename_i h
    exact .inl ⟨h, rfl⟩
  · rename_i h
    exact .inr ⟨(isBusy_eq_false_iff _).mp (by simpa using h), rfl⟩

/-! ### Frames of the helpers -/

@[simp] theorem accessOk_plat (s : State) : (accessOk s).plat = s.plat := rfl
@[simp] theorem accessOk_regs (s : State) : (accessOk s).regs = s.regs := rfl
@[simp] theorem accessOk_eng (s : State) : (accessOk s).eng = s.eng := rfl
@[simp] theorem accessOk_mem (s : State) : (accessOk s).mem = s.mem := rfl
@[simp] theorem accessOk_agenda (s : State) : (accessOk s).agenda = s.agenda := rfl
@[simp] theorem accessOk_fresh (s : State) : (accessOk s).fresh = s.fresh := rfl
@[simp] theorem accessOk_host (s : State) : (accessOk s).host = { s.host with busErr := false } := rfl

@[simp] theorem undefinedAccess_plat (s : State) (b : Bool) : (undefinedAccess s b).plat = s.plat := rfl
@[simp] theorem undefinedAccess_regs (s : State) (b : Bool) : (undefinedAccess s b).regs = s.regs := rfl
@[simp] theorem undefinedAccess_eng (s : State) (b : Bool) : (undefinedAccess s b).eng = s.eng := rfl
@[simp] theorem undefinedAccess_mem (s : State) (b : Bool) : (undefinedAccess s b).mem = s.mem := rfl
@[simp] theorem undefinedAccess_agenda (s : State) (b : Bool) : (undefinedAccess s b).agenda = s.agenda := rfl

/-- Scrambling a list of bytes changes memory and the count of free values, and nothing else. -/
theorem scrambleList_frame (s : State) (l : List Nat) :
    (scrambleList s l).plat = s.plat ∧ (scrambleList s l).regs = s.regs ∧ (scrambleList s l).eng = s.eng ∧
      (scrambleList s l).host = s.host ∧ (scrambleList s l).agenda = s.agenda := by
  induction l generalizing s with
  | nil => exact ⟨rfl, rfl, rfl, rfl, rfl⟩
  | cons a l ih => exact ih _

/-- A byte that is not in the list keeps its value. -/
theorem byteAt_scrambleList (s : State) (l : List Nat) (a : Nat) (h : a ∉ l) :
    (scrambleList s l).mem.byteAt a = s.mem.byteAt a := by
  induction l generalizing s with
  | nil => rfl
  | cons b l ih =>
    simp only [List.mem_cons, not_or] at h
    rw [scrambleList, ih _ h.2]
    exact byteAt_set_of_ne _ _ h.1

/-- The addresses listed in memory after scrambling were listed before or are in the list. -/
theorem mem_scrambleList (s : State) (l : List Nat) (c : Host.Cell) (h : c ∈ (scrambleList s l).mem) :
    c.1 ∈ l ∨ c ∈ s.mem := by
  induction l generalizing s with
  | nil => exact .inr h
  | cons b l ih =>
    rcases ih _ h with h | h
    · exact .inl (List.mem_cons_of_mem _ h)
    · rcases mem_set _ _ _ _ h with rfl | h
      · exact .inl (by simp)
      · exact .inr h

theorem scrambleList_wf (s : State) (l : List Nat) (h : s.mem.wf = true) : (scrambleList s l).mem.wf = true := by
  induction l generalizing s with
  | nil => exact h
  | cons b l ih => exact ih _ (set_wf _ _ _ h)

/-! ### The host's caches (R75) -/

/-- What leaving the caches keeps, and which bytes of memory it may change. -/
theorem leaveCaches_frame (s : State) (r : Region) (free : Nat → Bool) :
    (leaveCaches s r free).plat = s.plat ∧ (leaveCaches s r free).regs = s.regs ∧
      (leaveCaches s r free).agenda = s.agenda ∧
      (leaveCaches s r free).host = { s.host with uncleaned := s.host.uncleaned.filter (fun a => !r.has a) } ∧
      (∀ a, ¬(a ∈ s.host.uncleaned ∧ r.has a = true ∧ free a = true) →
        (leaveCaches s r free).mem.byteAt a = s.mem.byteAt a) := by
  obtain ⟨f1, f2, -, -, f5⟩ := scrambleList_frame s ((s.host.uncleaned.filter r.has).filter free)
  refine ⟨f1, f2, f5, rfl, fun a h => byteAt_scrambleList _ _ _ fun hm => h ?_⟩
  obtain ⟨hm, h3⟩ := List.mem_filter.mp hm
  obtain ⟨h1, h2⟩ := List.mem_filter.mp hm
  exact ⟨h1, h2, h3⟩

/-- Leaving the caches ends no command and starts none; it disturbs the running one when a byte that leaves is in its ranges. -/
theorem leaveCaches_eng (s : State) (r : Region) (free : Nat → Bool) :
    ((∀ a ∈ s.host.uncleaned, r.has a = true → s.eng.touches a = false) ∧ (leaveCaches s r free).eng = s.eng) ∨
    (∃ j, s.eng = .busy j ∧ (leaveCaches s r free).eng = .busy { j with disturbed := true }) := by
  cases hl : (s.host.uncleaned.filter r.has).any s.eng.touches with
  | false =>
    refine .inl ⟨fun a ha hr => ?_, by simp only [leaveCaches, hl]; rfl⟩
    simpa using List.any_eq_false.mp hl a (List.mem_filter.mpr ⟨ha, hr⟩)
  | true =>
    cases he : s.eng with
    | idle => simp [he, Engine.touches] at hl
    | busy j =>
      rw [he] at hl
      exact .inr ⟨j, rfl, by simp only [leaveCaches, he, hl]; rfl⟩

/-! ### Reset (R240, R241) -/

/-- All that either reset can do. -/
theorem resetBlock_cases (s : State) :
    (s.eng = .idle ∧ resetBlock s = s.setRegs Regs.reset) ∨
    (∃ j, s.eng = .busy j ∧ resetBlock s = (endJob (scramble s j) j).setRegs Regs.reset) := by
  simp only [resetBlock]
  cases s.eng with
  | idle => exact .inl ⟨rfl, rfl⟩
  | busy j => exact .inr ⟨j, rfl, rfl⟩

end Sys2Proof.Machine
end

