-- ==== Sys2Proof/Laws/Events.lean ====
section
/-! SUPPORT. What one event does as the next step, and what the engine does when it is left alone with a whole job. -/

namespace Sys2Proof.Machine

/-! ### One event -/

/-- A host write to `CMD` runs the command that the word decodes to, or reports the word. -/
theorem stepWith_cmd (s : State) (w : Word) :
    stepWith (.regWrite (s.plat.regBase + 0x010) 4 w) s =
      match decode w with
      | .ok i => exec i (accessOk s)
      | .error _ => .next (submitIllegal w (accessOk s)) := by
  simp only [stepWith, step]
  rw [fetchCommand_of_write (s.setAgenda (.regWrite (s.plat.regBase + 0x010) 4 w :: s.agenda)) w s.agenda rfl]
  rfl

/-- Any other event is what `handle` makes of it. -/
theorem stepWith_other (s : State) (ev : Event)
    (h : ∀ addr size w, ev = .regWrite addr size w → accessOf s.plat addr size ≠ .word 0x010) :
    stepWith ev s = handle ev s := by
  rcases step_cases (s.setAgenda (ev :: s.agenda)) with
    ⟨w, u, i, hf, -, -⟩ | ⟨w, u, e, hf, -, -⟩ | ⟨ev', rest, -, ha, h1⟩ | ⟨ha, -⟩
  · obtain ⟨a, b, rest, h2, h3, -⟩ := (fetchCommand_eq_some_iff _ _ _).mp hf
    cases h2
    exact absurd h3 (h _ _ _ rfl)
  · obtain ⟨a, b, rest, h2, h3, -⟩ := (fetchCommand_eq_some_iff _ _ _).mp hf
    cases h2
    exact absurd h3 (h _ _ _ rfl)
  · cases ha
    exact h1
  · cases ha

/-- A host write to a register other than `CMD`. -/
theorem stepWith_reg (s : State) (r : Reg) (w : Word) (h : r ≠ .cmd) :
    stepWith (.regWrite (s.plat.regBase + r.offset) 4 w) s = .next (writeReg (accessOk s) r w) := by
  rw [stepWith_other]
  · exact hostWrite_reg s r w
  · rintro a b c ⟨⟩
    rw [accessOf_reg]
    intro h2
    apply h
    cases r <;> first | rfl | cases h2

/-! ### The engine's events -/

/-- All that the engine's read of one byte can do, when it answers a next state. -/
theorem engineRead_next (s t : State) (j : Job) (a : Nat) (h : engineRead s j a = .next t) :
    t = s ∨
    (s.plat.busFault a = true ∧ j.inSrc a = true ∧ t = busFaultAt s j .srcAddr a) ∨
    (j.inSrc a = true ∧ t = s.setEng (.busy { j with unread := j.unread.erase a })) := by
  rcases engineRead_cases s j a with ⟨-, h1⟩ | ⟨-, -, h1⟩ | ⟨hi, -, hf, h1⟩ | ⟨hi, -, -, h1⟩ <;> rw [h1] at h <;> cases h
  · exact .inl rfl
  · exact .inr (.inl ⟨hf, hi, rfl⟩)
  · exact .inr (.inr ⟨hi, rfl⟩)

/-- All that the engine's write of one byte can do, when it answers a next state. -/
theorem engineWrite_next (s t : State) (j : Job) (a : Nat) (h : engineWrite s j a = .next t) :
    t = s ∨
    (s.plat.busFault a = true ∧ j.inDst a = true ∧ t = busFaultAt s j .dstAddr a) ∨
    (j.inDst a = true ∧
      t = (s.setMem (s.mem.set a (j.valueAt a))).setEng (.busy { j with pend := j.pend.erase a })) := by
  rcases engineWrite_cases s j a with ⟨-, h1⟩ | ⟨-, -, h1⟩ | ⟨hi, -, hf, h1⟩ | ⟨hi, -, -, h1⟩ <;> rw [h1] at h <;> cases h
  · exact .inl rfl
  · exact .inr (.inl ⟨hf, hi, rfl⟩)
  · exact .inr (.inr ⟨hi, rfl⟩)

/-- What an event of the engine can leave: nothing new, or, from a running job, a bus fault, a read, a write, or the completion
of a job with nothing left to write. -/
def EngineMove (s t : State) : Prop :=
  t = s ∨ ∃ j, s.eng = .busy j ∧
    ((∃ r a, s.plat.busFault a = true ∧ (j.inSrc a || j.inDst a) = true ∧ t = busFaultAt s j r a) ∨
     (∃ a, j.inSrc a = true ∧ t = s.setEng (.busy { j with unread := j.unread.erase a })) ∨
     (∃ a, j.inDst a = true ∧
      t = (s.setMem (s.mem.set a (j.valueAt a))).setEng (.busy { j with pend := j.pend.erase a })) ∨
     (j.pend = [] ∧ j.disturbed = false ∧ t = endJob (s.setStatus s.regs.status.complete) j) ∨
     (j.pend = [] ∧ j.disturbed = true ∧ t = endJob ((scramble s j).setStatus s.regs.status.complete) j))

/-- All that any event of the engine can do, when it answers a next state. -/
theorem engineEvent_cases (s t : State) (ev : Event)
    (hev : ev = .engAuto ∨ ev = .engFinish ∨ (∃ a, ev = .engRead a) ∨ ∃ a, ev = .engWrite a)
    (h : handle ev s = .next t) : EngineMove s t := by
  have hread : ∀ j a, s.eng = .busy j → engineRead s j a = .next t → EngineMove s t := fun j a hj hr => by
    rcases engineRead_next s t j a hr with h1 | ⟨h1, h2, h3⟩ | ⟨h1, h2⟩
    · exact Or.inl h1
    · exact Or.inr ⟨j, hj, .inl ⟨_, a, h1, by simp [h2], h3⟩⟩
    · exact Or.inr ⟨j, hj, .inr (.inl ⟨a, h1, h2⟩)⟩
  have hwrite : ∀ j a, s.eng = .busy j → engineWrite s j a = .next t → EngineMove s t := fun j a hj hr => by
    rcases engineWrite_next s t j a hr with h1 | ⟨h1, h2, h3⟩ | ⟨h1, h2⟩
    · exact Or.inl h1
    · exact Or.inr ⟨j, hj, .inl ⟨_, a, h1, by simp [h2], h3⟩⟩
    · exact Or.inr ⟨j, hj, .inr (.inr (.inl ⟨a, h1, h2⟩))⟩
  have hfinish : ∀ j, s.eng = .busy j → engineFinish s j = t → EngineMove s t := fun j hj hr => by
    rcases engineFinish_cases s j with ⟨-, h1⟩ | ⟨h1, h2, h3⟩ | ⟨h1, h2, h3⟩
    · exact Or.inl (hr.symm.trans h1)
    · exact Or.inr ⟨j, hj, .inr (.inr (.inr (.inl ⟨h1, h2, hr.symm.trans h3⟩)))⟩
    · exact Or.inr ⟨j, hj, .inr (.inr (.inr (.inr ⟨h1, h2, hr.symm.trans h3⟩)))⟩
  rcases hev with rfl | rfl | ⟨a, rfl⟩ | ⟨a, rfl⟩ <;> simp only [handle, withJob] at h
  · rcases engineTurn_cases s with ⟨-, h1⟩ | ⟨j, a, l, hj, -, h1⟩ | ⟨j, a, l, hj, -, -, h1⟩ | ⟨j, hj, -, -, h1⟩ <;>
      rw [h1] at h
    · cases h
      exact .inl rfl
    · exact hread j a hj h
    · exact hwrite j a hj h
    · cases h
      exact hfinish j hj rfl
  all_goals
    split at h
    · cases h
      exact .inl rfl
  · cases h
    exact hfinish _ ‹_› rfl
  · exact hread _ a ‹_› h
  · exact hwrite _ a ‹_› h

/-! ### A whole job -/

/-- An idle engine makes no step of its own. -/
theorem engineTurn_of_idle (s : State) (h : s.eng = .idle) : engineTurn s = .next s := by
  simp only [engineTurn, h]

/-- The engine, left alone with a fresh job that nothing gets in the way of, reads its source, writes its destination and
completes; then byte `k` of the destination is byte `k` of the work, and every other byte is as before. -/
theorem run_job (s : State) (j : Job) (ha : s.agenda = []) (he : s.eng = .busy j)
    (hu : j.unread = addrRange j.snap.sA j.srcSize) (hp : j.pend = addrRange j.snap.dA j.snap.dL)
    (hd : j.disturbed = false) (hl : j.work.out.length = j.snap.dL)
    (hok : ∀ a, (j.inSrc a || j.inDst a) = true → s.plat.isDevice a = false ∧ s.plat.busFault a = false) :
    ∃ u, Host.Core.run core (j.srcSize + j.snap.dL + 1) s = .next u ∧
      u.regs = { s.regs with status := s.regs.status.complete } ∧ u.eng = .idle ∧ u.plat = s.plat ∧ u.agenda = s.agenda ∧
      u.fresh = s.fresh ∧ (s.plat.dmaCoherent = true → u.host = s.host) ∧
      (∀ k (h : k < j.work.out.length), u.mem.byteAt (j.snap.dA + k) = j.work.out[k]) ∧
      (∀ a, inRange j.snap.dA j.snap.dL a = false → u.mem.byteAt a = s.mem.byteAt a) := by
  have h1 := run_reads s j (addrRange j.snap.sA j.srcSize) ha he hu (by
    intro a hm
    have hin : j.inSrc a = true := (inRange_iff _ _ _).mpr ((mem_addrRange _ _ _).mp hm)
    exact ⟨hin, hok a (by simp [hin])⟩)
  have h2 := run_writes (s.setEng (.busy { j with unread := [] })) { j with unread := [] }
    (addrRange j.snap.dA j.snap.dL) ha rfl rfl hp (by
      intro a hm
      have hin : j.inDst a = true := (inRange_iff _ _ _).mpr ((mem_addrRange _ _ _).mp hm)
      exact ⟨hin, hok a (by simp [hin])⟩)
  rw [length_addrRange] at h1 h2
  generalize hj2 : ({ { j with unread := [] } with pend := [] } : Job) = j2 at h2
  generalize hs2 : ((s.setEng (.busy { j with unread := [] })).setMem
    (writeList { j with unread := [] } (s.setEng (.busy { j with unread := [] })).mem
      (addrRange j.snap.dA j.snap.dL))).setEng (.busy j2) = s2 at h2
  have hag : s2.agenda = [] := by rw [← hs2]; exact ha
  have heng : s2.eng = .busy j2 := by rw [← hs2]; rfl
  have h3 : step s2 = .next (endJob (s2.setStatus s2.regs.status.complete) j2) := by
    rw [step_of_agenda_nil s2 hag]
    simp only [engineTurn, heng, ← hj2, engineFinish, hd]
    rfl
  have hmem : ∀ a, s2.mem.byteAt a = if a ∈ addrRange j.snap.dA j.snap.dL then j.valueAt a else s.mem.byteAt a := by
    intro a
    rw [← hs2]
    exact byteAt_writeList { j with unread := [] } (addrRange j.snap.dA j.snap.dL) s.mem a
  refine ⟨endJob (s2.setStatus s2.regs.status.complete) j2, ?_, ?_, rfl, ?_, ?_, ?_, ?_, ?_, ?_⟩
  · rw [Nat.add_assoc, run_add_of_next _ _ _ _ h1, run_add_of_next _ _ _ _ h2]
    exact run_succ_of_next 0 _ _ h3
  · rw [← hs2]
    rfl
  · rw [← hs2]
    rfl
  · rw [← hs2]
    rfl
  · rw [← hs2]
    rfl
  · intro hc
    rw [← hs2]
    simp [hc]
  · intro k hk
    show s2.mem.byteAt (j.snap.dA + k) = _
    rw [hmem, if_pos ((mem_addrRange _ _ _).mpr (by omega))]
    simp only [Job.valueAt, Nat.add_sub_cancel_left]
    rw [List.getD_eq_getElem _ _ hk]
  · intro a hin
    show s2.mem.byteAt a = _
    rw [hmem, if_neg]
    intro hm
    rw [mem_addrRange, ← inRange_iff, hin] at hm
    cases hm

/-! ### The source as the commands read it (R62 to R64) -/

/-- The bytes of a source `Img`, read by the commands, are its pixels. -/
theorem readImg_read (s : State) :
    readImg s.regs.params (s.mem.read s.regs.params.sA (3 * s.regs.params.N)) = imgPixels s := by
  have hget : ∀ j, j < 3 * s.regs.params.N →
      (s.mem.read s.regs.params.sA (3 * s.regs.params.N)).getD j 0 = s.mem.byteAt (s.regs.params.sA + j) := by
    intro j hj
    simp [Memory.read, addrRange, List.getD, hj]
  apply List.ext_getElem?
  intro k
  simp only [readImg, imgPixels, List.getElem?_map]
  by_cases hk : k < s.regs.params.N
  · rw [getElem?_chunk3 s.regs.params.N _ (by simp) k hk, List.getElem?_range hk]
    simp only [Option.map_some]
    rw [hget _ (by omega), hget _ (by omega), hget _ (by omega)]
    rfl
  · rw [List.getElem?_eq_none, List.getElem?_eq_none]
    · simp
    · simp
      omega
    · rw [length_chunk3 s.regs.params.N _ (by simp)]
      omega

/-- The bytes of three source planes, read by the commands, are their pixels. -/
theorem fromPlanes_read (s : State) :
    fromPlanes s.regs.params.N (s.mem.read s.regs.params.sA (3 * s.regs.params.N)) = planePixels s := by
  have h : s.mem.read s.regs.params.sA (3 * s.regs.params.N) = toPlanes (planePixels s) := by
    simp only [Memory.read, addrRange, toPlanes, planePixels, List.map_map]
    rw [show 3 * s.regs.params.N = s.regs.params.N + (s.regs.params.N + s.regs.params.N) by omega]
    simp only [List.range_add, List.map_append, List.map_map]
    simp [Function.comp_def, Nat.add_assoc, Nat.two_mul]
  rw [h, fromPlanes_toPlanes _ _ (by simp [planePixels])]

/-- The bytes of a source `Plane`, read by the commands, are its samples. -/
theorem read_plane (s : State) : s.mem.read s.regs.params.sA s.regs.params.N = planeSamples s := by
  simp [Memory.read, addrRange, planeSamples, Function.comp_def]

/-- The bytes of an interleaved buffer, pixel by pixel. -/
theorem unchunk3_eq_flatMap (l : List Triple) : unchunk3 l = l.flatMap fun t => [t.1, t.2.1, t.2.2] := by
  induction l with
  | nil => rfl
  | cons t l ih =>
    obtain ⟨x, y, z⟩ := t
    simp [unchunk3, ih]

/-- A sample looked up in the gamma table. -/
theorem lookup_gammaLut (g : ℚ) (v : Sample) : lookup (gammaLut g) v = gammaEntry g v.toNat := by
  simp [lookup, gammaLut, List.getD, v.isLt]

end Sys2Proof.Machine
end

