-- ==== Sys2Proof/Laws/Exact.lean ====
section
/-! SUPPORT. What the exact arithmetic does: `roundTE` is the nearest integer with ties to even, the search by bits finds the
largest number, and the comparison of powers is the exact one. -/

namespace Sys2Proof.Machine

/-! ### `roundTE` (R10) -/

/-- `roundTE` in terms of the floor and the fraction. -/
theorem roundTE_eq (x : ℚ) : roundTE x =
    if x - (⌊x⌋ : ℚ) < 1 / 2 then ⌊x⌋
    else if 1 / 2 < x - (⌊x⌋ : ℚ) then ⌊x⌋ + 1
    else if ⌊x⌋ % 2 = 0 then ⌊x⌋ else ⌊x⌋ + 1 := rfl

/-- An integer rounds to itself. -/
@[simp] theorem roundTE_intCast (n : ℤ) : roundTE (n : ℚ) = n := by
  simp [roundTE_eq]

@[simp] theorem roundTE_natCast (n : ℕ) : roundTE (n : ℚ) = n := by
  simpa using roundTE_intCast (n : ℤ)

/-- The rounded value is at most half away; at half it is even. -/
theorem roundTE_spec (x : ℚ) :
    |x - (roundTE x : ℚ)| ≤ 1 / 2 ∧ (|x - (roundTE x : ℚ)| = 1 / 2 → roundTE x % 2 = 0) := by
  have h0 := Int.floor_le x
  have h1 := Int.lt_floor_add_one x
  rw [roundTE_eq]
  split
  · rename_i h
    have : |x - (⌊x⌋ : ℚ)| = x - ⌊x⌋ := abs_of_nonneg (by linarith)
    rw [this]
    exact ⟨h.le, fun he => by linarith⟩
  · rename_i h
    split
    · rename_i h2
      push_cast
      have : |x - ((⌊x⌋ : ℚ) + 1)| = (⌊x⌋ : ℚ) + 1 - x := by
        rw [abs_of_nonpos (by linarith)]
        ring
      rw [this]
      exact ⟨by linarith, fun he => by linarith⟩
    · rename_i h2
      have he : x - (⌊x⌋ : ℚ) = 1 / 2 := le_antisymm (not_lt.mp h2) (not_lt.mp h)
      split
      · rename_i h3
        rw [he]
        exact ⟨by norm_num, fun _ => h3⟩
      · rename_i h3
        push_cast
        have : x - ((⌊x⌋ : ℚ) + 1) = -(1 / 2) := by linarith
        rw [this]
        refine ⟨by norm_num, fun _ => ?_⟩
        omega

/-- The nearest integer with ties to even is unique. -/
theorem roundTE_unique (x : ℚ) (n : ℤ) (h : |x - (n : ℚ)| ≤ 1 / 2) (he : |x - (n : ℚ)| = 1 / 2 → n % 2 = 0) :
    roundTE x = n := by
  obtain ⟨h', he'⟩ := roundTE_spec x
  rw [abs_le] at h h'
  have hb : |(roundTE x : ℚ) - n| ≤ 1 := by rw [abs_le]; constructor <;> linarith
  have hb' : |roundTE x - n| ≤ 1 := by exact_mod_cast hb
  rw [abs_le] at hb'
  have hcases : roundTE x = n ∨ roundTE x = n + 1 ∨ roundTE x = n - 1 := by omega
  rcases hcases with h2 | h2 | h2
  · exact h2
  · have hq : (roundTE x : ℚ) = n + 1 := by exact_mod_cast h2
    rw [hq] at h' he'
    have hx : x = n + 1 / 2 := by linarith
    have e1 : n % 2 = 0 := he (by rw [hx, show (n : ℚ) + 1 / 2 - n = 1 / 2 by ring]; norm_num)
    have e2 : roundTE x % 2 = 0 := he' (by
      rw [hx, show (n : ℚ) + 1 / 2 - (n + 1) = -(1 / 2) by ring]
      norm_num)
    omega
  · have hq : (roundTE x : ℚ) = n - 1 := by exact_mod_cast h2
    rw [hq] at h' he'
    have hx : x = n - 1 / 2 := by linarith
    have e1 : n % 2 = 0 := he (by rw [hx, show (n : ℚ) - 1 / 2 - n = -(1 / 2) by ring]; norm_num)
    have e2 : roundTE x % 2 = 0 := he' (by
      rw [hx, show (n : ℚ) - 1 / 2 - (n - 1) = 1 / 2 by ring]
      norm_num)
    omega

/-- `roundTE x` is at least `n` exactly when `x` is above `n − 1/2`, or on it with `n` even. -/
theorem le_roundTE_iff (x : ℚ) (n : ℤ) :
    n ≤ roundTE x ↔ (n : ℚ) - 1 / 2 < x ∨ (x = (n : ℚ) - 1 / 2 ∧ n % 2 = 0) := by
  obtain ⟨h', he'⟩ := roundTE_spec x
  have hb := abs_le.mp h'
  constructor
  · intro h
    have hq : (n : ℚ) ≤ roundTE x := by exact_mod_cast h
    rcases lt_or_eq_of_le (show (n : ℚ) - 1 / 2 ≤ x by linarith [hb.1]) with hlt | heq
    · exact .inl hlt
    · right
      refine ⟨heq.symm, ?_⟩
      have hn : (roundTE x : ℚ) = n := by linarith [hb.1]
      have hn' : roundTE x = n := by exact_mod_cast hn
      rw [← hn']
      refine he' ?_
      rw [hn, ← heq]
      norm_num
  · rintro (h | ⟨h, hev⟩)
    · have h2 : (n : ℚ) - 1 < roundTE x := by linarith [hb.2]
      have : n - 1 < roundTE x := by exact_mod_cast h2
      omega
    · have h2 : (n : ℚ) - 1 ≤ roundTE x := by linarith [hb.2]
      have h3 : n - 1 ≤ roundTE x := by exact_mod_cast h2
      by_contra hc
      have h4 : roundTE x = n - 1 := by omega
      have h5 : (roundTE x : ℚ) = n - 1 := by exact_mod_cast h4
      have h6 := he' (by rw [h5, h, show (n : ℚ) - 1 / 2 - (n - 1) = 1 / 2 by ring]; norm_num)
      omega

/-- `roundTE` is monotone. -/
theorem roundTE_mono {x y : ℚ} (h : x ≤ y) : roundTE x ≤ roundTE y := by
  rw [le_roundTE_iff]
  rcases (le_roundTE_iff x (roundTE x)).mp le_rfl with h1 | ⟨h1, h2⟩
  · exact .inl (lt_of_lt_of_le h1 h)
  · rcases lt_or_eq_of_le h with h3 | h3
    · exact .inl (h1 ▸ h3)
    · exact .inr ⟨h3 ▸ h1, h2⟩

theorem roundTE_nonneg {x : ℚ} (h : 0 ≤ x) : 0 ≤ roundTE x := by
  have h2 := roundTE_mono (x := ((0 : ℤ) : ℚ)) (y := x) (by simpa using h)
  rwa [roundTE_intCast] at h2

theorem roundTE_le_of_le {x : ℚ} (n : ℤ) (h : x ≤ n) : roundTE x ≤ n := by
  simpa using roundTE_mono h

/-! ### `clamp8` (R10) -/

theorem clamp8_toNat (v : ℤ) : ((clamp8 v).toNat : ℤ) = min (max v 0) 255 := by
  have h : 0 ≤ min (max v 0) 255 := by omega
  have h2 : min (max v 0) 255 < 256 := by omega
  simp only [clamp8, BitVec.toNat_ofInt]
  rw [Int.toNat_of_nonneg (by omega)]
  omega

theorem clamp8_of_range {v : ℤ} (h0 : 0 ≤ v) (h1 : v ≤ 255) : ((clamp8 v).toNat : ℤ) = v := by
  rw [clamp8_toNat]
  omega

@[simp] theorem clamp8_sample (v : Sample) : clamp8 (v.toNat : ℤ) = v := by
  apply BitVec.eq_of_toNat_eq
  have := clamp8_toNat (v.toNat : ℤ)
  have := v.isLt
  omega

/-! ### Search by bits -/

/-- For a `p` that never turns true again, the search finds the largest number of `bits` bits past `acc` for which `p` holds,
if it holds of `acc`. -/
theorem greedy_spec (p : Nat → Bool) (hp : ∀ m n, m ≤ n → p n = true → p m = true) (b acc : Nat) (h0 : p acc = true) :
    acc ≤ greedy p b acc ∧ greedy p b acc < acc + 2 ^ b ∧ p (greedy p b acc) = true ∧
      ∀ m, m < acc + 2 ^ b → p m = true → m ≤ greedy p b acc := by
  induction b generalizing acc with
  | zero =>
    simp only [greedy, Nat.pow_zero]
    exact ⟨le_rfl, by omega, h0, fun m hm _ => by omega⟩
  | succ b ih =>
    simp only [greedy]
    have hpow : 2 ^ (b + 1) = 2 ^ b + 2 ^ b := by rw [Nat.pow_succ]; omega
    split
    · rename_i h
      obtain ⟨h1, h2, h3, h4⟩ := ih (acc + 2 ^ b) h
      exact ⟨by omega, by omega, h3, fun m hm hpm => h4 m (by omega) hpm⟩
    · rename_i h
      obtain ⟨h1, h2, h3, h4⟩ := ih acc h0
      refine ⟨h1, by omega, h3, fun m hm hpm => h4 m ?_ hpm⟩
      by_contra hc
      exact h (hp _ _ (by omega) hpm)

/-- `iroot` is the integer root, where the root has no more bits than asked for. -/
theorem iroot_spec (k bits n : Nat) (hk : 0 < k) (hn : n < 2 ^ (bits * k)) :
    iroot k bits n ^ k ≤ n ∧ n < (iroot k bits n + 1) ^ k := by
  have hp : ∀ m m', m ≤ m' → decide (m' ^ k ≤ n) = true → decide (m ^ k ≤ n) = true := by
    intro m m' hm h
    simp only [decide_eq_true_eq] at h ⊢
    exact le_trans (Nat.pow_le_pow_left hm k) h
  obtain ⟨_, h2, h3, h4⟩ := greedy_spec (fun r => decide (r ^ k ≤ n)) hp bits 0 (by simp [hk.ne'])
  simp only [decide_eq_true_eq, Nat.zero_add] at h2 h3 h4
  refine ⟨h3, ?_⟩
  by_contra hc
  have hlt : iroot k bits n + 1 < 2 ^ bits := by
    by_contra hge
    have h5 : 2 ^ (bits * k) ≤ (iroot k bits n + 1) ^ k := by
      rw [Nat.pow_mul]
      exact Nat.pow_le_pow_left (by omega) k
    omega
  have := h4 (iroot k bits n + 1) hlt (by omega)
  simp only [iroot] at this
  omega

/-! ### Comparison of powers -/

/-- The value of a scaled number. -/
def Scaled.val (x : Scaled) : Nat := x.m * 2 ^ x.e

theorem scaled_mul_val (x y : Scaled) : (x.mul y).val = x.val * y.val := by
  simp only [Scaled.val, Scaled.mul, Nat.pow_add]
  ring

theorem scaled_mul_pos {x y : Scaled} (hx : 0 < x.m) (hy : 0 < y.m) : 0 < (x.mul y).m := Nat.mul_pos hx hy

/-- Rounding down a positive number leaves it positive and not above what it was. -/
theorem scaled_down_spec (P : Nat) (hP : 0 < P) (x : Scaled) (hx : 0 < x.m) :
    0 < (x.down P).m ∧ (x.down P).val ≤ x.val := by
  simp only [Scaled.down, Scaled.val, Nat.shiftRight_eq_div_pow]
  have hlog := Nat.log2_self_le hx.ne'
  constructor
  · refine Nat.div_pos ?_ (by positivity)
    refine le_trans (Nat.pow_le_pow_right (by norm_num) ?_) hlog
    omega
  · rw [Nat.pow_add, Nat.mul_comm (2 ^ x.e), ← Nat.mul_assoc]
    exact Nat.mul_le_mul_right _ (Nat.div_mul_le_self _ _)

/-- Rounding up leaves a number positive and not below what it was. -/
theorem scaled_up_spec (P : Nat) (x : Scaled) (hx : 0 < x.m) : 0 < (x.up P).m ∧ x.val ≤ (x.up P).val := by
  simp only [Scaled.up, Scaled.val, Nat.shiftRight_eq_div_pow]
  split
  · rename_i h
    rw [h]
    simpa using hx
  · refine ⟨Nat.succ_pos _, ?_⟩
    rw [Nat.pow_add, Nat.mul_comm (2 ^ x.e), ← Nat.mul_assoc]
    refine Nat.mul_le_mul_right _ ?_
    rw [Nat.mul_comm]
    exact (Nat.lt_mul_div_succ _ (by positivity)).le

theorem scaled_square_val (h : Scaled) (a q : Nat) :
    (Scaled.square a q h).val = h.val * h.val * (if q % 2 = 1 then a else 1) := by
  simp only [Scaled.square, Scaled.val, Nat.pow_add]
  split <;> ring

theorem scaled_square_pos {h : Scaled} {a : Nat} (q : Nat) (hh : 0 < h.m) (ha : 0 < a) :
    0 < (Scaled.square a q h).m := by
  simp only [Scaled.square]
  split <;> positivity

theorem pow_half (a q : Nat) : a ^ q = a ^ (q / 2) * a ^ (q / 2) * (if q % 2 = 1 then a else 1) := by
  conv_lhs => rw [← Nat.div_add_mod q 2]
  rw [Nat.pow_add, Nat.pow_mul, Nat.pow_two, Nat.mul_pow]
  rcases Nat.mod_two_eq_zero_or_one q with h | h <;> simp [h]

theorem fuel_half {fuel q : Nat} (hq : q < 2 ^ (fuel + 1)) : q / 2 < 2 ^ fuel := by
  rw [Nat.pow_succ] at hq
  omega

theorem powBound_down (P : Nat) (hP : 0 < P) (a : Nat) (ha : 0 < a) (fuel q : Nat) (hq : q < 2 ^ fuel) :
    0 < (powBound (Scaled.down P) a fuel q).m ∧ (powBound (Scaled.down P) a fuel q).val ≤ a ^ q := by
  induction fuel generalizing q with
  | zero =>
    have : q = 0 := by simpa using hq
    simp [powBound, Scaled.val, this]
  | succ fuel ih =>
    simp only [powBound]
    split
    · rename_i h
      simp [Scaled.val, h]
    · rename_i h
      obtain ⟨h1, h2⟩ := ih (q / 2) (fuel_half hq)
      obtain ⟨h3, h4⟩ := scaled_down_spec P hP _ (scaled_square_pos q h1 ha)
      refine ⟨h3, le_trans h4 ?_⟩
      rw [scaled_square_val, pow_half a q]
      exact Nat.mul_le_mul_right _ (Nat.mul_le_mul h2 h2)

theorem powBound_up (P : Nat) (a : Nat) (ha : 0 < a) (fuel q : Nat) (hq : q < 2 ^ fuel) :
    0 < (powBound (Scaled.up P) a fuel q).m ∧ a ^ q ≤ (powBound (Scaled.up P) a fuel q).val := by
  induction fuel generalizing q with
  | zero =>
    have : q = 0 := by simpa using hq
    simp [powBound, Scaled.val, this]
  | succ fuel ih =>
    simp only [powBound]
    split
    · rename_i h
      simp [Scaled.val, h]
    · rename_i h
      obtain ⟨h1, h2⟩ := ih (q / 2) (fuel_half hq)
      obtain ⟨h3, h4⟩ := scaled_up_spec P _ (scaled_square_pos q h1 ha)
      refine ⟨h3, le_trans ?_ h4⟩
      rw [scaled_square_val, pow_half a q]
      exact Nat.mul_le_mul_right _ (Nat.mul_le_mul h2 h2)

theorem powDown_spec (P : Nat) (hP : 0 < P) (a q : Nat) (ha : 0 < a) :
    0 < (powDown P a q).m ∧ (powDown P a q).val ≤ a ^ q :=
  powBound_down P hP a ha _ q Nat.lt_log2_self

theorem powUp_spec (P : Nat) (a q : Nat) (ha : 0 < a) : 0 < (powUp P a q).m ∧ a ^ q ≤ (powUp P a q).val :=
  powBound_up P a ha _ q Nat.lt_log2_self

/-- A positive scaled number lies between two powers of two that its lengths give. -/
theorem scaled_log (x : Scaled) (hx : 0 < x.m) :
    2 ^ (Nat.log2 x.m + x.e) ≤ x.val ∧ x.val < 2 ^ (Nat.log2 x.m + x.e + 1) := by
  have h1 := Nat.log2_self_le hx.ne'
  have h2 : x.m < 2 ^ (Nat.log2 x.m + 1) := Nat.lt_log2_self
  simp only [Scaled.val]
  constructor
  · rw [Nat.pow_add]
    exact Nat.mul_le_mul_right _ h1
  · rw [show Nat.log2 x.m + x.e + 1 = (Nat.log2 x.m + 1) + x.e by omega, Nat.pow_add]
    exact Nat.mul_lt_mul_of_pos_right h2 (by positivity)

/-- The order of scaled numbers is that of their values. -/
theorem scaled_lt_iff (x y : Scaled) (hx : 0 < x.m) (hy : 0 < y.m) : x.lt y = true ↔ x.val < y.val := by
  obtain ⟨x1, x2⟩ := scaled_log x hx
  obtain ⟨y1, y2⟩ := scaled_log y hy
  simp only [Scaled.lt]
  split
  · rename_i h
    simp only [true_iff]
    exact lt_of_lt_of_le x2 (le_trans (Nat.pow_le_pow_right (by norm_num) (by omega)) y1)
  · split
    · rename_i h1 h
      simp only [Bool.false_eq_true, false_iff, not_lt]
      exact (lt_of_lt_of_le y2 (le_trans (Nat.pow_le_pow_right (by norm_num) (by omega)) x1)).le
    · simp only [decide_eq_true_eq, Nat.shiftLeft_eq, Scaled.val]
      rcases Nat.le_total x.e y.e with h | h
      · rw [show x.e - y.e = 0 by omega, Nat.pow_zero, Nat.mul_one]
        conv_rhs => rw [show y.e = (y.e - x.e) + x.e by omega, Nat.pow_add, ← Nat.mul_assoc]
        exact (Nat.mul_lt_mul_right (by positivity)).symm
      · rw [show y.e - x.e = 0 by omega, Nat.pow_zero, Nat.mul_one]
        conv_rhs => rw [show x.e = (x.e - y.e) + y.e by omega, Nat.pow_add, ← Nat.mul_assoc]
        exact (Nat.mul_lt_mul_right (by positivity)).symm

/-- The comparison by bounds is the exact comparison. -/
theorem powCmp_eq_exact (a b q c d p : Nat) (ha : 0 < a) (hb : 0 < b) (hc : 0 < c) (hd : 0 < d) :
    powCmp a b q c d p = powCmpExact a b q c d p := by
  have hP : 0 < Config.powPrecision := by decide
  obtain ⟨a1, a2⟩ := powUp_spec Config.powPrecision a q ha
  obtain ⟨d1, d2⟩ := powUp_spec Config.powPrecision d p hd
  obtain ⟨c1, c2⟩ := powUp_spec Config.powPrecision c p hc
  obtain ⟨b1, b2⟩ := powUp_spec Config.powPrecision b q hb
  obtain ⟨a3, a4⟩ := powDown_spec Config.powPrecision hP a q ha
  obtain ⟨d3, d4⟩ := powDown_spec Config.powPrecision hP d p hd
  obtain ⟨c3, c4⟩ := powDown_spec Config.powPrecision hP c p hc
  obtain ⟨b3, b4⟩ := powDown_spec Config.powPrecision hP b q hb
  simp only [powCmp]
  split
  · rename_i h
    rw [scaled_lt_iff _ _ (scaled_mul_pos a1 d1) (scaled_mul_pos c3 b3), scaled_mul_val, scaled_mul_val] at h
    have h5 : a ^ q * d ^ p < c ^ p * b ^ q :=
      lt_of_le_of_lt (Nat.mul_le_mul a2 d2) (lt_of_lt_of_le h (Nat.mul_le_mul c4 b4))
    exact (compare_lt_iff_lt.mpr h5).symm
  · split
    · rename_i h
      rw [scaled_lt_iff _ _ (scaled_mul_pos c1 b1) (scaled_mul_pos a3 d3), scaled_mul_val, scaled_mul_val] at h
      have h5 : c ^ p * b ^ q < a ^ q * d ^ p :=
        lt_of_le_of_lt (Nat.mul_le_mul c2 b2) (lt_of_lt_of_le h (Nat.mul_le_mul a4 d4))
      exact (compare_gt_iff_gt.mpr h5).symm
    · rfl

/-! ### Binary32 values (R11) -/

theorem pow2_pos (k : Int) : 0 < pow2 k := by
  simp only [pow2]
  split <;> positivity

/-- The bit tests for a zero and for a negative value agree with the value of the pattern. -/
theorem f32_sign (w : Word) : (f32IsZero w = true ↔ f32 w = 0) ∧ (f32Negative w = true ↔ f32 w < 0) := by
  simp only [f32, f32Negative, f32IsZero]
  have h1 : (0 : ℚ) ≤ (f32Frac w : ℚ) := by positivity
  by_cases he : f32Exp w = 0
  · by_cases hm : f32Frac w = 0
    · simp [he, hm]
    · have hpos : (0 : ℚ) < pow2 (-126) * ((f32Frac w : ℚ) / 2 ^ 23) := by
        have := pow2_pos (-126)
        have : (0 : ℚ) < (f32Frac w : ℚ) := by positivity
        positivity
      cases hs : w.getLsbD 31
      · simp only [he, if_true, Bool.false_and]
        simp [hm]
        exact ⟨(pow2_pos _).ne', hpos.le⟩
      · simp [he, hm]
        exact ⟨(pow2_pos _).ne', hpos⟩
  · have hpos : (0 : ℚ) < pow2 ((f32Exp w : Int) - 127) * (1 + (f32Frac w : ℚ) / 2 ^ 23) := by
      have := pow2_pos ((f32Exp w : Int) - 127)
      positivity
    cases hs : w.getLsbD 31
    · simp [he]
      exact ⟨⟨(pow2_pos _).ne', by positivity⟩, hpos.le⟩
    · simp [he]
      exact ⟨⟨(pow2_pos _).ne', by positivity⟩, hpos⟩

end Sys2Proof.Machine
end

