-- ==== Sys2Proof/Laws/Invariant.lean ====
section
/-! SUPPORT. What each shared operation keeps of a good state, piece by piece. -/

namespace Sys2Proof.Machine

/-! ### Parts of a good state that an operation does not touch -/

theorem inv_setAgenda (s : State) (l : List Event) : Inv (s.setAgenda l) ↔ Inv s := Iff.rfl

theorem inv_draw (s : State) (n : Nat) : Inv (s.draw n) ↔ Inv s := Iff.rfl

theorem inv_accessOk (s : State) : Inv (accessOk s) ↔ Inv s := Iff.rfl

theorem inv_undefinedAccess (s : State) (b : Bool) : Inv (undefinedAccess s b) ↔ Inv s := Iff.rfl

/-- What the host has got back is no part of a good state. -/
theorem inv_setHost_data (s : State) (w : Word) (e : Bool) (b : Sample) :
    Inv (s.setHost { s.host with rdData := w, busErr := e, ldData := b }) ↔ Inv s := Iff.rfl

/-- The good states with an idle engine. -/
theorem inv_of_idle (s : State) (he : s.eng = .idle) (hw : s.mem.wf = true) (hb : ∀ c ∈ s.mem, c.1 < s.plat.memSize)
    (hbusy : s.regs.status.busy = false) (hr : ReportOk s.regs) (hu : ∀ a ∈ s.host.uncleaned, a < s.plat.memSize)
    (hc : s.plat.dmaCoherent = true → s.host.uncleaned = [] ∧ s.host.stale = []) : Inv s := by
  refine ⟨hw, hb, by rw [he]; exact hbusy, ?_, hr, hu, hc⟩
  intro j hj
  rw [he] at hj
  cases hj

/-- New registers under an idle engine. -/
theorem inv_setRegs_idle (s : State) (rs : Regs) (h : Inv s) (he : s.eng = .idle) (hbusy : rs.status.busy = false)
    (hr : ReportOk rs) : Inv (s.setRegs rs) := by
  obtain ⟨hw, hb, -, -, -, hu, hc⟩ := h
  exact inv_of_idle _ he hw hb hbusy hr hu hc

theorem reportOk_reset : ReportOk Regs.reset := by
  refine ⟨by decide, by decide, fun _ => rfl⟩

/-- No error. -/
theorem reportOk_clear (rs : Regs) (h1 : rs.errCode = 0#32) (h2 : rs.errField = 0#32) (h3 : rs.errValue = 0#32) :
    ReportOk rs := by
  refine ⟨by simp [h1], ?_, fun _ => h3⟩
  rw [h1, h2]
  decide

/-- The report is one of the table of R200: its code is not 0 and its field is one of that code. -/
def Report.Ok (r : Report) : Prop :=
  r.code ≠ .noError ∧ BitVec.ofNat 32 r.field.offset ∈ reportFields (u32 r.code.toWord)

theorem errorCode_le (c : ErrorCode) : u32 c.toWord ≤ 8 := by cases c <;> decide

theorem errorCode_eq_zero (c : ErrorCode) (h : c.toWord = 0#32) : c = .noError := by
  cases c
  case noError => rfl
  all_goals exact absurd h (by decide)

/-- The registers that carry a report of the table. -/
theorem reportOk_setError (rs : Regs) (r : Report) (st : Status) (h : r.Ok) :
    ReportOk { rs.setError r.code.toWord (BitVec.ofNat 32 r.field.offset) r.value with status := st } :=
  ⟨errorCode_le r.code, h.2, fun h0 => absurd (errorCode_eq_zero r.code h0) h.1⟩

/-- Whether a report is one of the table does not depend on its value. -/
theorem report_ok (c : ErrorCode) (f : Reg) (v : Word)
    (h : c ≠ .noError ∧ BitVec.ofNat 32 f.offset ∈ reportFields (u32 c.toWord)) :
    Report.Ok { code := c, field := f, value := v } := h

/-- The fields of a bus fault (R209). -/
theorem report_ok_busFault (f : Reg) (v : Word) (h : f = .srcAddr ∨ f = .dstAddr) :
    Report.Ok { code := .busFault, field := f, value := v } := by
  rcases h with rfl | rfl <;> exact report_ok _ _ _ (by decide)

/-! ### The end of a job -/

/-- Memory with a whole range written anew is still canonical and inside `MEM_SIZE`. -/
theorem scramble_mem_ok (s : State) (j : Job) (hw : s.mem.wf = true) (hb : ∀ c ∈ s.mem, c.1 < s.plat.memSize)
    (hd : j.snap.dA + j.snap.dL ≤ s.plat.memSize) :
    (scramble s j).mem.wf = true ∧ ∀ c ∈ (scramble s j).mem, c.1 < s.plat.memSize := by
  refine ⟨setAll_wf _ _ _ hw, ?_⟩
  intro c hc
  rcases mem_setAll _ _ _ _ hc with ⟨-, h2⟩ | h
  · rw [length_freeBytes] at h2
    omega
  · exact hb c h

/-- The engine is idle after the end of a job; the rest of a good state stands when the new registers are good. -/
theorem inv_endJob (s : State) (j : Job) (hw : s.mem.wf = true) (hb : ∀ c ∈ s.mem, c.1 < s.plat.memSize)
    (hbusy : s.regs.status.busy = false) (hr : ReportOk s.regs) (hu : ∀ a ∈ s.host.uncleaned, a < s.plat.memSize)
    (hc : s.plat.dmaCoherent = true → s.host.uncleaned = [] ∧ s.host.stale = []) : Inv (endJob s j) := by
  refine inv_of_idle _ rfl hw hb hbusy hr ?_ ?_
  · intro a ha
    apply hu a
    cases hd : s.plat.dmaCoherent <;> simpa [endJob, hd] using ha
  · intro h
    have h' : s.plat.dmaCoherent = true := h
    simp [endJob, h', hc h']

theorem inv_busFaultAt (s : State) (j : Job) (r : Reg) (a : Nat) (h : Inv s) (hj : s.eng = .busy j)
    (hr : r = .srcAddr ∨ r = .dstAddr) : Inv (busFaultAt s j r a) := by
  obtain ⟨hw, hb, -, hjob, -, hu, hc⟩ := h
  obtain ⟨-, -, -, -, -, -, hd, -⟩ := hjob j hj
  obtain ⟨h1, h2⟩ := scramble_mem_ok s j hw hb hd
  exact inv_endJob _ j h1 h2 rfl (reportOk_setError _ _ _ (report_ok_busFault r _ hr)) hu hc

/-! ### Steps of the engine -/

theorem inv_engineRead (s t : State) (j : Job) (a : Nat) (h : Inv s) (hj : s.eng = .busy j)
    (ht : engineRead s j a = .next t) : Inv t := by
  rcases engineRead_cases s j a with ⟨-, h1⟩ | ⟨-, -, h1⟩ | ⟨-, -, -, h1⟩ | ⟨-, -, -, h1⟩ <;> rw [h1] at ht <;> cases ht
  · exact h
  · exact inv_busFaultAt s j _ a h hj (.inl rfl)
  · obtain ⟨hw, hb, hbusy, hjob, hr, hu, hc⟩ := h
    refine ⟨hw, hb, (hbusy.trans (by rw [hj]; rfl) : s.regs.status.busy = true), ?_, hr, hu, hc⟩
    intro j' hj'
    cases hj'
    obtain ⟨h1, h2, h3, h4, h5⟩ := hjob j hj
    refine ⟨h1, h2, h3, h4, ?_⟩
    obtain ⟨k1, k2, k3, k4, k5, k6, k7, k8, k9⟩ := h5
    exact ⟨k1, k2, k3, k4, k5, ⟨k6.1.erase a, fun x hx => k6.2 x (List.mem_of_mem_erase hx)⟩, k7, k8, k9⟩

theorem inv_engineWrite (s t : State) (j : Job) (a : Nat) (h : Inv s) (hj : s.eng = .busy j)
    (ht : engineWrite s j a = .next t) : Inv t := by
  rcases engineWrite_cases s j a with ⟨-, h1⟩ | ⟨-, -, h1⟩ | ⟨-, -, -, h1⟩ | ⟨hin, -, -, h1⟩ <;> rw [h1] at ht <;> cases ht
  · exact h
  · exact inv_busFaultAt s j _ a h hj (.inr rfl)
  · obtain ⟨hw, hb, hbusy, hjob, hr, hu, hc⟩ := h
    obtain ⟨h1, h2, h3, h4, k1, k2, k3, k4, k5, k6, k7, k8, k9⟩ := hjob j hj
    have ha : j.snap.dA ≤ a ∧ a < j.snap.dA + j.snap.dL := (inRange_iff _ _ _).mp hin
    refine ⟨set_wf _ _ _ hw, ?_, (hbusy.trans (by rw [hj]; rfl) : s.regs.status.busy = true), ?_, hr, hu, hc⟩
    · intro c hcm
      rcases mem_set _ _ _ _ hcm with rfl | hcm
      · show a < s.plat.memSize
        omega
      · exact hb c hcm
    · intro j' hj'
      cases hj'
      refine ⟨h1, h2, h3, h4, ?_, k2, k3, k4, k5, k6,
        ⟨k7.1.erase a, fun x hx => k7.2 x (List.mem_of_mem_erase hx)⟩, ?_, k9⟩
      · obtain ⟨i, e1, e2, e3, e4, e5⟩ := k1
        refine ⟨i, e1, e2, e3, e4, ?_⟩
        intro hd
        show j.work = _
        rw [e5 hd]
        congr 1
        refine read_congr _ _ _ _ ?_
        intro x hx
        have hx' := (inRange_iff _ _ _).mp hx
        have hpos : 0 < j.srcSize := by omega
        refine (byteAt_set_of_ne _ _ ?_).symm
        have := (k4 hpos).2
        omega
      · intro hd x hx hxp
        show (s.mem.set a (j.valueAt a)).byteAt x = j.valueAt x
        by_cases hxa : x = a
        · subst hxa
          exact byteAt_set_self _ _ _
        · rw [byteAt_set_of_ne _ _ hxa]
          refine k8 hd x hx ?_
          intro hp
          exact hxp ((List.mem_erase_of_ne hxa).mpr hp)

theorem inv_engineFinish (s : State) (j : Job) (h : Inv s) (hj : s.eng = .busy j) : Inv (engineFinish s j) := by
  have h' := h
  obtain ⟨hw, hb, -, hjob, hr, hu, hc⟩ := h'
  obtain ⟨-, -, -, -, -, -, hd, -⟩ := hjob j hj
  rcases engineFinish_cases s j with ⟨-, h1⟩ | ⟨-, -, h1⟩ | ⟨-, -, h1⟩ <;> rw [h1]
  · exact h
  · exact inv_endJob _ j hw hb rfl hr hu hc
  · obtain ⟨h2, h3⟩ := scramble_mem_ok s j hw hb hd
    exact inv_endJob _ j h2 h3 rfl hr hu hc

theorem inv_engineTurn (s t : State) (h : Inv s) (ht : engineTurn s = .next t) : Inv t := by
  rcases engineTurn_cases s with ⟨-, h1⟩ | ⟨j, a, l, hj, -, h1⟩ | ⟨j, a, l, hj, -, -, h1⟩ | ⟨j, hj, -, -, h1⟩ <;>
    rw [h1] at ht
  · cases ht
    exact h
  · exact inv_engineRead s t j a h hj ht
  · exact inv_engineWrite s t j a h hj ht
  · cases ht
    exact inv_engineFinish s j h hj

/-! ### Reset and register writes -/

theorem inv_resetBlock (s : State) (h : Inv s) : Inv (resetBlock s) := by
  have h' := h
  obtain ⟨hw, hb, -, hjob, -, hu, hc⟩ := h'
  rcases resetBlock_cases s with ⟨he, h1⟩ | ⟨j, hj, h1⟩ <;> rw [h1]
  · exact inv_setRegs_idle s _ h he rfl reportOk_reset
  · obtain ⟨-, -, -, -, -, -, hd, -⟩ := hjob j hj
    obtain ⟨h2, h3⟩ := scramble_mem_ok s j hw hb hd
    refine inv_of_idle _ rfl h2 h3 rfl reportOk_reset ?_ ?_
    · intro a ha
      apply hu a
      cases hd : s.plat.dmaCoherent <;> simpa [endJob, hd] using ha
    · intro hcoh
      have h' : s.plat.dmaCoherent = true := hcoh
      simp [endJob, h', hc h']

theorem inv_writeReg (s : State) (r : Reg) (w : Word) (h : Inv s) : Inv (writeReg s r w) := by
  rcases writeReg_cases s r w with h1 | h1 | h1 | h1 | h1 <;> rw [h1]
  · exact h
  · exact inv_resetBlock s h
  · exact h
  · obtain ⟨hw, hb, hbusy, hjob, hr, hu, hc⟩ := h
    refine ⟨hw, hb, hbusy, ?_, hr, hu, hc⟩
    intro j hj
    obtain ⟨h1, h2, h3, h4, h5⟩ := hjob j hj
    refine ⟨?_, ?_, h3, h4, h5⟩
    · show (s.regs.status.done && _) = false
      rw [h1]
      rfl
    · show (s.regs.status.error && _) = false
      rw [h2]
      rfl
  · exact h

/-! ### The host's memory -/

/-- The engine's job in a good state, when memory changes only outside its ranges. -/
theorem jobOk_of_mem (s t : State) (j : Job) (h : JobOk s j) (hp : t.plat = s.plat)
    (hm : ∀ a, (j.inSrc a || j.inDst a) = true → t.mem.byteAt a = s.mem.byteAt a)
    (hu : ∀ a ∈ t.host.uncleaned, j.inSrc a = true → j.disturbed = true) : JobOk t j := by
  obtain ⟨⟨i, e1, e2, e3, e4, e5⟩, k2, k3, k4, k5, k6, k7, k8, -⟩ := h
  refine ⟨⟨i, e1, e2, e3, e4, ?_⟩, k2, by rw [hp]; exact k3, by rw [hp]; exact k4, k5, k6, k7, ?_, hu⟩
  · intro hd
    rw [e5 hd]
    congr 1
    refine read_congr _ _ _ _ fun x hx => (hm x ?_).symm
    simp only [Job.inSrc, hx, Bool.true_or]
  · intro hd a ha hap
    rw [hm a (by simp [ha])]
    exact k8 hd a ha hap

/-- A disturbed job asks nothing of memory. -/
theorem jobOk_disturb (s t : State) (j : Job) (h : JobOk s j) (hp : t.plat = s.plat) :
    JobOk t { j with disturbed := true } := by
  obtain ⟨⟨i, e1, e2, e3, e4, -⟩, k2, k3, k4, k5, k6, k7, -, -⟩ := h
  exact ⟨⟨i, e1, e2, e3, e4, (fun hd => by cases hd)⟩, k2, by rw [hp]; exact k3, by rw [hp]; exact k4, k5, k6, k7,
    (fun hd => by cases hd), fun _ _ _ => rfl⟩

theorem inv_memStore (s t : State) (a : Nat) (b : Sample) (h : Inv s) (ht : memStore s a b = .next t) : Inv t := by
  obtain ⟨hw, hb, hbusy, hjob, hr, hu, hc⟩ := h
  simp only [memStore] at ht
  split at ht
  · cases ht
  split at ht
  · cases ht
  rename_i hsize _
  cases ht
  refine ⟨set_wf _ _ _ hw, ?_, ?_, ?_, hr, ?_, ?_⟩
  · intro c hcm
    rcases mem_set _ _ _ _ hcm with rfl | hcm
    · show a < s.plat.memSize
      omega
    · exact hb c hcm
  · show s.regs.status.busy = _
    rw [hbusy]
    cases he : s.eng with
    | idle => simp [Engine.touches, Engine.isBusy]
    | busy j => cases hx : (j.inSrc a || j.inDst a) <;> simp [Engine.touches, Engine.disturb, hx]
  · intro j hj
    cases he : s.eng with
    | idle => simp [he, Engine.touches] at hj
    | busy j0 =>
      obtain ⟨h1, h2, h3, h4, h5⟩ := hjob j0 he
      by_cases hx : (j0.inSrc a || j0.inDst a) = true
      · have hj' : Engine.busy { j0 with disturbed := true } = .busy j := by
          simpa [he, Engine.touches, Engine.disturb, hx] using hj
        cases hj'
        exact ⟨h1, h2, h3, h4, jobOk_disturb s _ j0 h5 rfl⟩
      · have hj' : Engine.busy j0 = .busy j := by simpa [he, Engine.touches, hx] using hj
        cases hj'
        refine ⟨h1, h2, h3, h4, jobOk_of_mem s _ _ h5 rfl ?_ ?_⟩
        · intro x hx'
          refine byteAt_set_of_ne _ _ ?_
          rintro rfl
          exact hx hx'
        · intro x hxm hx'
          have k9 := h5.2.2.2.2.2.2.2.2
          by_cases hd : s.plat.dmaCoherent = true
          · exact k9 x (by simpa [hd] using hxm) hx'
          · have hxm' : x = a ∨ x ∈ s.host.uncleaned ∧ x ≠ a := by simpa [hd] using hxm
            rcases hxm' with rfl | ⟨hxm, -⟩
            · exact absurd (by simp [hx']) hx
            · exact k9 x hxm hx'
  · intro x hx
    by_cases hd : s.plat.dmaCoherent = true
    · exact hu x (by simpa [hd] using hx)
    · have hx' : x = a ∨ x ∈ s.host.uncleaned ∧ x ≠ a := by simpa [hd] using hx
      rcases hx' with rfl | ⟨hx, -⟩
      · show x < s.plat.memSize
        omega
      · exact hu x hx
  · intro hd
    have hd' : s.plat.dmaCoherent = true := hd
    simpa [hd'] using hc hd'

theorem inv_memLoad (s t : State) (a : Nat) (h : Inv s) (ht : memLoad s a = .next t) : Inv t := by
  simp only [memLoad] at ht
  split at ht
  · cases ht
  split at ht
  · cases ht
  split at ht <;> cases ht <;> exact h

theorem inv_leaveCaches (s : State) (r : Region) (free : Nat → Bool) (h : Inv s) : Inv (leaveCaches s r free) := by
  obtain ⟨hw, hb, hbusy, hjob, hr, hu, hc⟩ := h
  obtain ⟨hplat, hregs, -, hhost, hmem⟩ := leaveCaches_frame s r free
  have hsub : ∀ a ∈ (leaveCaches s r free).host.uncleaned, a ∈ s.host.uncleaned := by
    intro a ha
    rw [hhost] at ha
    exact (List.mem_filter.mp ha).1
  refine ⟨scrambleList_wf _ _ hw, ?_, ?_, ?_, by rw [hregs]; exact hr, fun a ha => ?_, fun hd => ?_⟩
  · intro c hcm
    rw [hplat]
    rcases mem_scrambleList _ _ _ hcm with hcm | hcm
    · exact hu _ (List.mem_filter.mp (List.mem_filter.mp hcm).1).1
    · exact hb c hcm
  · rw [hregs, hbusy]
    rcases leaveCaches_eng s r free with ⟨-, he⟩ | ⟨j, hj, he⟩ <;> rw [he]
    rw [hj]
    rfl
  · intro j hj
    rw [hregs]
    rcases leaveCaches_eng s r free with ⟨hno, he⟩ | ⟨j0, hj0, he⟩ <;> rw [he] at hj
    · obtain ⟨h1, h2, h3, h4, h5⟩ := hjob j hj
      refine ⟨h1, h2, h3, h4, jobOk_of_mem s _ j h5 hplat ?_ fun a ha => h5.2.2.2.2.2.2.2.2 a (hsub a ha)⟩
      intro a ha
      refine hmem a fun hm => ?_
      have := hno a hm.1 hm.2.1
      rw [hj] at this
      exact absurd ha (by simpa [Engine.touches] using this)
    · cases hj
      obtain ⟨h1, h2, h3, h4, h5⟩ := hjob j0 hj0
      exact ⟨h1, h2, h3, h4, jobOk_disturb s _ j0 h5 hplat⟩
  · rw [hplat]
    exact hu a (hsub a ha)
  · rw [hplat] at hd
    rw [hhost]
    simp [hc hd]

theorem inv_cacheClean (s : State) (r : Region) (h : Inv s) : Inv (cacheClean s r) := inv_leaveCaches s r _ h

theorem inv_cacheInvalidate (s : State) (r : Region) (h : Inv s) : Inv (cacheInvalidate s r) := by
  obtain ⟨hw, hb, hbusy, hjob, hr, hu, hc⟩ := inv_leaveCaches s r (fun a => !s.host.stale.contains a) h
  refine ⟨hw, hb, hbusy, hjob, hr, hu, fun hd => ?_⟩
  obtain ⟨h1, h2⟩ := hc hd
  refine ⟨h1, ?_⟩
  show ((leaveCaches s r _).host.stale.filter _) = []
  rw [h2]
  rfl

/-! ### Commands -/

/-- A validation report is one of the table of R200. -/
theorem validate_report (p : Platform) (sh : Shape) (snap : Params) (r : Report) (h : validate p sh snap = some r) : r.Ok := by
  simp only [validate, firstOf_eq_some_iff] at h
  rcases h with h | ⟨-, h | ⟨-, h | ⟨-, h | ⟨-, h⟩⟩⟩⟩
  · obtain ⟨_, f, _, _, _, hf, rfl⟩ := checkParams_eq_some _ _ _ h
    cases f <;> first | exact report_ok _ _ _ (by decide) | exact absurd hf (by simp [illegalParam])
  · simp only [checkOrder] at h
    split at h <;> cases h
    exact report_ok _ _ _ (by decide)
  · simp only [checkImage] at h
    split at h
    · cases h
      exact report_ok _ _ _ (by decide)
    split at h
    · cases h
      exact report_ok _ _ _ (by decide)
    split at h <;> cases h
    exact report_ok _ _ _ (by decide)
  · simp only [checkRanges] at h
    split at h
    · cases h
      exact report_ok _ _ _ (by decide)
    split at h
    · cases h
      exact report_ok _ _ _ (by decide)
    split at h <;> cases h
    exact report_ok _ _ _ (by decide)
  · simp only [checkTiles] at h
    split at h
    · cases h
    split at h <;> cases h
    exact report_ok _ _ _ (by decide)

/-- The lengths of the opcode map, as R91 lists them. -/
theorem shape_needs (i : Instr) (N : Nat) :
    (shapeOf i).src.bytes N = srcNeed i N ∧ (shapeOf i).dst.bytes N = dstNeed i N := by
  cases i <;> exact ⟨rfl, rfl⟩

/-- A command with work to do has a destination (R185). -/
theorem dstNeed_pos (i : Instr) (p : Params) (h : (shapeOf i).emptyWork p = false) : 0 < dstNeed i p.N := by
  cases i
  case gammalut => exact Nat.zero_lt_succ _
  all_goals
    have hN : p.N ≠ 0 := by
      intro h0
      simp only [Shape.emptyWork, h0, beq_self_eq_true, Bool.and_true, bne_eq_false_iff_eq] at h
      revert h
      decide
    simp only [dstNeed]
    omega

theorem inv_submit (i : Instr) (s : State) (h : Inv s) : Inv (submit (encode i) (shapeOf i) (workOf i) s) := by
  have h' := h
  obtain ⟨hw, hb, hbusy, hjob, hr, hu, hc⟩ := h'
  rcases submit_cases (encode i) (shapeOf i) (workOf i) s with
    ⟨-, h1⟩ | ⟨r, he, hv, h1⟩ | ⟨he, hv, -, h1⟩ | ⟨he, hv, hemp, h1⟩ <;> rw [h1]
  · exact h
  · exact inv_of_idle _ rfl hw hb rfl (reportOk_setError _ _ _ (validate_report _ _ _ _ hv)) hu hc
  · exact inv_of_idle _ he hw hb rfl (reportOk_clear _ rfl rfl rfl) hu hc
  · refine ⟨hw, hb, rfl, ?_, reportOk_clear _ rfl rfl rfl, hu, hc⟩
    intro j hj
    cases hj
    refine ⟨rfl, rfl, rfl, rfl, ?_⟩
    obtain ⟨-, -, v3, v4, -⟩ := (validate_eq_none_iff _ _ _).mp hv
    obtain ⟨-, v32, v33⟩ := (checkImage_eq_none_iff _ _).mp v3
    obtain ⟨v41, v42, v43⟩ := (checkRanges_eq_none_iff _ _ _).mp v4
    obtain ⟨n1, n2⟩ := shape_needs i s.regs.params.N
    have hsrc : (shapeOf i).srcSize s.regs.params = (shapeOf i).src.bytes s.regs.params.N := by
      cases hs : (shapeOf i).hasSrc with
      | true => simp [Shape.srcSize, hs, v32 hs]
      | false =>
        have : (shapeOf i).src = .none := by simpa [Shape.hasSrc] using hs
        simp [Shape.srcSize, hs, this, Extent.bytes]
    have hpos : 0 < s.regs.params.dL := by
      rw [v33, n2]
      exact dstNeed_pos i _ hemp
    refine ⟨⟨i, rfl, rfl, hsrc.trans n1, v33.trans n2, fun _ => rfl⟩, hpos, v42 hpos, ?_, ?_, ⟨nodup_addrRange _ _, ?_⟩,
      ⟨nodup_addrRange _ _, ?_⟩, ?_, ?_⟩
    · intro hs
      have hs' : 0 < (shapeOf i).srcSize s.regs.params := hs
      cases hh : (shapeOf i).hasSrc with
      | false => simp [Shape.srcSize, hh] at hs'
      | true =>
        have he' : (shapeOf i).srcSize s.regs.params = s.regs.params.sL := by simp [Shape.srcSize, hh]
        rw [he'] at hs'
        show s.regs.params.sA + (shapeOf i).srcSize s.regs.params ≤ s.plat.memSize ∧
          (s.regs.params.sA + (shapeOf i).srcSize s.regs.params ≤ s.regs.params.dA ∨ _)
        rw [he']
        exact ⟨v41 hh hs', v43 hh hs' hpos⟩
    · show (workOf i s.regs.params (sourceBytes (shapeOf i) s.mem s.regs.params)).out.length = _
      rw [length_work_out i _ _ (by simp [sourceBytes, hsrc])]
      exact v33.symm
    · intro a ha
      exact (inRange_iff _ _ _).mpr ((mem_addrRange _ _ _).mp ha)
    · intro a ha
      exact (inRange_iff _ _ _).mpr ((mem_addrRange _ _ _).mp ha)
    · intro _ a ha hap
      exact absurd ((mem_addrRange _ _ _).mpr ((inRange_iff _ _ _).mp ha)) hap
    · intro a ha hx
      show s.host.uncleaned.any _ = true
      exact List.any_eq_true.mpr ⟨a, ha, hx⟩

theorem inv_submitIllegal (w : Word) (s : State) (h : Inv s) : Inv (submitIllegal w s) := by
  have h' := h
  obtain ⟨hw, hb, hbusy, hjob, hr, hu, hc⟩ := h'
  rcases submitIllegal_cases w s with ⟨-, h1⟩ | ⟨he, h1⟩ <;> rw [h1]
  · exact h
  · exact inv_of_idle _ rfl hw hb rfl (reportOk_setError _ _ _ (report_ok _ _ _ (by decide))) hu hc

end Sys2Proof.Machine
end

