-- ==== Sys2Proof/Laws/PerInstr.lean ====
section
/-! SUPPORT. The family of statements about every command as syntax, with one lemma for each command. -/

namespace Sys2Proof.Laws.DecodesToItself

/-- The command is well formed, its word is its opcode (R91), and the decoder reads it back from its word (R93). -/
def Statement (i : Instr) : Prop :=
  i.wellFormed = true ∧ encode i = i.opcode.setWidth 32 ∧ decode (encode i) = .ok i

theorem rgb2lab : Statement .rgb2lab := ⟨rfl, rfl, rfl⟩
theorem lab2rgb : Statement .lab2rgb := ⟨rfl, rfl, rfl⟩
theorem rgb2hsv : Statement .rgb2hsv := ⟨rfl, rfl, rfl⟩
theorem hsv2rgb : Statement .hsv2rgb := ⟨rfl, rfl, rfl⟩
theorem clahe : Statement .clahe := ⟨rfl, rfl, rfl⟩
theorem gammalut : Statement .gammalut := ⟨rfl, rfl, rfl⟩
theorem gamma : Statement .gamma := ⟨rfl, rfl, rfl⟩
theorem bright : Statement .bright := ⟨rfl, rfl, rfl⟩
theorem satboost : Statement .satboost := ⟨rfl, rfl, rfl⟩
theorem enhance : Statement .enhance := ⟨rfl, rfl, rfl⟩

end Sys2Proof.Laws.DecodesToItself
end

