-- ==== Sys2Proof/Tests/Slice0.lean ====
section
/-! SUPPORT. Tests: the smoke tests of the well-formedness checks, the words of the opcode map, the vectors of spec section 95
(each named in its comment), single steps on small states, and, for every statement with hypotheses, a state that meets them. -/

namespace Sys2Proof.Tests

open Sys2Proof Sys2Proof.Machine

/-! ### Well-formedness and decoding -/

/-- An ill-formed form for each check: the check refuses it and `wellFormed` does too (R92). -/
theorem test_reserved_bits_refused :
    (CMD32.mk 0x05#8 1#24).reservedZero = false ∧ (CMD32.mk 0x05#8 1#24).wellFormed = false := by decide

theorem test_opcode_zero_refused :
    (CMD32.mk 0x00#8 0#24).opNonzero = false ∧ (CMD32.mk 0x00#8 0#24).wellFormed = false := by decide

theorem test_undefined_opcode_refused :
    (CMD32.mk 0x0B#8 0#24).opDefined = false ∧ (CMD32.mk 0x0B#8 0#24).wellFormed = false := by decide

/-- The words of R91, written out bit by bit; V-E1, V-E2. -/
theorem test_word_rgb2lab : decode 0b00000000000000000000000000000001#32 = .ok .rgb2lab := by decide
theorem test_word_lab2rgb : decode 0b00000000000000000000000000000010#32 = .ok .lab2rgb := by decide
theorem test_word_rgb2hsv : decode 0b00000000000000000000000000000011#32 = .ok .rgb2hsv := by decide
theorem test_word_hsv2rgb : decode 0b00000000000000000000000000000100#32 = .ok .hsv2rgb := by decide
theorem test_word_clahe : decode 0b00000000000000000000000000000101#32 = .ok .clahe := by decide
theorem test_word_gammalut : decode 0b00000000000000000000000000000110#32 = .ok .gammalut := by decide
theorem test_word_gamma : decode 0b00000000000000000000000000000111#32 = .ok .gamma := by decide
theorem test_word_bright : decode 0b00000000000000000000000000001000#32 = .ok .bright := by decide
theorem test_word_satboost : decode 0b00000000000000000000000000001001#32 = .ok .satboost := by decide
theorem test_word_enhance : decode 0b00000000000000000000000000001010#32 = .ok .enhance := by decide

/-- V-E3 to V-E7. -/
theorem test_illegal_words :
    decode 0x00000000#32 = .error .opZero ∧ decode 0x0000000B#32 = .error .opUndefined ∧
    decode 0x000000FF#32 = .error .opUndefined ∧ decode 0x00000105#32 = .error .reservedNonzero ∧
    decode 0x80000007#32 = .error .reservedNonzero := by decide

theorem test_decodeTableWord :
    decodeTableWord 32 0x0A = some .enhance ∧ decodeTableWord 32 0x10A = none ∧ decodeTableWord 32 (2 ^ 32 + 1) = none := by
  decide

/-! ### Pixels, tables and planes -/

/-- V-L6 and V-L10. -/
theorem test_rgb2lab_px :
    rgbToLabPx (255#8, 0#8, 0#8) = (136#8, 208#8, 195#8) ∧ rgbToLabPx (26#8, 246#8, 248#8) = (225#8, 82#8, 113#8) := by
  decide +kernel

/-- V-R6 (out of gamut) and V-R9. -/
theorem test_lab2rgb_px :
    labToRgbPx (0#8, 0#8, 0#8) = (0#8, 64#8, 194#8) ∧ labToRgbPx (100#8, 200#8, 60#8) = (143#8, 21#8, 206#8) := by
  decide +kernel

/-- V-H4 (the hue wraps) and V-H5 (a tie). -/
theorem test_rgb2hsv_px :
    rgbToHsvPx (255#8, 0#8, 1#8) = (0#8, 255#8, 255#8) ∧ rgbToHsvPx (2#8, 1#8, 1#8) = (0#8, 128#8, 2#8) := by
  decide +kernel

/-- V-K2 (sector 5) and V-K9. -/
theorem test_hsv2rgb_px :
    hsvToRgbPx (255#8, 255#8, 255#8) = (255#8, 0#8, 6#8) ∧ hsvToRgbPx (14#8, 191#8, 200#8) = (200#8, 99#8, 50#8) := by
  decide +kernel

/-- V-C1 (a tie in the mapping). -/
theorem test_clahe_single_tile :
    claheMap { Params.reset with height := 2#32, width := 2#32 } [0#8, 64#8, 128#8, 255#8] = [64#8, 128#8, 191#8, 255#8] := by
  decide +kernel

/-- V-C15 (padding on both sides, 2×3 tiles), pixel (1, 4). -/
theorem test_clahe_padded :
    (claheMap { Params.reset with height := 3#32, width := 5#32, tileRows := 2#32, tileCols := 2#32 }
      [3#8, 200#8, 17#8, 90#8, 45#8, 250#8, 0#8, 128#8, 64#8, 33#8, 7#8, 7#8, 7#8, 7#8, 7#8]).getD 9 0#8 = 183#8 := by
  decide +kernel

/-- V-G1 and V-G5, the entries at 1, 40 and 254. -/
theorem test_gammalut_entries :
    [1, 40, 254].map (gammaEntry (f32 0x3F99999A#32)) = [3#8, 54#8, 254#8] ∧
    [1, 40, 254].map (gammaEntry (f32 0x40200000#32)) = [28#8, 122#8, 255#8] := by decide +kernel

/-- V-G6 and V-G7: the smallest and the largest parameter. -/
theorem test_gamma_extremes :
    gammaEntry (f32 0x00000001#32) 254 = 0#8 ∧ gammaEntry (f32 0x7F7FFFFF#32) 1 = 255#8 := by decide +kernel

/-- V-B1, V-B2 and V-B3. -/
theorem test_bright_px :
    [1#8, 3#8, 5#8, 170#8].map (brightPx (f32 0x3FC00000#32)) = [2#8, 4#8, 8#8, 255#8] ∧
    [183#8, 231#8].map (brightPx (f32 0x3F8CCCCD#32)) = [201#8, 254#8] ∧
    [1#8, 255#8].map (brightPx (f32 0x3F000000#32)) = [0#8, 128#8] := by decide +kernel

/-- V-S1, V-S4 (bypassed) and V-S5 (not bypassed). -/
theorem test_satboost_px :
    satPx (f32 0x3F8CCCCD#32) (200#8, 100#8, 50#8) = (200#8, 89#8, 35#8) ∧
    satPx (f32 0x3F800000#32) (200#8, 100#8, 50#8) = (200#8, 100#8, 50#8) ∧
    satPx (f32 0x3F800001#32) (200#8, 100#8, 50#8) = (200#8, 99#8, 50#8) := by decide +kernel

/-- V-P3: the image of V-P2 in BGR order. -/
theorem test_enhance_bgr :
    (enhanceWork { Params.reset with height := 2#32, width := 2#32, channelOrder := 1#32 }
      [50#8, 100#8, 200#8, 30#8, 20#8, 10#8, 255#8, 255#8, 255#8, 0#8, 0#8, 0#8]).out =
      [120#8, 180#8, 255#8, 164#8, 150#8, 138#8, 255#8, 255#8, 255#8, 82#8, 82#8, 82#8] := by decide +kernel

/-- The expansions of R96: `SETF GAMMA, 1.2`, `SETF BRIGHTNESS, -1` and `CLEAR`. -/
theorem test_assembly :
    assemble Config.platform (.setf .gamma (12 / 10)) = [.regWrite 0x04C 4 0x3F99999A#32] ∧
    assemble Config.platform (.setf .brightness (-1)) = [.regWrite 0x050 4 0xBF800000#32] ∧
    assemble Config.platform .clear = [.regWrite 0x00C 4 0x0000000E#32] := by decide +kernel

/-! ### Single steps -/

/-- The step answers a next state of which `p` holds. -/
def nextHas (o : Host.Outcome State Fault Refusal) (p : State → Bool) : Bool :=
  match o with
  | .next t => p t
  | .fault _ => false
  | .refused _ => false

/-- V-X3: with the reset geometry the work is empty. -/
theorem test_first_step_enhance : nextHas (step (State.reset.withFetchWord 32 0x0A))
    (fun t => t.regs.status.toWord == 0x00000002#32 && t.regs.cmd == 0x0000000A#32 && t.eng == .idle) = true := by
  decide +kernel

/-- V-X4. -/
theorem test_first_step_gammalut : nextHas (step (State.reset.withFetchWord 32 0x06))
    (fun t => t.regs.status.toWord == 0x00000006#32 && t.regs.errCode == 2#32 && t.regs.errField == 0x03C#32) = true := by
  decide +kernel

/-- V-X1. -/
theorem test_first_step_illegal : nextHas (step (State.reset.withFetchWord 32 0x00))
    (fun t => t.regs.status.toWord == 0x00000006#32 && t.regs.errCode == 4#32 && t.regs.errField == 0x010#32) = true := by
  decide +kernel

/-- A state with these parameter registers on a platform with `memTop + 1` bytes of memory, right after reset otherwise. -/
def stateWith (memTop : Word) (p : Params) : State :=
  (State.resetOn { Config.platform with memTop := memTop }).setRegs { Regs.reset with params := p }

/-- The registers of a one-pixel image whose source ends at the last byte of six and whose destination ends where the source
begins. -/
def imgParams : Params :=
  { Params.reset with
    height := 1#32, width := 1#32, srcAddr := 3#32, srcLen := 3#32, dstAddr := 0#32, dstLen := 3#32 }

/-- The registers of a one-pixel plane, whose two ranges fill a memory of two bytes. -/
def planeParams : Params :=
  { Params.reset with
    height := 1#32, width := 1#32, srcAddr := 0#32, srcLen := 1#32, dstAddr := 1#32, dstLen := 1#32 }

/-- The registers of a table that fills a memory of 256 bytes, with values in the registers that `GAMMALUT` ignores which no
other command would take. -/
def tableParams : Params :=
  { Params.reset with
    height := 0xFFFFFFFF#32, width := 0xFFFFFFFF#32, channels := 7#32, channelOrder := 9#32, srcAddr := 0xFFFFFFFF#32,
    srcLen := 5#32, dstAddr := 0#32, dstLen := 256#32 }

def imgState : State := stateWith 5#32 imgParams
def planeState : State := stateWith 1#32 planeParams
def tableState : State := stateWith 255#32 tableParams

/-- The report registers after a `CMD` write of `w`. -/
def reportOf (w : Nat) (s : State) : List Word :=
  match step (s.withFetchWord 32 w) with
  | .next t => [t.regs.status.toWord, t.regs.errCode, t.regs.errField, t.regs.errValue]
  | .fault _ => []
  | .refused _ => []

/-- Accepted commands are busy, whatever they ignore: V-X16 and V-X23 in small. -/
theorem test_accepted :
    [1, 2, 3, 4, 9, 10].map (fun w => reportOf w imgState) = List.replicate 6 [1#32, 0#32, 0#32, 0#32] ∧
    [5, 7, 8].map (fun w => reportOf w (stateWith 1#32 { planeParams with channels := 4#32 })) =
      List.replicate 3 [1#32, 0#32, 0#32, 0#32] ∧
    reportOf 6 tableState = [1#32, 0#32, 0#32, 0#32] := by decide +kernel

/-- V-X10, V-X13 and V-X14: the order of the checks. -/
theorem test_check_order :
    reportOf 5 (stateWith 0xFFFF#32 { Params.reset with clipLimit := 0x7F800000#32, tileRows := 0#32 }) =
      [6#32, 1#32, 0x040#32, 0x7F800000#32] ∧
    reportOf 10 (stateWith 0xFFFF#32 { Params.reset with channelOrder := 2#32, gamma := 0#32 }) =
      [6#32, 1#32, 0x04C#32, 0#32] ∧
    reportOf 10 (stateWith 0xFFFF#32 { Params.reset with channelOrder := 2#32, channels := 4#32 }) =
      [6#32, 3#32, 0x02C#32, 2#32] := by decide +kernel

/-- V-X20, V-X21 and V-X24: no wrap, an overlap of one byte, and too many tiles. -/
theorem test_range_checks :
    reportOf 8 (stateWith 0xFFFFFFFF#32 { Params.reset with
      height := 1#32, width := 4#32, srcAddr := 0xFFFFFFFF#32, srcLen := 4#32, dstAddr := 0x100#32, dstLen := 4#32 }) =
      [6#32, 6#32, 0x030#32, 0xFFFFFFFF#32] ∧
    reportOf 7 (stateWith 0xFFFF#32 { Params.reset with
      height := 1#32, width := 4#32, srcAddr := 0x1000#32, srcLen := 4#32, dstAddr := 0x1003#32, dstLen := 4#32 }) =
      [6#32, 5#32, 0x038#32, 0x1003#32] ∧
    reportOf 5 ((State.resetOn { Config.platform with maxTiles := some 3 }).setRegs { Regs.reset with params :=
      { Params.reset with
        height := 9#32, width := 9#32, srcAddr := 0x1000#32, srcLen := 81#32, dstAddr := 0x2000#32, dstLen := 81#32 } }) =
      [6#32, 7#32, 0x044#32, 8#32] := by decide +kernel

/-! ### Witnesses: states that meet the hypotheses of the statements -/

/-- The command `i` taken in `s`. -/
def taken (i : Instr) (s : State) : State := submit (encode i) (shapeOf i) (workOf i) s

/-- A running `BRIGHT` on one byte at address 0, with byte 1 as its destination. -/
def busyState : State := taken .bright planeState

/-- Its job. -/
def busyJob : Job := newJob (encode .bright) brightShape brightWork planeState

theorem planeState_valid : validate planeState.plat brightShape planeState.regs.params = none := by decide +kernel

theorem busyState_eng : busyState.eng = .busy busyJob := by
  show (submit (encode .bright) brightShape brightWork planeState).eng = _
  rw [submit_of_start _ _ _ _ rfl planeState_valid (by decide)]
  rfl

theorem inv_stateWith (m : Word) (p : Params) : Inv (stateWith m p) :=
  inv_of_idle _ rfl rfl (fun _ h => by cases h) rfl reportOk_reset (fun _ h => by cases h) (fun _ => ⟨rfl, rfl⟩)

theorem busyState_inv : Inv busyState := inv_submit .bright planeState (inv_stateWith _ _)

/-- Its work written: nothing is left in `pend`. -/
def writtenState : State :=
  (busyState.setMem (busyState.mem.set 1 (busyJob.valueAt 1))).setEng (.busy { busyJob with pend := busyJob.pend.erase 1 })

/-- Its job. -/
def writtenJob : Job := { busyJob with pend := busyJob.pend.erase 1 }

theorem busyState_plat : busyState.plat = planeState.plat := by
  show (submit (encode .bright) brightShape brightWork planeState).plat = _
  rw [submit_of_start _ _ _ _ rfl planeState_valid (by decide)]
  rfl

theorem busyState_write : engineWrite busyState busyJob 1 = .next writtenState := by
  unfold engineWrite
  rw [busyState_plat]
  rfl

theorem writtenState_inv : Inv writtenState :=
  inv_engineWrite _ _ _ 1 busyState_inv busyState_eng busyState_write

/-- The running command, its source byte overwritten by another agent. -/
def disturbedState : State := (busyState.setMem (busyState.mem.set 0 7#8)).setEng (.busy { busyJob with disturbed := true })

/-- A platform with `dmaCoherent` false, where the host has stored to the source of `BRIGHT` and not cleaned it. -/
def uncleanState : State :=
  ((State.resetOn { Config.platform with dmaCoherent := false }).setRegs { Regs.reset with params := planeParams }).setHost
    { HostSide.reset with uncleaned := [0] }

/-- A platform on which both bytes of memory fault. -/
def faultPlat : Platform := { Config.platform with memTop := 1#32, faulting := [{ base := 0, size := 2 }] }

/-- The machine there, ready for `BRIGHT`. -/
def faultBase : State := (State.resetOn faultPlat).setRegs { Regs.reset with params := planeParams }

/-- `BRIGHT` running there. -/
def faultState : State := taken .bright faultBase

/-- Its job. -/
def faultJob : Job := newJob (encode .bright) brightShape brightWork faultBase

theorem faultState_eq : faultState = ((State.resetOn faultPlat).setRegs { Regs.reset with
    params := planeParams, cmd := 8#32, status := { Status.reset with busy := true } }).setEng (.busy faultJob) := by
  show submit (encode .bright) brightShape brightWork faultBase = _
  rw [submit_of_start _ _ _ _ rfl (by decide +kernel) (by decide)]
  rfl

theorem faultState_inv : Inv faultState :=
  inv_submit .bright _ (inv_of_idle _ rfl rfl (fun _ h => by cases h) rfl reportOk_reset (fun _ h => by cases h)
    (fun _ => ⟨rfl, rfl⟩))

theorem witness_EitherResetLeavesTheResetState :
    (∃ w : Word, w.getLsbD 1 = true ∧
      Event.regWrite (busyState.plat.regBase + 0x008) 4 0x00000002#32 = .regWrite (busyState.plat.regBase + 0x008) 4 w) ∧
    busyState.eng = .busy busyJob ∧ busyJob.inDst 0 = false ∧ planeState.eng = .idle :=
  ⟨⟨_, by decide, rfl⟩, busyState_eng, by decide, rfl⟩

theorem witness_IdentityRegistersAreConstant : (0x000 : Nat) = 0x000 ∨ (0x000 : Nat) = 0x004 := by decide

theorem witness_CtrlWriteSetsEnableOrResets :
    (0x00000001#32).getLsbD 1 = false ∧ (0xFFFFFFFD#32).getLsbD 1 = false ∧ (0x00000002#32).getLsbD 1 = true := by decide

theorem witness_ParameterWriteReadsBack :
    0x020 ≤ Reg.height.offset ∧ 0x020 ≤ Reg.saturation.offset ∧ Reg.height ≠ Reg.saturation := by decide

theorem witness_ReadsAndIgnoredWrites :
    (0 < 4096 ∧ 0 % 4 = 0) ∧ (0xFFC < 4096 ∧ 0xFFC % 4 = 0 ∧ 0x058 ≤ 0xFFC) ∧ (0x058 < 4096 ∧ 0x058 % 4 = 0) ∧
    (0x01C < 4096 ∧ 0x01C % 4 = 0) := by decide

/-- A state on a platform whose register block starts at 4096. -/
def highBlockState : State := State.resetOn { Config.platform with regBase := 4096 }

/-- Half a word at `CMD`, the last byte and one past it, and four bytes of which two lie below the block. -/
theorem witness_UndefinedAccessChangesNoRegister :
    [(4096 + 0x010, 2), (4096 + 4095, 4), (4094, 4)].all (fun x =>
      decide (x.1 < highBlockState.plat.regBase + 4096) &&
      decide (highBlockState.plat.regBase ≤ x.1 ∨ highBlockState.plat.regBase < x.1 + x.2) &&
      decide ¬(highBlockState.plat.regBase ≤ x.1 ∧ x.2 = 4 ∧ (x.1 - highBlockState.plat.regBase) % 4 = 0)) = true := by
  decide

/-- How accesses fall at the two edges of the block (R39, R60; log entry 12). -/
theorem test_access_at_the_edges :
    [(4092, 4), (4093, 4), (4096, 4), (8188, 4), (8189, 4), (8192, 4)].map
        (fun x => accessOf highBlockState.plat x.1 x.2) =
      [.outside, .undefinedForm, .word 0, .word 0xFFC, .undefinedForm, .outside] := by decide

theorem witness_DecodeIsTotal :
    ¬((0x0B#32).extractLsb' 8 24 = 0#24 ∧ 0x01 ≤ ((0x0B#32).extractLsb' 0 8).toNat ∧
      ((0x0B#32).extractLsb' 0 8).toNat ≤ 0x0A) := by decide

theorem witness_EncodeDecodeRoundTrip : decode 0x0000000A#32 = .ok .enhance := by decide

theorem witness_IllegalWordIsReported : planeState.eng = .idle ∧
    (0x00000105#32).extractLsb' 8 24 ≠ 0#24 ∧ (0x00000000#32).extractLsb' 0 8 = 0x00#8 ∧
    0x0B ≤ ((0x0000000B#32).extractLsb' 0 8).toNat := ⟨rfl, by decide, by decide, by decide⟩

theorem witness_StepRunsTheFetchedCommand :
    (planeState.setAgenda [.regWrite (planeState.plat.regBase + 0x010) 4 8#32, .engAuto]).agenda =
      .regWrite (planeState.plat.regBase + 0x010) 4 8#32 :: [.engAuto] ∧ decode 8#32 = .ok .bright ∧
    (∀ addr size w, Event.regWrite (planeState.plat.regBase + 0x00C) 4 0#32 = .regWrite addr size w →
      accessOf planeState.plat addr size ≠ .word 0x010) ∧
    planeState.agenda = [] :=
  ⟨rfl, by decide, by rintro a b c ⟨⟩; decide, rfl⟩

theorem witness_OverrunDiscardsTheWord : busyState.eng = .busy busyJob := busyState_eng

theorem witness_IllegalParameterConditions : 0x040 ≤ Reg.clipLimit.offset ∧ 0x040 ≤ Reg.saturation.offset := by decide

theorem witness_ValidationPassesExactlyLegalCommands :
    validate planeState.plat (shapeOf .bright) planeState.regs.params = none ∧
    validate planeState.plat (shapeOf .rgb2lab) planeState.regs.params ≠ none := ⟨planeState_valid, by decide +kernel⟩

theorem witness_FirstFailingCheckIsReported : planeState.eng = .idle ∧
    firstFailure planeState.plat .bright planeState.regs.params = none ∧
    firstFailure planeState.plat .rgb2lab planeState.regs.params =
      some { code := .invalidImage, field := .srcLen, value := 1#32 } := ⟨rfl, by decide +kernel, by decide +kernel⟩

theorem witness_ValidationErrorReport : planeState.eng = .idle ∧
    validate planeState.plat (shapeOf .gammalut) planeState.regs.params =
      some { code := .invalidImage, field := .dstLen, value := 1#32 } ∧ decode 0x00000006#32 = .ok .gammalut ∧
    decode 0x00000100#32 = .error .reservedNonzero := ⟨rfl, by decide +kernel, by decide, by decide⟩

/-- A legal empty image: `H` at its largest value and `W = 0`. -/
def emptyState : State := stateWith 0#32 { Params.reset with height := 0xFFFFFFFF#32 }

theorem witness_EmptyWorkCompletesAtOnce :
    (emptyState.eng = .idle ∧ Instr.rgb2lab ≠ .gammalut ∧ emptyState.regs.params.N = 0 ∧
      Legal emptyState.plat .rgb2lab emptyState.regs.params) ∧
    (tableState.eng = .idle ∧ Legal tableState.plat .gammalut tableState.regs.params) := by
  refine ⟨⟨rfl, by decide, by decide, trivial, fun _ => ⟨.inl rfl, rfl⟩, fun _ => rfl, rfl, fun _ h => ?_, fun h => ?_,
    fun _ h => ?_, fun _ h => ?_⟩, rfl, ⟨rfl, by decide +kernel⟩, fun h => ?_, fun h => absurd rfl h, rfl, fun h => absurd rfl h,
    fun _ => by decide, fun h => absurd rfl h, fun h => ?_⟩
  · exact absurd h (by decide)
  · exact absurd h (by decide)
  · exact absurd h (by decide)
  · exact absurd h (by decide)
  · cases h
  · rcases h with h | h <;> cases h

theorem imgState_ready : imgState.eng = .idle ∧ ImageOk imgState.regs.params ∧ 0 < imgState.regs.params.N ∧
    imgState.regs.params.sL = 3 * imgState.regs.params.N ∧ imgState.regs.params.dL = 3 * imgState.regs.params.N ∧
    RangesOk imgState.plat imgState.regs.params ∧ Undisturbed imgState (3 * imgState.regs.params.N) :=
  ⟨rfl, ⟨.inl rfl, rfl⟩, by decide, rfl, rfl, ⟨by decide, by decide, .inr (by decide)⟩, rfl,
    fun _ _ => ⟨rfl, rfl⟩, fun _ _ => List.not_mem_nil⟩

theorem planeState_ready : planeState.eng = .idle ∧ 0 < planeState.regs.params.N ∧
    planeState.regs.params.sL = planeState.regs.params.N ∧ planeState.regs.params.dL = planeState.regs.params.N ∧
    RangesOk planeState.plat planeState.regs.params ∧ Undisturbed planeState planeState.regs.params.N :=
  ⟨rfl, by decide, rfl, rfl, ⟨by decide, by decide, .inl (by decide)⟩, rfl, fun _ _ => ⟨rfl, rfl⟩, fun _ _ => List.not_mem_nil⟩

/-- The default parameters are legal. -/
theorem defaults_legal : PositiveF32 Params.reset.clipLimit ∧ PositiveF32 Params.reset.gamma ∧
    PositiveF32 Params.reset.brightness ∧ NonnegF32 Params.reset.saturation ∧ 1 ≤ s32 Params.reset.tileRows ∧
    1 ≤ s32 Params.reset.tileCols :=
  ⟨⟨rfl, by decide +kernel⟩, ⟨rfl, by decide +kernel⟩, ⟨rfl, by decide +kernel⟩, ⟨rfl, by decide +kernel⟩, by decide, by decide⟩

theorem tilesOk_stateWith (s : State) (h : s.plat.maxTiles = none) (hc : s.regs.params.clipLimit = Params.reset.clipLimit)
    (hr : s.regs.params.tileRows = Params.reset.tileRows) (ht : s.regs.params.tileCols = Params.reset.tileCols) :
    TilesOk s.plat s.regs.params := by
  refine ⟨hc ▸ defaults_legal.1, hr ▸ defaults_legal.2.2.2.2.1, ht ▸ defaults_legal.2.2.2.2.2, fun l hl => ?_⟩
  rw [h] at hl
  cases hl

theorem witness_Rgb2labWritesLabPlanes : imgState.eng = .idle ∧ ImageOk imgState.regs.params ∧
    0 < imgState.regs.params.N ∧ imgState.regs.params.sL = 3 * imgState.regs.params.N ∧
    imgState.regs.params.dL = 3 * imgState.regs.params.N ∧ RangesOk imgState.plat imgState.regs.params ∧
    Undisturbed imgState (3 * imgState.regs.params.N) := imgState_ready

/-- The same hypotheses as `RGB2LAB`. -/
theorem witness_Lab2rgbWritesImage : imgState.eng = .idle ∧ ImageOk imgState.regs.params :=
  ⟨imgState_ready.1, imgState_ready.2.1⟩

/-- The same hypotheses as `RGB2LAB`. -/
theorem witness_Rgb2hsvWritesHsvPlanes : imgState.eng = .idle ∧ ImageOk imgState.regs.params :=
  ⟨imgState_ready.1, imgState_ready.2.1⟩

/-- The same hypotheses as `RGB2LAB`. -/
theorem witness_Hsv2rgbWritesImage : imgState.eng = .idle ∧ ImageOk imgState.regs.params :=
  ⟨imgState_ready.1, imgState_ready.2.1⟩

/-- With `planeState_ready`. -/
theorem witness_ClaheWritesEqualisedPlane : planeState.eng = .idle ∧ TilesOk planeState.plat planeState.regs.params :=
  ⟨rfl, tilesOk_stateWith _ rfl rfl rfl rfl⟩

theorem witness_GammalutWritesTheTable : tableState.eng = .idle ∧ PositiveF32 tableState.regs.params.gamma ∧
    tableState.regs.params.dL = 256 ∧ tableState.regs.params.dA + 256 ≤ tableState.plat.memSize ∧
    Undisturbed tableState 0 :=
  ⟨rfl, defaults_legal.2.1, rfl, by decide, rfl, fun _ _ => ⟨rfl, rfl⟩, fun _ _ => List.not_mem_nil⟩

/-- With `planeState_ready`. -/
theorem witness_GammaLooksUpEverySample : planeState.eng = .idle ∧ PositiveF32 planeState.regs.params.gamma :=
  ⟨rfl, defaults_legal.2.1⟩

/-- With `planeState_ready`. -/
theorem witness_BrightScalesEverySample : planeState.eng = .idle ∧ PositiveF32 planeState.regs.params.brightness :=
  ⟨rfl, defaults_legal.2.2.1⟩

/-- With `imgState_ready`. -/
theorem witness_SatboostScalesSaturation : imgState.eng = .idle ∧ NonnegF32 imgState.regs.params.saturation :=
  ⟨rfl, defaults_legal.2.2.2.1⟩

/-- With `imgState_ready`. -/
theorem witness_EnhanceRunsThePipeline : TilesOk imgState.plat imgState.regs.params ∧
    PositiveF32 imgState.regs.params.gamma ∧ PositiveF32 imgState.regs.params.brightness ∧
    NonnegF32 imgState.regs.params.saturation :=
  ⟨tilesOk_stateWith _ rfl rfl rfl rfl, defaults_legal.2.1, defaults_legal.2.2.1, defaults_legal.2.2.2.1⟩

/-- Everything but the parameters, for `BRIGHT` on the two bytes of `planeParams`. -/
theorem planeParams_legal (plat : Platform) (h : 2 ≤ plat.memSize) : Legal plat .bright planeParams := by
  refine ⟨defaults_legal.2.2.1, fun h => (by cases h), fun _ => rfl, rfl, fun _ _ => ?_, fun _ => ?_, fun _ _ _ => .inl ?_,
    fun h => (by rcases h with h | h <;> cases h)⟩
  · exact Nat.le_trans (show planeParams.sA + planeParams.sL ≤ 2 by decide) h
  · exact Nat.le_trans (show planeParams.dA + planeParams.dL ≤ 2 by decide) h
  · decide

theorem planeState_legal : Legal planeState.plat .bright planeState.regs.params := planeParams_legal _ (by decide)

theorem witness_EveryLegalCommandRunsToCompletion : planeState.eng = .idle ∧
    Legal planeState.plat .bright planeState.regs.params ∧ (Instr.bright = .gammalut ∨ 0 < planeState.regs.params.N) ∧
    Undisturbed planeState (srcNeed .bright planeState.regs.params.N) :=
  ⟨rfl, planeState_legal, .inr (by decide), planeState_ready.2.2.2.2.2⟩

theorem witness_CompletionStep :
    (Inv busyState ∧ busyState.eng = .busy busyJob ∧ busyJob.pend ≠ []) ∧
    (Inv writtenState ∧ writtenState.eng = .busy writtenJob ∧ writtenJob.pend = [] ∧ writtenJob.disturbed = false ∧
      0 < writtenJob.snap.dL ∧ writtenState.plat.dmaCoherent = true ∧
      writtenState.plat.isDevice (writtenJob.snap.dA + 0) = false) :=
  ⟨⟨busyState_inv, busyState_eng, by decide⟩, writtenState_inv, rfl, by decide, rfl, by decide,
    by show busyState.plat.dmaCoherent = true; rw [busyState_plat]; rfl,
    by show busyState.plat.isDevice _ = false; rw [busyState_plat]; rfl⟩

theorem witness_BusFaultEndsTheCommand :
    (Inv faultState ∧ faultState.eng = .busy faultJob ∧ faultState.plat.busFault 0 = true ∧
      faultState.plat.isDevice 0 = false ∧ faultJob.inSrc 0 = true ∧ faultState.plat.busFault 1 = true ∧
      faultState.plat.isDevice 1 = false ∧ faultJob.inDst 1 = true) ∧
    (∃ t, step faultState = .next t ∧ t.regs.errCode = 8#32) := by
  have h := faultState_inv
  rw [faultState_eq] at h ⊢
  exact ⟨⟨h, rfl, by decide, by decide, by decide, by decide, by decide, by decide⟩, _, rfl, rfl⟩

theorem witness_EngineTouchesOnlyItsDestination :
    stepWith (.engWrite 1) busyState = .next writtenState ∧ busyState.eng = .busy busyJob ∧ busyJob.inDst 0 = false := by
  refine ⟨?_, busyState_eng, by decide⟩
  rw [stepWith_other _ _ (by rintro a b c ⟨⟩)]
  simp only [handle, withJob, busyState_eng]
  exact busyState_write

theorem witness_ForeignStoreDisturbsTheCommand :
    (faultState.eng = .busy faultJob ∧ 1 < faultState.plat.memSize ∧ faultState.plat.isDevice 1 = false ∧
      (faultJob.inSrc 1 || faultJob.inDst 1) = true) ∧
    ((disturbedState.setEng (.busy { writtenJob with disturbed := true })).eng =
      .busy { writtenJob with disturbed := true } ∧ writtenJob.pend = []) ∧
    (∃ (s : State) (j : Job), s.eng = .busy j ∧ 2 < s.plat.memSize ∧ s.plat.isDevice 2 = false ∧
      (j.inSrc 2 || j.inDst 2) = false) := by
  refine ⟨by rw [faultState_eq]; exact ⟨rfl, by decide, by decide, by decide⟩, ⟨rfl, by decide⟩,
    (stateWith 2#32 planeParams).setEng (.busy busyJob), busyJob, rfl, by decide, by decide, by decide⟩

theorem witness_HostLoadsWhatWasStored :
    (Inv planeState ∧ planeState.eng = .idle ∧ 1 < planeState.plat.memSize ∧ planeState.plat.isDevice 1 = false) ∧
    (faultState.eng.writing 0 = false ∧ 0 < faultState.plat.memSize ∧ 0 ∉ faultState.host.stale) ∧
    (faultState.eng = .busy faultJob ∧ 1 < faultState.plat.memSize ∧ faultJob.inDst 1 = true) := by
  rw [faultState_eq]
  exact ⟨⟨inv_stateWith _ _, rfl, by decide, rfl⟩, ⟨by decide, by decide, List.not_mem_nil⟩, rfl, by decide, by decide⟩

theorem uncleanState_legal : Legal uncleanState.plat .bright uncleanState.regs.params := planeParams_legal _ (by decide)

/-- A platform that is not coherent, the host's store of 9 to the destination of `BRIGHT` still in its caches. -/
def incoherentBase : State :=
  (((State.resetOn { Config.platform with dmaCoherent := false, memTop := 1#32 }).setRegs
    { Regs.reset with params := planeParams }).setHost { HostSide.reset with uncleaned := [1] }).setMem [(0, 100#8), (1, 9#8)]

theorem incoherentBase_inv : Inv incoherentBase :=
  inv_of_idle _ rfl (by decide) (by decide) rfl reportOk_reset (by decide) (fun h => by cases h)

/-- `BRIGHT` taken there. -/
def incoherentBusy : State := taken .bright incoherentBase

/-- Its job. -/
def incoherentJob : Job := newJob (encode .bright) brightShape brightWork incoherentBase

theorem incoherentBusy_eq : incoherentBusy = (incoherentBase.setRegs { Regs.reset with
    params := planeParams, cmd := 8#32, status := { Status.reset with busy := true } }).setEng (.busy incoherentJob) := by
  show submit (encode .bright) brightShape brightWork incoherentBase = _
  rw [submit_of_start _ _ _ _ rfl (by decide +kernel) (by decide)]
  rfl

theorem incoherentBusy_inv : Inv incoherentBusy := inv_submit .bright _ incoherentBase_inv

/-- Its byte written. -/
def incoherentWritten : State :=
  (incoherentBusy.setMem (incoherentBusy.mem.set 1 (incoherentJob.valueAt 1))).setEng
    (.busy { incoherentJob with pend := incoherentJob.pend.erase 1 })

theorem incoherentWritten_inv : Inv incoherentWritten :=
  inv_engineWrite incoherentBusy incoherentWritten incoherentJob 1 incoherentBusy_inv
    (by rw [incoherentBusy_eq]; rfl) (by unfold engineWrite incoherentWritten; rw [incoherentBusy_eq]; rfl)

/-- The last clause at the first byte of its range and past it, with an uncleaned byte of the destination. -/
theorem witness_CacheMaintenance :
    (uncleanState.eng = .idle ∧ Legal uncleanState.plat .bright uncleanState.regs.params ∧
      (Instr.bright = .gammalut ∨ 0 < uncleanState.regs.params.N) ∧
      ∃ a ∈ uncleanState.host.uncleaned,
        inRange uncleanState.regs.params.sA (srcNeed .bright uncleanState.regs.params.N) a = true) ∧
    (∃ j : Job, Inv incoherentWritten ∧ incoherentWritten.eng = .busy j ∧ j.pend = [] ∧ j.disturbed = false ∧
      incoherentWritten.plat.dmaCoherent = false ∧ (∃ a ∈ incoherentWritten.host.uncleaned, j.inDst a = true) ∧
      ∀ a, j.inDst a = true →
        ({ base := 0, size := 2 } : Region).has a = true ∧ incoherentWritten.plat.isDevice a = false) := by
  refine ⟨⟨rfl, uncleanState_legal, .inr (by decide), 0, List.mem_singleton_self _, by decide⟩,
    { incoherentJob with pend := incoherentJob.pend.erase 1 }, incoherentWritten_inv, rfl, by decide, by decide, ?_, ?_,
    fun a h => ?_⟩
  · show incoherentBusy.plat.dmaCoherent = false
    rw [incoherentBusy_eq]; rfl
  · refine ⟨1, ?_, by decide⟩
    show 1 ∈ incoherentBusy.host.uncleaned
    rw [incoherentBusy_eq]; exact List.mem_singleton_self _
  · have ha : a = 1 := by
      simp [Job.inDst, inRange, incoherentJob, newJob, incoherentBase, planeParams, Params.dA, Params.dL, u32] at h
      omega
    subst ha
    refine ⟨by decide, ?_⟩
    show incoherentBusy.plat.isDevice 1 = false
    rw [incoherentBusy_eq]; rfl

/-- R75's two duties done, the host loads the result: the store it made before the command is dropped (R71, R247). -/
theorem test_invalidate_gives_the_result :
    nextHas (stepWith .engFinish incoherentWritten) (fun t =>
      nextHas (stepWith (.cacheInvalidate { base := 1, size := 1 }) t) (fun u =>
        nextHas (stepWith (.memLoad 1) u) (fun v =>
          v.host.uncleaned == [] && v.host.stale == [] && v.host.ldData == 110#8))) = true := by
  unfold incoherentWritten
  rw [incoherentBusy_eq]
  decide +kernel

/-- Two states, each meeting every hypothesis: one completes, the other ends by a bus fault. -/
theorem witness_BusyEndsWithinABound :
    (Inv faultState ∧ faultState.eng = .busy faultJob ∧ faultJob.cmd = encode .bright ∧ faultState.agenda = [] ∧
      ∀ a, (faultJob.inSrc a || faultJob.inDst a) = true → faultState.plat.isDevice a = false) ∧
    (Inv incoherentBusy ∧ incoherentBusy.eng = .busy incoherentJob ∧ incoherentJob.cmd = encode .bright ∧
      incoherentBusy.agenda = [] ∧
      ∀ a, (incoherentJob.inSrc a || incoherentJob.inDst a) = true → incoherentBusy.plat.isDevice a = false) := by
  have h := faultState_inv
  have g := incoherentBusy_inv
  rw [faultState_eq] at h ⊢
  rw [incoherentBusy_eq] at g ⊢
  exact ⟨⟨h, rfl, rfl, rfl, fun _ _ => rfl⟩, g, rfl, rfl, rfl, fun _ _ => rfl⟩

theorem witness_StepKeepsInvariant : Inv faultState ∧ ∃ t, step faultState = .next t := by
  have h := faultState_inv
  rw [faultState_eq] at h ⊢
  exact ⟨h, _, rfl⟩

theorem witness_EngineChangesOnlyAsRuled :
    (planeState.eng = .idle ∧ ∃ t j, stepWith (.regWrite 0x010 4 8#32) planeState = .next t ∧ t.eng = .busy j) ∧
    (∃ t, stepWith .hardReset faultState = .next t ∧ faultState.eng = .busy faultJob ∧ t.eng = .idle) ∧
    (∃ t j, stepWith (.engWrite 1) busyState = .next t ∧ busyState.eng = .busy busyJob ∧ t.eng = .busy j) := by
  refine ⟨⟨rfl, _, busyJob, stepWith_cmd planeState 8#32, ?_⟩, ?_, _, _, witness_EngineTouchesOnlyItsDestination.1,
    busyState_eng, rfl⟩
  · show (submit (encode .bright) brightShape brightWork (accessOk planeState)).eng = _
    rw [submit_of_start _ _ _ (accessOk planeState) rfl planeState_valid (by decide)]
    rfl
  · rw [faultState_eq]
    exact ⟨_, rfl, rfl, rfl⟩

/-- Another state with the same snapshot and source, which differs elsewhere. -/
def otherState : State := (planeState.setHost { HostSide.reset with rdData := 1#32 }).setRegs
  { planeState.regs with irqEn := true, status := { Status.reset with overrun := true } }

theorem witness_CommandsAreDeterministic : planeState.eng = .idle ∧ otherState.eng = .idle ∧
    planeState.regs.params = otherState.regs.params ∧ Legal planeState.plat .bright planeState.regs.params ∧
    Legal otherState.plat .bright otherState.regs.params ∧ 0 < planeState.regs.params.N ∧
    (∀ a, planeState.mem.byteAt a = otherState.mem.byteAt a) ∧
    Undisturbed planeState (srcNeed .bright planeState.regs.params.N) ∧
    Undisturbed otherState (srcNeed .bright otherState.regs.params.N) :=
  ⟨rfl, rfl, rfl, planeState_legal, planeState_legal, by decide, fun _ => rfl, planeState_ready.2.2.2.2.2,
    rfl, fun _ _ => ⟨rfl, rfl⟩, fun _ _ => List.not_mem_nil⟩

theorem witness_StopsAreOnlyOutsideTheBlock :
    step (planeState.setAgenda [.memLoad 2]) = .fault (.noSuchMemory 2) ∧
    stepWith (.regRead 4096 4) planeState = .fault (.noSuchRegister 4096) ∧
    (4092 < highBlockState.plat.regBase ∧ 4092 + 4 ≤ highBlockState.plat.regBase) ∧
    step ((State.resetOn { Config.platform with devices := [{ base := 5, size := 1 }] }).setAgenda [.memStore 5 0#8]) =
      .refused (.deviceByte 5) := by
  have h : accessOf planeState.plat 4096 4 = .outside := by decide
  refine ⟨rfl, ?_, by decide, rfl⟩
  rw [stepWith_other _ _ (by rintro a b c ⟨⟩)]
  simp only [handle, hostRead, h]

theorem witness_LabEnclosureIsSound :
    labEnclosed 64 255#8 0#8 0#8 = (some 136#8, some 208#8, some 195#8) := by decide +kernel

/-- Pixels of every hue branch, at its ends: `V = R` with `B = G` and with `G < B`, `V = G` equal to `B` and above it, `V = B`, and
the hue that rounds to 256. The hypotheses of the clauses exclude each other. -/
theorem witness_HsvDerivedFacts :
    (1#8 ≠ 0#8) ∧ ¬((255#8 : Sample) = 0#8 ∧ (0#8 : Sample) = 1#8) ∧
    [(2#8, 1#8, 1#8), (255#8, 0#8, 1#8), (1#8, 255#8, 255#8), (0#8, 255#8, 1#8), (1#8, 0#8, 2#8)].map rgbToHsvPx =
      [(0#8, 128#8, 2#8), (0#8, 255#8, 255#8), (128#8, 254#8, 255#8), (86#8, 255#8, 255#8), (192#8, 255#8, 2#8)] := by
  decide +kernel

/-- The first and the last hue of every sector of R121, six sectors over 256 hues. -/
theorem witness_HsvToRgbDerivedFacts :
    [0#8, 42#8, 43#8, 85#8, 86#8, 127#8, 128#8, 170#8, 171#8, 213#8, 214#8, 255#8].map
        (fun h : Sample => ((h.toNat : ℚ) * 360 / 256 / 60).floor) = [0, 0, 1, 1, 2, 2, 3, 3, 4, 4, 5, 5] ∧
    (1#8 : Sample) ≠ 0#8 ∧ (255#8 : Sample) ≠ 0#8 := by decide +kernel

theorem witness_RedistributionKeepsTheTotal : (List.replicate 256 (3 : Nat)).length = 256 := List.length_replicate

theorem witness_MappingFollowsTheDistribution : (0 : ℚ) < 2 ∧ [0#8, 255#8] ≠ [] ∧ (255 : Nat) < 256 :=
  ⟨by norm_num, by decide, by decide⟩

/-- The last pixel of a 2×3 plane with 2×2 tiles. -/
theorem witness_ClaheBlendsTileMappings :
    let p := { Params.reset with height := 2#32, width := 3#32, tileRows := 2#32, tileCols := 2#32 }
    1 ≤ p.tr ∧ 1 ≤ p.tc ∧ 0 < p.clip ∧ (List.replicate 6 (9#8 : Sample)).length = p.N ∧ 1 < p.H ∧ 2 < p.W := by
  decide +kernel

/-- A plane of one pixel meets every clause at once: one tile, nothing clipped (the limit is 256 for a clip of 65536), uniform. -/
theorem witness_ClaheDerivedFacts :
    let p := { Params.reset with height := 1#32, width := 1#32, clipLimit := 0x47800000#32 }
    let L : List Sample := [7#8]
    1 ≤ p.tr ∧ 1 ≤ p.tc ∧ 0 < p.clip ∧ 0 < p.N ∧ L.length = p.N ∧ p.H ≤ p.tr ∧ p.W ≤ p.tc ∧
      (L.count 7#8 : Int) ≤ (p.clip * (p.N : ℚ) / 256).floor ∧ L = List.replicate p.N 7#8 ∧ p.H = 1 ∧ p.W = 1 := by
  decide +kernel

theorem witness_GammaEntryIsExactRounding : (0 : ℚ) < 5 / 2 ∧ (0 : Nat) < 256 ∧ (255 : Nat) < 256 :=
  ⟨by norm_num, by decide, by decide⟩

/-- The smallest word, 1, the next above 1, and the largest. -/
theorem witness_GammaTableDerivedFacts :
    (PositiveF32 0x00000001#32 ∧ f32 0x00000001#32 < 1) ∧ (PositiveF32 0x3F800000#32 ∧ f32 0x3F800000#32 = 1) ∧
    (PositiveF32 0x3F800001#32 ∧ 1 < f32 0x3F800001#32) ∧ PositiveF32 0x7F7FFFFF#32 :=
  ⟨⟨⟨rfl, by decide +kernel⟩, by decide +kernel⟩, ⟨⟨rfl, by decide +kernel⟩, by decide +kernel⟩,
    ⟨⟨rfl, by decide +kernel⟩, by decide +kernel⟩, ⟨rfl, by decide +kernel⟩⟩

theorem witness_BrightnessCornerCases : PositiveF32 0x3F800000#32 ∧ 255 ≤ sampleQ 255#8 * f32 0x3F800000#32 ∧
    (254#8).toNat ≤ (255#8).toNat := ⟨⟨rfl, by decide +kernel⟩, by decide +kernel, by decide⟩

/-- −0.0, 1 and the largest word, at which the saturation 128 of (2, 1, 1) is clamped to 255. -/
theorem witness_SaturationDerivedFacts :
    (NonnegF32 0x80000000#32 ∧ f32 0x80000000#32 = 0) ∧ (NonnegF32 0x3F800000#32 ∧ f32 0x3F800000#32 = 1) ∧
    (NonnegF32 0x7F7FFFFF#32 ∧ f32 0x7F7FFFFF#32 ≠ 1 ∧ ((255#8 : Sample).toNat : ℤ) =
      min (roundTE (((rgbToHsvPx (2#8, 1#8, 1#8)).2.1.toNat : ℚ) * f32 0x7F7FFFFF#32)) 255) :=
  ⟨⟨⟨rfl, by decide +kernel⟩, by decide +kernel⟩, ⟨⟨rfl, by decide +kernel⟩, by decide +kernel⟩,
    ⟨rfl, by decide +kernel⟩, by decide +kernel, by decide +kernel⟩

theorem witness_EnhanceIsTheComposition : (List.replicate 3 (7#8 : Sample)).length = 3 * imgParams.N := by decide

theorem witness_ChannelOrderSymmetry : u32 { imgParams with channelOrder := 1#32 }.channelOrder = 1 := by decide

theorem witness_IdentityStagesDropOut :
    let p := { imgParams with gamma := 0x3F800000#32, brightness := 0x3F800000#32, saturation := 0x3F800000#32 }
    f32 p.gamma = 1 ∧ f32 p.brightness = 1 ∧ f32 p.saturation = 1 ∧ (List.replicate 3 (7#8 : Sample)).length = 3 * p.N := by
  decide +kernel

theorem witness_PatternsAndValuesAgree : isFinite 0x7F7FFFFF#32 = true ∧ (0x7F7FFFFF#32 : Word) ≠ 0x80000000#32 := by decide

end Sys2Proof.Tests
end

/-! ## Proofs of the statements on scope (00_scope.md: R11, R15, R16) -/

section
/-! ### A legal command passes validation (R201 to R207)

`validate` speaks through the row of the opcode map, `Legal` through the command itself; each check is matched with its rule. -/

namespace Sys2Proof.Machine

theorem shape_usesImg (i : Instr) : (shapeOf i).usesImg = usesImage i := by cases i <;> rfl

theorem shape_hasSrc_iff (i : Instr) : (shapeOf i).hasSrc = true ↔ i ≠ .gammalut := by cases i <;> decide

theorem shape_tiled_iff (i : Instr) : (shapeOf i).tiled = true ↔ i = .clahe ∨ i = .enhance := by cases i <;> decide

/-- The bit-level checks of R201 are those on the values of the patterns (R33 to R37). -/
theorem illegalParam_eq_false_iff (w : Word) :
    (illegalParam .clipLimit w = false ↔ PositiveF32 w) ∧ (illegalParam .gamma w = false ↔ PositiveF32 w) ∧
    (illegalParam .brightness w = false ↔ PositiveF32 w) ∧ (illegalParam .saturation w = false ↔ NonnegF32 w) ∧
    (illegalParam .tileRows w = false ↔ 1 ≤ s32 w) ∧ (illegalParam .tileCols w = false ↔ 1 ≤ s32 w) := by
  obtain ⟨hzero, hneg⟩ := f32_sign w
  have hnz : f32IsZero w = false ↔ f32 w ≠ 0 := by rw [← Bool.not_eq_true, hzero]
  have hnn : f32Negative w = false ↔ 0 ≤ f32 w := by rw [← Bool.not_eq_true, hneg, not_lt]
  have hpositive : (!isFinite w || f32Negative w || f32IsZero w) = false ↔ PositiveF32 w := by
    simp only [PositiveF32, Bool.or_eq_false_iff, Bool.not_eq_false', hnz, hnn, and_assoc, lt_iff_le_and_ne, ne_comm]
  have hnonneg : (!isFinite w || f32Negative w) = false ↔ NonnegF32 w := by
    simp only [NonnegF32, Bool.or_eq_false_iff, Bool.not_eq_false', hnn]
  have htile : decide (s32 w ≤ 0) = false ↔ 1 ≤ s32 w := by
    rw [decide_eq_false_iff_not, not_le]
    rfl
  exact ⟨hpositive, hpositive, hpositive, hnonneg, htile, htile⟩

/-- The parameter checks of a command's row are those of R201 for the command. -/
theorem checkParams_eq_none_iff_paramsLegal (i : Instr) (p : Params) :
    checkParams p (shapeOf i).params = none ↔ ParamsLegal i p := by
  rw [checkParams_eq_none_iff]
  cases i
  case rgb2lab => simp [shapeOf, rgb2labShape, ParamsLegal]
  case lab2rgb => simp [shapeOf, lab2rgbShape, ParamsLegal]
  case rgb2hsv => simp [shapeOf, rgb2hsvShape, ParamsLegal]
  case hsv2rgb => simp [shapeOf, hsv2rgbShape, ParamsLegal]
  all_goals
    simp only [shapeOf, claheShape, gammalutShape, gammaShape, brightShape, satboostShape, enhanceShape, ParamsLegal,
      List.forall_mem_cons, List.not_mem_nil, false_implies, implies_true, and_true, Params.get,
      illegalParam_eq_false_iff]

/-- Validation passes exactly the legal commands (R205). -/
theorem validate_eq_none_iff_legal (plat : Platform) (i : Instr) (p : Params) :
    validate plat (shapeOf i) p = none ↔ Legal plat i p := by
  obtain ⟨hsrcNeed, hdstNeed⟩ := shape_needs i p.N
  rw [validate_eq_none_iff, checkParams_eq_none_iff_paramsLegal, checkOrder_eq_none_iff, checkImage_eq_none_iff,
    checkRanges_eq_none_iff, checkTiles_eq_none_iff, shape_usesImg, shape_hasSrc_iff, shape_tiled_iff, hsrcNeed, hdstNeed]
  simp only [Legal, ImageOk]
  constructor
  · rintro ⟨hparams, horder, ⟨hchannels, hsL, hdL⟩, ⟨hsrc, hdst, hover⟩, htiles⟩
    exact ⟨hparams, fun h => ⟨horder h, hchannels h⟩, hsL, hdL, hsrc, hdst, hover, fun h hN limit hl => htiles limit hl h hN⟩
  · rintro ⟨hparams, himg, hsL, hdL, hsrc, hdst, hover, htiles⟩
    exact ⟨hparams, fun h => (himg h).1, ⟨fun h => (himg h).2, hsL, hdL⟩, ⟨hsrc, hdst, hover⟩,
      fun limit hl h hN => htiles h hN limit hl⟩

/-- A legal command reads `srcNeed` bytes: `SRC_LEN` where it has a source, none where it has not (R31, R161). -/
theorem srcSize_of_legal {plat : Platform} {i : Instr} {p : Params} (h : Legal plat i p) :
    (shapeOf i).srcSize p = srcNeed i p.N := by
  obtain ⟨-, -, hsL, -⟩ := h
  by_cases hi : i = .gammalut
  · subst hi
    rfl
  · rw [Shape.srcSize, if_pos ((shape_hasSrc_iff i).mpr hi), hsL hi]

/-- A command has work to do when it is `GAMMALUT` or its `N` is not 0 (R185). -/
theorem emptyWork_of_work {i : Instr} {p : Params} (h : i = .gammalut ∨ 0 < p.N) : (shapeOf i).emptyWork p = false := by
  rcases h with rfl | h
  · rfl
  · simp [Shape.emptyWork, h.ne']

end Sys2Proof.Machine
end

section
/-! ### A legal command from its acceptance to its completion (R40, R42) -/

namespace Sys2Proof.Machine

/-- A host that has cleaned the source leaves no hazard (R75). -/
theorem cacheHazard_of_cleaned (sh : Shape) (s : State) (p : Params)
    (h : ∀ a, inRange p.sA (sh.srcSize p) a = true → a ∉ s.host.uncleaned) : cacheHazard sh s p = false := by
  rw [cacheHazard, List.any_eq_false]
  exact fun a ha hin => h a hin ha

/-- The destination bytes that the rule of a command gives for the snapshot and the source of this moment (R66, R72). -/
def ruleBytes (s : State) (i : Instr) : List Sample :=
  (workOf i s.regs.params (s.mem.read s.regs.params.sA (srcNeed i s.regs.params.N))).out

theorem length_ruleBytes {s : State} {i : Instr} (h : Legal s.plat i s.regs.params) :
    (ruleBytes s i).length = s.regs.params.dL := by
  obtain ⟨-, -, -, hdL, -⟩ := h
  rw [ruleBytes, length_work_out i _ _ (by rw [length_read, (shape_needs i _).1]), (shape_needs i _).2, hdL]

/-- Equal snapshots and equal source bytes give equal bytes by the rule (R66). -/
theorem ruleBytes_congr {s₁ s₂ : State} {i : Instr} (hparams : s₁.regs.params = s₂.regs.params)
    (hsrc : ∀ a, inRange s₁.regs.params.sA (srcNeed i s₁.regs.params.N) a = true → s₁.mem.byteAt a = s₂.mem.byteAt a) :
    ruleBytes s₁ i = ruleBytes s₂ i := by
  rw [ruleBytes, ruleBytes, ← hparams, read_congr _ _ _ _ hsrc]

/-- The state in which a command has just been handed to the engine. -/
def startedState (s : State) (i : Instr) : State :=
  ((beginAccept (encode i) s).setStatus (beginAccept (encode i) s).regs.status.start).setEng
    (.busy (newJob (encode i) (shapeOf i) (workOf i) s))

/-- Every legal command with work to do is handed to the engine (R40). -/
theorem exec_of_legal {s : State} {i : Instr} (hidle : s.eng = .idle) (hlegal : Legal s.plat i s.regs.params)
    (hwork : i = .gammalut ∨ 0 < s.regs.params.N) : exec i s = .next (startedState s i) := by
  have hvalid := (validate_eq_none_iff_legal _ _ _).mpr hlegal
  rw [exec_eq_submit, submit_of_start _ _ _ s hidle hvalid (emptyWork_of_work hwork)]
  rfl

/-- A legal command that has been handed over runs on the snapshot and the source of that moment (R40, R41, R72). -/
theorem accepted_startedState {s : State} {i : Instr} (hlegal : Legal s.plat i s.regs.params) :
    Accepted s (startedState s i) i (srcNeed i s.regs.params.N) (ruleBytes s i) := by
  have hsize := srcSize_of_legal hlegal
  refine ⟨rfl, rfl, rfl, rfl, rfl, rfl, _, rfl, rfl, rfl, hsize, ?_, rfl, ?_⟩
  · rw [newJob, hsize]
  · rw [ruleBytes, newJob, sourceBytes, hsize]

/-- Every legal command with work to do is handed to the engine, which, undisturbed, completes it with the bytes that its rule
gives for the source as it stood at acceptance (R40, R42, R66). -/
theorem runsTo_of_legal {s : State} {i : Instr} (hidle : s.eng = .idle) (hlegal : Legal s.plat i s.regs.params)
    (hwork : i = .gammalut ∨ 0 < s.regs.params.N) : RunsTo s i (srcNeed i s.regs.params.N) (ruleBytes s i) := by
  have hsize := srcSize_of_legal hlegal
  have hlen := length_ruleBytes hlegal
  refine ⟨_, exec_of_legal hidle hlegal hwork, accepted_startedState hlegal, fun ⟨hagenda, hplain, hclean⟩ => ?_⟩
  obtain ⟨hregs, hmem, hplat, hhost, hag, hfresh, j, heng, -, hsnap, hsrc, hunread, hpend, hout⟩ :=
    accepted_startedState hlegal
  have hdist : j.disturbed = false := by
    rw [← Engine.busy.inj heng]
    exact cacheHazard_of_cleaned _ s _ (by rwa [hsize])
  obtain ⟨u, hrun, uregs, ueng, uplat, uag, ufresh, uhost, uin, uout⟩ := run_job _ j (hag.trans hagenda) heng
    (by rw [hunread, hsnap, hsrc]) (by rw [hpend, hsnap]) hdist (by rw [hout, hsnap, hlen])
    (fun a ha => by rw [hplat]; exact hplain a (by rwa [Job.inSrc, Job.inDst, hsnap, hsrc] at ha))
  rw [hsrc, hsnap] at hrun
  rw [hsnap] at uin uout
  rw [hplat, hhost] at uhost
  refine ⟨u, hrun, ?_, ueng, uplat.trans hplat, uag.trans hag, ufresh.trans hfresh, uhost, hlen, ?_, ?_⟩
  · rw [uregs, hregs]
    rfl
  · rwa [hout] at uin
  · rwa [hmem] at uout

/-- A byte of the destination range is its place in the bytes that the command has written. -/
theorem completed_byteAt {s u : State} {i : Instr} {out : List Sample} (h : Completed s u i out) {a : Nat}
    (ha : inRange s.regs.params.dA s.regs.params.dL a = true) :
    u.mem.byteAt a = out.getD (a - s.regs.params.dA) 0#8 := by
  obtain ⟨-, -, -, -, -, -, hlen, hbytes, -⟩ := h
  rw [inRange_iff] at ha
  have hk : a - s.regs.params.dA < out.length := by omega
  rw [List.getD_eq_getElem _ _ hk, ← hbytes _ hk]
  congr 1
  omega

/-- A completed command has reported no error (R42). -/
theorem completed_no_error {s u : State} {i : Instr} {out : List Sample} (h : Completed s u i out) :
    u.eng = .idle ∧ u.regs.status.error = false := by
  obtain ⟨hregs, heng, -⟩ := h
  exact ⟨heng, by rw [hregs]; rfl⟩

/-- Settles O42: by R66 the bytes left are those of the command's rule, a function of the snapshot and the source bytes. -/
theorem commandsAreDeterministic : Obligations.CommandsAreDeterministic := by
  intro s₁ s₂ i idle₁ idle₂ hparams legal₁ legal₂ hwork hsrc undist₁ undist₂
  obtain ⟨t₁, exec₁, -, complete₁⟩ := runsTo_of_legal idle₁ legal₁ hwork
  obtain ⟨t₂, exec₂, -, complete₂⟩ := runsTo_of_legal idle₂ legal₂ (hparams ▸ hwork)
  rw [← hparams, ← ruleBytes_congr hparams hsrc] at complete₂
  obtain ⟨u₁, run₁, done₁⟩ := complete₁ undist₁
  obtain ⟨u₂, run₂, done₂⟩ := complete₂ undist₂
  obtain ⟨eng₁, error₁⟩ := completed_no_error done₁
  obtain ⟨eng₂, error₂⟩ := completed_no_error done₂
  refine ⟨_, t₁, u₁, t₂, u₂, exec₁, run₁, eng₁, error₁, exec₂, run₂, eng₂, error₂, fun a ha => ?_⟩
  rw [completed_byteAt done₁ ha, completed_byteAt done₂ (by rwa [← hparams]), hparams]

end Sys2Proof.Machine
end

section
/-! ### Host stores and loads of system memory (R15, R60, R247) -/

namespace Sys2Proof.Machine

theorem stepWith_memStore (s : State) (a : Nat) (b : Sample) : stepWith (.memStore a b) s = memStore s a b :=
  stepWith_other s _ fun _ _ _ h => nomatch h

theorem stepWith_memLoad (s : State) (a : Nat) : stepWith (.memLoad a) s = memLoad s a :=
  stepWith_other s _ fun _ _ _ h => nomatch h

/-- What the host sees after its store to `a`: where DMA is not coherent the byte waits in the caches, and is no longer stale
(R75, log entry 8). -/
def storedHost (s : State) (a : Nat) : HostSide :=
  if s.plat.dmaCoherent then s.host
  else { s.host with
    uncleaned := a :: s.host.uncleaned.filter (· != a)
    stale := s.host.stale.filter (· != a) }

/-- A store to ordinary memory while no command runs: the byte is in memory and, where the caches hold it, waits in them. -/
theorem memStore_of_idle (s : State) (a : Nat) (b : Sample) (hsize : a < s.plat.memSize) (hdev : s.plat.isDevice a = false)
    (hidle : s.eng = .idle) :
    memStore s a b = .next ((s.setMem (s.mem.set a b)).setHost (storedHost s a)) := by
  rw [memStore, if_neg (by omega), hdev, hidle, State.setMem, State.setHost, hidle]
  rfl

/-- A load of ordinary memory that no command is writing and no cache hides gives the byte in memory. -/
theorem memLoad_of_settled (s : State) (a : Nat) (hsize : a < s.plat.memSize) (hdev : s.plat.isDevice a = false)
    (hwriting : s.eng.writing a = false) (hstale : a ∉ s.host.stale) :
    memLoad s a = .next (s.setHost { s.host with ldData := s.mem.byteAt a }) := by
  have hc : s.host.stale.contains a = false := by simpa using hstale
  rw [memLoad, if_neg (by omega), hdev, hwriting, hc]
  rfl

/-- A load of a destination byte of the running command gives a free value (R68, R247; log entry 13). -/
theorem memLoad_of_writing (s : State) (a : Nat) (hsize : a < s.plat.memSize) (hdev : s.plat.isDevice a = false)
    (hwriting : s.eng.writing a = true) :
    memLoad s a = .next ((s.setHost { s.host with ldData := Config.freeByte s.fresh }).draw 1) := by
  rw [memLoad, if_neg (by omega), hdev, hwriting]
  rfl

/-- A byte that the host has just stored is not stale: a coherent platform has no stale bytes, and on any other the store
ends the staleness (log entry 8). -/
theorem storedHost_not_stale {s : State} (a : Nat) (hinv : Inv s) : a ∉ (storedHost s a).stale := by
  obtain ⟨-, -, -, -, -, -, hcoherent⟩ := hinv
  rw [storedHost]
  split
  · next hc => simp [(hcoherent hc).2]
  · simp

/-- Settles O36: each clause is the store's or the load's rule for its case. -/
theorem hostLoadsWhatWasStored : Obligations.HostLoadsWhatWasStored := by
  refine ⟨fun s a b hinv hidle hsize hdev => ?_, fun s a hsize hdev hwriting hstale => ?_,
    fun s j a hsize hdev hbusy hdst => ?_⟩
  · exact ⟨_, _, (stepWith_memStore s a b).trans (memStore_of_idle s a b hsize hdev hidle),
      (stepWith_memLoad _ a).trans
        (memLoad_of_settled _ a hsize hdev (by simp [hidle, Engine.writing]) (storedHost_not_stale a hinv)),
      byteAt_set_self s.mem a b, rfl, rfl, rfl, rfl, rfl, fun x hx => byteAt_set_of_ne s.mem b hx⟩
  · exact ⟨_, (stepWith_memLoad s a).trans (memLoad_of_settled s a hsize hdev hwriting hstale), rfl, rfl, rfl, rfl, rfl⟩
  · have hwriting : s.eng.writing a = true := by rw [hbusy]; exact hdst
    exact ⟨_, (stepWith_memLoad s a).trans (memLoad_of_writing s a hsize hdev hwriting), rfl, rfl, rfl, rfl⟩

end Sys2Proof.Machine
end

section
/-! ### Binary32 patterns and their values (R11, R96) -/

namespace Sys2Proof.Machine

/-- `pow2` is the power of two with an integer exponent. -/
theorem pow2_eq_zpow (k : ℤ) : pow2 k = (2 : ℚ) ^ k := by
  rw [pow2]
  split
  · next h =>
    lift k to ℕ using h
    simp
  · next h =>
    obtain ⟨n, rfl⟩ : ∃ n : ℕ, k = -n := ⟨(-k).toNat, by omega⟩
    simp

/-- A positive rational lies between the powers of two that the lengths of its numerator and denominator give. -/
theorem rat_log2_bounds {x : ℚ} (hx : 0 < x) :
    (2 : ℚ) ^ ((Nat.log2 x.num.toNat : ℤ) - (Nat.log2 x.den : ℤ) - 1) < x ∧
      x < (2 : ℚ) ^ ((Nat.log2 x.num.toNat : ℤ) - (Nat.log2 x.den : ℤ) + 1) := by
  have hnum : 0 < x.num := Rat.num_pos.mpr hx
  have hn : x.num.toNat ≠ 0 := by omega
  generalize ha : x.num.toNat = a at hn
  have hxq : x = (a : ℚ) / (x.den : ℚ) := by
    conv_lhs => rw [← Rat.num_div_den x]
    rw [← ha, ← Int.cast_natCast (R := ℚ) x.num.toNat, Int.toNat_of_nonneg hnum.le]
  have hd : x.den ≠ 0 := x.den_nz
  generalize x.den = d at hxq hd
  have a1 : (2 : ℚ) ^ Nat.log2 a ≤ a := by exact_mod_cast Nat.log2_self_le hn
  have a2 : (a : ℚ) < 2 ^ (Nat.log2 a + 1) := by exact_mod_cast Nat.lt_log2_self
  have d1 : (2 : ℚ) ^ Nat.log2 d ≤ d := by exact_mod_cast Nat.log2_self_le hd
  have d2 : (d : ℚ) < 2 ^ (Nat.log2 d + 1) := by exact_mod_cast Nat.lt_log2_self
  have hdpos : (0 : ℚ) < d := by positivity
  have two : (2 : ℚ) ≠ 0 := two_ne_zero
  rw [hxq]
  constructor
  · have hexp : (Nat.log2 a : ℤ) - Nat.log2 d - 1 = Nat.log2 a - ((Nat.log2 d + 1 : ℕ) : ℤ) := by omega
    rw [hexp, lt_div_iff₀ hdpos, zpow_sub₀ two, zpow_natCast, zpow_natCast, div_mul_eq_mul_div,
      div_lt_iff₀ (by positivity)]
    exact mul_lt_mul' a1 d2 hdpos.le (by positivity)
  · have hexp : (Nat.log2 a : ℤ) - Nat.log2 d + 1 = ((Nat.log2 a + 1 : ℕ) : ℤ) - Nat.log2 d := by omega
    rw [hexp, div_lt_iff₀ hdpos, zpow_sub₀ two, zpow_natCast, zpow_natCast, div_mul_eq_mul_div,
      lt_div_iff₀ (by positivity)]
    exact mul_lt_mul a2 d1 (by positivity) (by positivity)

/-- `floorLog2` is the floor of the logarithm. -/
theorem floorLog2_spec {x : ℚ} (hx : 0 < x) : (2 : ℚ) ^ floorLog2 x ≤ x ∧ x < (2 : ℚ) ^ (floorLog2 x + 1) := by
  obtain ⟨hlo, hhi⟩ := rat_log2_bounds hx
  simp only [floorLog2, pow2_eq_zpow]
  split
  · next h => exact ⟨hlo.le, by rwa [sub_add_cancel]⟩
  · next h => exact ⟨not_lt.mp h, hhi⟩

/-- The binade of a positive rational names its `floorLog2`. -/
theorem floorLog2_eq {x : ℚ} {k : ℤ} (hlo : (2 : ℚ) ^ k ≤ x) (hhi : x < (2 : ℚ) ^ (k + 1)) : floorLog2 x = k := by
  obtain ⟨h1, h2⟩ := floorLog2_spec (lt_of_lt_of_le (by positivity) hlo)
  have hle := (zpow_lt_zpow_iff_right₀ one_lt_two).mp (h1.trans_lt hhi)
  have hge := (zpow_lt_zpow_iff_right₀ one_lt_two).mp (hlo.trans_lt h2)
  omega

/-- The significand of a pattern as a whole number of units in the last place, the hidden bit included (R11). -/
def f32Sig (w : Word) : ℕ := if f32Exp w = 0 then f32Frac w else 2 ^ 23 + f32Frac w

/-- The exponent of a pattern's binade; patterns below the least normal share that of the least normal (R11). -/
def f32Scale (w : Word) : ℤ := if f32Exp w = 0 then -126 else f32Exp w - 127

/-- The value of a pattern without its sign: so many units in the last place (R11). -/
def f32Mag (w : Word) : ℚ := f32Sig w * (2 : ℚ) ^ (f32Scale w - 23)

theorem f32_eq_mag (w : Word) : f32 w = if w.getLsbD 31 then -f32Mag w else f32Mag w := by
  simp only [f32, f32Mag, f32Sig, f32Scale, pow2_eq_zpow]
  have hunit : ∀ k : ℤ, (2 : ℚ) ^ (k - 23) = 2 ^ k / 2 ^ 23 := fun k => by rw [zpow_sub₀ two_ne_zero]; rfl
  split_ifs <;> rw [hunit] <;> push_cast <;> ring

theorem f32Frac_lt (w : Word) : f32Frac w < 2 ^ 23 := (w.extractLsb' 0 23).isLt

/-- The fields of a finite pattern leave room for the exponent of the infinities. -/
theorem f32Exp_lt_of_finite {w : Word} (h : isFinite w = true) : f32Exp w < 255 := by
  have hlt : f32Exp w < 2 ^ 8 := (w.extractLsb' 23 8).isLt
  simp only [isFinite, bne_iff_ne] at h
  omega

/-- A pattern is its three fields: sign, exponent, fraction (R11). -/
theorem toNat_eq_fields (w : Word) :
    w.toNat = (if w.getLsbD 31 then 0x80000000 else 0) + (f32Exp w * 2 ^ 23 + f32Frac w) := by
  have hsign : w.getLsbD 31 = decide (0x80000000 ≤ w.toNat) := BitVec.msb_eq_getLsbD_last w ▸ BitVec.msb_eq_decide w
  have hlt := w.isLt
  simp only [f32Exp, f32Frac, BitVec.extractLsb'_toNat, Nat.shiftRight_eq_div_pow, hsign, decide_eq_true_eq]
  split <;> omega

/-- The exponent that `bits32Mag` works with is that of the pattern: the binade of the magnitude, but never one below the
least normal. -/
theorem max_floorLog2_mag {w : Word} (h : 0 < f32Sig w) : max (-126) (floorLog2 (f32Mag w)) = f32Scale w := by
  have hfrac : (f32Frac w : ℚ) < 2 ^ 23 := by exact_mod_cast f32Frac_lt w
  have hscale : ∀ k : ℤ, (2 : ℚ) ^ k = 2 ^ 23 * 2 ^ (k - 23) := fun k => by
    rw [← zpow_natCast, ← zpow_add₀ two_ne_zero]
    congr 1
    ring
  by_cases he : f32Exp w = 0
  · have hpos : 0 < f32Mag w := by rw [f32Mag]; positivity
    have hlt : f32Mag w < 2 ^ (-126 : ℤ) := by
      rw [f32Mag, f32Sig, f32Scale, if_pos he, if_pos he, hscale (-126)]
      exact mul_lt_mul_of_pos_right hfrac (by positivity)
    have := (zpow_lt_zpow_iff_right₀ one_lt_two).mp ((floorLog2_spec hpos).1.trans_lt hlt)
    rw [f32Scale, if_pos he]
    omega
  · have hsig : (f32Sig w : ℚ) = 2 ^ 23 + f32Frac w := by rw [f32Sig, if_neg he]; push_cast; rfl
    have hlog : floorLog2 (f32Mag w) = f32Scale w := by
      refine floorLog2_eq ?_ ?_
      · rw [hscale, f32Mag, hsig]
        exact mul_le_mul_of_nonneg_right (by linarith [(f32Frac w).cast_nonneg (α := ℚ)]) (by positivity)
      · rw [zpow_add_one₀ two_ne_zero, hscale, f32Mag, hsig, mul_right_comm]
        exact mul_lt_mul_of_pos_right (by linarith) (by positivity)
    rw [hlog, f32Scale, if_neg he]
    omega

/-- The magnitude bits of a finite pattern's magnitude are its exponent and fraction fields. -/
theorem bits32Mag_f32Mag {w : Word} (hfin : isFinite w = true) (hsig : 0 < f32Sig w) :
    bits32Mag (f32Mag w) = f32Exp w * 2 ^ 23 + f32Frac w := by
  have hexact : f32Mag w * pow2 (23 - f32Scale w) = (f32Sig w : ℚ) := by
    rw [pow2_eq_zpow, f32Mag, mul_assoc, ← zpow_add₀ two_ne_zero, sub_add_sub_cancel, sub_self, zpow_zero, mul_one]
  have hbits : (f32Scale w + 126) * 2 ^ 23 + (f32Sig w : ℤ) = f32Exp w * 2 ^ 23 + f32Frac w := by
    rw [f32Scale, f32Sig]
    split
    · next he => simp [he]
    · push_cast
      ring
  have hexp := f32Exp_lt_of_finite hfin
  have hfrac := f32Frac_lt w
  rw [bits32Mag, max_floorLog2_mag hsig, hexact, roundTE_natCast, hbits]
  omega

/-- A finite pattern other than -0.0 is found again from its value. -/
theorem bits32_f32 {w : Word} (hfin : isFinite w = true) (hne : w ≠ 0x80000000#32) : bits32 (f32 w) = w := by
  apply BitVec.eq_of_toNat_eq
  have hfields := toNat_eq_fields w
  have hlt := w.isLt
  rcases Nat.eq_zero_or_pos (f32Sig w) with hzero | hpos
  · have hval : f32 w = 0 := by simp [f32_eq_mag, f32Mag, hzero]
    have hbits : f32Exp w * 2 ^ 23 + f32Frac w = 0 := by
      rw [f32Sig] at hzero
      split at hzero <;> omega
    have hsign : w.getLsbD 31 = false := by
      by_contra hs
      refine hne (BitVec.eq_of_toNat_eq ?_)
      rw [hfields, hbits, if_pos (by simpa using hs)]
      rfl
    rw [hval, hfields, hsign, hbits]
    rfl
  · have hmag : 0 < f32Mag w := by rw [f32Mag]; positivity
    cases hs : w.getLsbD 31 with
    | false =>
      have hval : f32 w = f32Mag w := by rw [f32_eq_mag, hs]; rfl
      simp only [hs, Bool.false_eq_true, ↓reduceIte, zero_add] at hfields
      rw [hval, bits32, if_neg hmag.ne', if_neg hmag.le.not_gt, bits32Mag_f32Mag hfin hpos, BitVec.toNat_ofNat]
      omega
    | true =>
      have hval : f32 w = -f32Mag w := by rw [f32_eq_mag, hs]; rfl
      simp only [hs, ↓reduceIte] at hfields
      rw [hval, bits32, if_neg (neg_ne_zero.mpr hmag.ne'), if_pos (neg_neg_of_pos hmag), neg_neg,
        bits32Mag_f32Mag hfin hpos, BitVec.toNat_ofNat]
      omega

/-- Settles O60: the round trip of patterns, and the three examples by evaluation. -/
theorem patternsAndValuesAgree : Obligations.PatternsAndValuesAgree := by
  refine ⟨fun _ hfin hne => bits32_f32 hfin hne, ?_, ?_, ?_⟩ <;> decide +kernel

end Sys2Proof.Machine
end

section
/-! ## Proofs of the statements on the state (10_state.md)

### Every step keeps a good state good (R21, R213) -/

namespace Sys2Proof.Machine

/-- An event of the engine is nothing while it is idle, and its own step on the running job otherwise. -/
theorem withJob_cases (s : State) (f : Job → Host.Outcome State Fault Refusal) :
    (s.eng = .idle ∧ withJob s f = .next s) ∨ ∃ j, s.eng = .busy j ∧ withJob s f = f j := by
  rw [withJob]
  cases s.eng with
  | idle => exact .inl ⟨rfl, rfl⟩
  | busy j => exact .inr ⟨j, rfl, rfl⟩

/-- A poll whose read answers a next state goes on from that state, or waits in it (R95). -/
theorem hostPoll_next {s t : State} {addr : Nat} {mask value : Word} (h : hostPoll s addr mask value = .next t) :
    ∃ u, hostRead s addr 4 = .next u ∧ (t = u ∨ t = waitAgain u (.poll addr mask value)) := by
  rw [hostPoll] at h
  cases hr : hostRead s addr 4 with
  | next u =>
    simp only [hr] at h
    split at h <;> cases h
    · exact ⟨_, rfl, .inl rfl⟩
    · exact ⟨_, rfl, .inr rfl⟩
  | fault f => simp [hr] at h
  | refused r => simp [hr] at h

theorem inv_waitAgain (s : State) (ev : Event) : Inv (waitAgain s ev) ↔ Inv s := Iff.rfl

theorem inv_hostWrite {s t : State} {addr size : Nat} {w : Word} (h : Inv s) (ht : hostWrite s addr size w = .next t) :
    Inv t := by
  rcases hostWrite_cases s addr size w with h1 | h1 | ⟨r, h1⟩ | h1 <;> rw [h1] at ht <;> cases ht
  · exact h
  · exact inv_writeReg _ r w h
  · exact h

theorem inv_hostRead {s t : State} {addr size : Nat} (h : Inv s) (ht : hostRead s addr size = .next t) : Inv t := by
  rcases hostRead_cases s addr size with h1 | h1 | ⟨w, h1⟩ <;> rw [h1] at ht <;> cases ht
  · exact h
  · exact h

theorem inv_hostPoll {s t : State} {addr : Nat} {mask value : Word} (h : Inv s)
    (ht : hostPoll s addr mask value = .next t) : Inv t := by
  obtain ⟨u, hread, rfl | rfl⟩ := hostPoll_next ht
  · exact inv_hostRead h hread
  · exact (inv_waitAgain u _).mpr (inv_hostRead h hread)

theorem inv_withJob {s t : State} {f : Job → Host.Outcome State Fault Refusal} (h : Inv s)
    (hf : ∀ j, s.eng = .busy j → f j = .next t → Inv t) (ht : withJob s f = .next t) : Inv t := by
  rcases withJob_cases s f with ⟨-, h1⟩ | ⟨j, hj, h1⟩ <;> rw [h1] at ht
  · cases ht
    exact h
  · exact hf j hj ht

/-- Every event leaves a good state good. -/
theorem inv_handle {s t : State} {ev : Event} (h : Inv s) (ht : handle ev s = .next t) : Inv t := by
  cases ev with
  | regWrite addr size w => exact inv_hostWrite h ht
  | regRead addr size => exact inv_hostRead h ht
  | poll addr mask value => exact inv_hostPoll h ht
  | waitIrq =>
    rw [handle] at ht
    split at ht <;> cases ht
    · exact h
    · exact (inv_waitAgain s _).mpr h
  | memStore a b => exact inv_memStore s t a b h ht
  | memLoad a => exact inv_memLoad s t a h ht
  | cacheClean r =>
    cases ht
    exact inv_cacheClean s r h
  | cacheInvalidate r =>
    cases ht
    exact inv_cacheInvalidate s r h
  | hardReset =>
    cases ht
    exact inv_resetBlock s h
  | engRead a => exact inv_withJob h (fun j hj => inv_engineRead s t j a h hj) ht
  | engWrite a => exact inv_withJob h (fun j hj => inv_engineWrite s t j a h hj) ht
  | engFinish =>
    refine inv_withJob h (fun j hj hfin => ?_) ht
    cases hfin
    exact inv_engineFinish s j h hj
  | engAuto => exact inv_engineTurn s t h ht

/-- A command request is taken in a state that is as good as the one before it. -/
theorem inv_fetchCommand {s t : State} {w : Word} (h : Inv s) (hf : fetchCommand s = some (w, t)) : Inv t := by
  obtain ⟨-, -, rest, -, -, rfl⟩ := (fetchCommand_eq_some_iff _ _ _).mp hf
  exact h

/-- Settles O39, by the cases of a step: a command, an illegal word, an event, or the engine alone. -/
theorem stepKeepsInvariant : Obligations.StepKeepsInvariant := by
  intro s t h ht
  rcases step_cases s with ⟨w, u, i, hf, -, h1⟩ | ⟨w, u, e, hf, -, h1⟩ | ⟨ev, rest, -, -, h1⟩ | ⟨-, h1⟩ <;> rw [h1] at ht
  · rw [exec_eq_submit] at ht
    cases ht
    exact inv_submit i u (inv_fetchCommand h hf)
  · cases ht
    exact inv_submitIllegal w u (inv_fetchCommand h hf)
  · exact inv_handle (s := s.setAgenda rest) h ht
  · exact inv_engineTurn s t h ht

end Sys2Proof.Machine
end

section
/-! ### What the engine changes, and when it starts and stops (R20, R21, R42, R66) -/

namespace Sys2Proof.Machine

theorem stepWith_engFinish {s : State} {j : Job} (hj : s.eng = .busy j) :
    stepWith .engFinish s = .next (engineFinish s j) := by
  have hother := stepWith_other s .engFinish fun _ _ _ h => nomatch h
  rw [hother, handle, withJob, hj]

/-- Free values in a job's destination leave every byte outside it alone (R241). -/
theorem byteAt_scramble_of_outside (s : State) (j : Job) {a : Nat} (h : j.inDst a = false) :
    (s.mem.setAll j.snap.dA (freeBytes s.fresh j.snap.dL)).byteAt a = s.mem.byteAt a := by
  refine byteAt_setAll_of_outside _ _ _ _ ?_
  rw [length_freeBytes]
  exact (inRange_eq_false_iff _ _ _).mp h

/-- A step of the engine keeps all of the state but `STATUS`, the error report and the running command's destination. -/
theorem engineMove_frame {s t : State} (h : EngineMove s t) :
    t.regs = { s.regs with
      errCode := t.regs.errCode
      errField := t.regs.errField
      errValue := t.regs.errValue
      status := { t.regs.status with overrun := s.regs.status.overrun } } ∧
    t.plat = s.plat ∧ t.agenda = s.agenda ∧
    (∀ a, (∀ j, s.eng = .busy j → j.inDst a = false) → t.mem.byteAt a = s.mem.byteAt a) := by
  obtain rfl | ⟨j, hj, ⟨r, x, -, -, rfl⟩ | ⟨x, -, rfl⟩ | ⟨x, hx, rfl⟩ | ⟨-, -, rfl⟩ | ⟨-, -, rfl⟩⟩ := h
  · exact ⟨rfl, rfl, rfl, fun _ _ => rfl⟩
  · exact ⟨rfl, rfl, rfl, fun a ha => byteAt_scramble_of_outside s j (ha j hj)⟩
  · exact ⟨rfl, rfl, rfl, fun _ _ => rfl⟩
  · refine ⟨rfl, rfl, rfl, fun a ha => byteAt_set_of_ne _ _ ?_⟩
    rintro rfl
    simp [ha j hj] at hx
  · exact ⟨rfl, rfl, rfl, fun _ _ => rfl⟩
  · exact ⟨rfl, rfl, rfl, fun a ha => byteAt_scramble_of_outside s j (ha j hj)⟩

/-- Settles O34, by the cases of an engine event. -/
theorem engineTouchesOnlyItsDestination : Obligations.EngineTouchesOnlyItsDestination := by
  intro s t ev hev hstep
  have hother : stepWith ev s = handle ev s := stepWith_other s ev fun _ _ _ h => by
    rcases hev with rfl | rfl | ⟨a, rfl⟩ | ⟨a, rfl⟩ <;> cases h
  exact engineMove_frame (engineEvent_cases s t ev hev (hother ▸ hstep))

/-- In a good busy state with nothing pending, an undisturbed job's rule is what its destination holds (R42). -/
theorem byteAt_dst_of_written {s : State} {j : Job} (h : JobOk s j) (hd : j.disturbed = false) (hp : j.pend = []) {k : Nat}
    (hk : k < j.snap.dL) : s.mem.byteAt (j.snap.dA + k) = j.work.out.getD k 0 := by
  obtain ⟨-, -, -, -, -, -, -, hwritten, -⟩ := h
  have hin : j.inDst (j.snap.dA + k) = true := (inRange_iff _ _ _).mpr (by omega)
  rw [hwritten hd _ hin (by simp [hp]), Job.valueAt, Nat.add_sub_cancel_left]
  rfl

/-- Settles O32: once nothing is pending the engine completes; on a coherent platform no cache hides its bytes (R71). -/
theorem completionStep : Obligations.CompletionStep := by
  intro s j hinv hj
  obtain ⟨-, -, -, hjob, -, -, hcoherent⟩ := hinv
  obtain ⟨-, herror, -, -, hok⟩ := hjob j hj
  have hregs : { s.regs with status := s.regs.status.complete } = { s.regs with
      status := { busy := false, done := true, error := false, overrun := s.regs.status.overrun } } := by
    rw [Status.complete, herror]
  refine ⟨_, stepWith_engFinish hj, ?_⟩
  rcases engineFinish_cases s j with ⟨hp, h1⟩ | ⟨hp, hd, h1⟩ | ⟨hp, hd, h1⟩ <;> rw [h1]
  · exact ⟨fun _ => rfl, fun h => absurd h hp⟩
  · refine ⟨fun h => absurd hp h, fun _ => ⟨rfl, hregs, rfl, rfl, fun _ => ⟨rfl, fun k hk => ?_⟩⟩⟩
    have hbyte := byteAt_dst_of_written hok hd hp hk
    refine ⟨hbyte, fun hc hdev => ⟨_, (stepWith_memLoad _ _).trans (memLoad_of_settled _ _ ?_ hdev rfl ?_), hbyte⟩⟩
    · obtain ⟨-, -, hfits, -⟩ := hok
      exact Nat.lt_of_lt_of_le (Nat.add_lt_add_left hk _) hfits
    · simp [hc, (hcoherent hc).2]
  · exact ⟨fun h => absurd hp h, fun _ => ⟨rfl, hregs, rfl, rfl, fun h => by simp [hd] at h⟩⟩

/-- Settles O31: `RunsTo` of a legal command, whatever its opcode. -/
theorem everyLegalCommandRunsToCompletion : Obligations.EveryLegalCommandRunsToCompletion :=
  fun _ _ hidle hlegal hwork => runsTo_of_legal hidle hlegal hwork

end Sys2Proof.Machine
end

section
/-! ### The engine becomes busy and idle only as the rules say (R21, R40 to R42, R209, R240) -/

namespace Sys2Proof.Machine

/-- A command word is its two fields put together (R90). -/
theorem toWord_ofWord (w : Word) : (CMD32.ofWord w).toWord = w :=
  (BitVec.extractLsb'_append_extractLsb'_eq_extractLsb' rfl).trans BitVec.extractLsb'_eq_self

/-- An opcode that selects a command is that command's row of the map (R91). -/
theorem eq_opcode_of_decodeOp {op : BitVec 8} {i : Instr} (h : decodeOp op = .ok i) : op = i.opcode := by
  apply BitVec.eq_of_toNat_eq
  rw [decodeOp] at h
  split at h <;> cases h <;> assumption

/-- The word of a command is the only one that decodes to it (R93). -/
theorem eq_encode_of_decode {w : Word} {i : Instr} (h : decode w = .ok i) : w = encode i := by
  rw [decode] at h
  split at h
  · next hzero =>
    have hrsvd : (CMD32.ofWord w).rsvd = 0#24 := by simpa [CMD32.reservedZero] using hzero
    rw [← toWord_ofWord w, CMD32.toWord, eq_opcode_of_decodeOp h, hrsvd]
    rfl
  · cases h

/-- A register that stands at an offset has that offset (R23). -/
theorem offset_of_at? {off : Nat} {r : Reg} (h : Reg.at? off = some r) : r.offset = off := by
  simpa using List.find?_some h

/-- The engine goes on as it is: idle, or busy with the same command, snapshot, work and source. -/
def KeepsCommand (e e' : Engine) : Prop :=
  (e = .idle ↔ e' = .idle) ∧
    ∀ j j', e = .busy j → e' = .busy j' →
      j'.cmd = j.cmd ∧ j'.snap = j.snap ∧ j'.work = j.work ∧ j'.srcSize = j.srcSize

theorem KeepsCommand.idle : KeepsCommand .idle .idle := ⟨Iff.rfl, fun _ _ h => nomatch h⟩

theorem KeepsCommand.busy {j j' : Job} (hcmd : j'.cmd = j.cmd) (hsnap : j'.snap = j.snap) (hwork : j'.work = j.work)
    (hsrc : j'.srcSize = j.srcSize) : KeepsCommand (.busy j) (.busy j') := by
  refine ⟨⟨nofun, nofun⟩, ?_⟩
  rintro _ _ ⟨⟩ ⟨⟩
  exact ⟨hcmd, hsnap, hwork, hsrc⟩

theorem KeepsCommand.refl (e : Engine) : KeepsCommand e e := by
  cases e with
  | idle => exact .idle
  | busy j => exact .busy rfl rfl rfl rfl

theorem KeepsCommand.disturb (e : Engine) : KeepsCommand e e.disturb := by
  cases e with
  | idle => exact .idle
  | busy j => exact .busy rfl rfl rfl rfl

/-- The engine takes a command (R40, R41): a write to `CMD` of a word that passes validation, on the snapshot of that moment. -/
def StartsCommand (s t : State) : Prop :=
  s.eng = .idle ∧ ∃ j, t.eng = .busy j ∧ ∃ addr size w rest i,
    s.agenda = .regWrite addr size w :: rest ∧ accessOf s.plat addr size = .word 0x010 ∧
    decode w = .ok i ∧ Legal s.plat i s.regs.params ∧ j.cmd = w ∧ j.snap = s.regs.params ∧
    j.pend = addrRange s.regs.params.dA s.regs.params.dL

/-- The engine ends its command by a step of its own: completion (R42), or a bus fault in one of the ranges (R209). -/
def EndsCommand (s t : State) : Prop :=
  ∃ j, s.eng = .busy j ∧ t.eng = .idle ∧
    ((j.pend = [] ∧ t.regs.status.done = true ∧ t.regs.status.busy = false) ∨
     (t.regs.errCode = 8#32 ∧ ∃ a, s.plat.busFault a = true ∧ (j.inSrc a || j.inDst a) = true))

/-- The event is a reset of either kind: the reset input, or a write to `CTRL` with bit 1 set (R24, R240). -/
def IsReset (p : Platform) (ev : Event) : Prop :=
  ev = .hardReset ∨ ∃ addr size w, ev = .regWrite addr size w ∧ accessOf p addr size = .word 0x008 ∧ w.getLsbD 1 = true

@[simp] theorem resetBlock_plat (s : State) : (resetBlock s).plat = s.plat := by
  rcases resetBlock_cases s with ⟨-, h⟩ | ⟨j, -, h⟩ <;> rw [h] <;> rfl

@[simp] theorem resetBlock_regs (s : State) : (resetBlock s).regs = Regs.reset := by
  rcases resetBlock_cases s with ⟨-, h⟩ | ⟨j, -, h⟩ <;> rw [h] <;> rfl

@[simp] theorem resetBlock_eng (s : State) : (resetBlock s).eng = .idle := by
  rcases resetBlock_cases s with ⟨he, h⟩ | ⟨j, -, h⟩ <;> rw [h]
  · exact he
  · rfl

theorem engineMove_engine {s t : State} (h : EngineMove s t) :
    t.plat = s.plat ∧ (KeepsCommand s.eng t.eng ∨ EndsCommand s t) := by
  obtain rfl | ⟨j, hj, ⟨r, a, hf, ha, rfl⟩ | ⟨a, -, rfl⟩ | ⟨a, -, rfl⟩ | ⟨hp, -, rfl⟩ | ⟨hp, -, rfl⟩⟩ := h
  · exact ⟨rfl, .inl (.refl _)⟩
  · exact ⟨rfl, .inr ⟨j, hj, rfl, .inr ⟨rfl, a, hf, ha⟩⟩⟩
  · exact ⟨rfl, .inl (hj ▸ .busy rfl rfl rfl rfl)⟩
  · exact ⟨rfl, .inl (hj ▸ .busy rfl rfl rfl rfl)⟩
  · exact ⟨rfl, .inr ⟨j, hj, rfl, .inl ⟨hp, rfl, rfl⟩⟩⟩
  · exact ⟨rfl, .inr ⟨j, hj, rfl, .inl ⟨hp, rfl, rfl⟩⟩⟩

/-- A register write resets the block or leaves platform and engine alone. -/
theorem writeReg_engine (s : State) (r : Reg) (w : Word) :
    (r = .ctrl ∧ w.getLsbD 1 = true ∧ writeReg s r w = resetBlock s) ∨
    ((writeReg s r w).plat = s.plat ∧ (writeReg s r w).eng = s.eng) := by
  cases r
  case ctrl =>
    rw [writeReg, writeCtrl]
    split
    · next hbit => exact .inl ⟨rfl, hbit, rfl⟩
    · exact .inr ⟨rfl, rfl⟩
  all_goals exact .inr ⟨rfl, rfl⟩

theorem hostWrite_engine {s t : State} {addr size : Nat} {w : Word} (h : hostWrite s addr size w = .next t) :
    (t.plat = s.plat ∧ t.eng = s.eng) ∨
    (accessOf s.plat addr size = .word 0x008 ∧ w.getLsbD 1 = true ∧ t = resetBlock (accessOk s)) := by
  rw [hostWrite] at h
  split at h
  · cases h
  · cases h
    exact .inl ⟨rfl, rfl⟩
  · next off hacc =>
    split at h <;> cases h
    · next r hr =>
      rcases writeReg_engine (accessOk s) r w with ⟨rfl, hbit, hreset⟩ | hkeep
      · exact .inr ⟨hacc.trans (congrArg _ (offset_of_at? hr).symm), hbit, hreset⟩
      · exact .inl hkeep
    · exact .inl ⟨rfl, rfl⟩

theorem hostRead_engine {s t : State} {addr size : Nat} (h : hostRead s addr size = .next t) :
    t.plat = s.plat ∧ t.eng = s.eng := by
  rcases hostRead_cases s addr size with h1 | h1 | ⟨w, h1⟩ <;> rw [h1] at h <;> cases h <;> exact ⟨rfl, rfl⟩

theorem hostPoll_engine {s t : State} {addr : Nat} {mask value : Word} (h : hostPoll s addr mask value = .next t) :
    t.plat = s.plat ∧ t.eng = s.eng := by
  obtain ⟨u, hread, rfl | rfl⟩ := hostPoll_next h
  · exact hostRead_engine hread
  · exact hostRead_engine (t := u) hread

theorem memStore_engine {s t : State} {a : Nat} {b : Sample} (h : memStore s a b = .next t) :
    t.plat = s.plat ∧ KeepsCommand s.eng t.eng := by
  rw [memStore] at h
  split at h
  · cases h
  split at h <;> cases h
  refine ⟨rfl, ?_⟩
  show KeepsCommand s.eng (if s.eng.touches a then s.eng.disturb else s.eng)
  split
  · exact .disturb _
  · exact .refl _

theorem memLoad_engine {s t : State} {a : Nat} (h : memLoad s a = .next t) : t.plat = s.plat ∧ t.eng = s.eng := by
  rw [memLoad] at h
  split at h
  · cases h
  split at h
  · cases h
  split at h <;> cases h <;> exact ⟨rfl, rfl⟩

theorem leaveCaches_engine (s : State) (r : Region) (free : Nat → Bool) :
    (leaveCaches s r free).plat = s.plat ∧ KeepsCommand s.eng (leaveCaches s r free).eng := by
  obtain ⟨hplat, -⟩ := leaveCaches_frame s r free
  refine ⟨hplat, ?_⟩
  rcases leaveCaches_eng s r free with ⟨-, he⟩ | ⟨j, hj, he⟩ <;> rw [he]
  · exact .refl _
  · exact hj ▸ .busy rfl rfl rfl rfl

/-- What one event can have done to the engine: it keeps the command, the engine ends it, or a reset aborts it. -/
def EngineAfterEvent (ev : Event) (s t : State) : Prop :=
  t.plat = s.plat ∧
    (KeepsCommand s.eng t.eng ∨ EndsCommand s t ∨ (IsReset s.plat ev ∧ t.regs = Regs.reset ∧ t.eng = .idle))

theorem engineAfterEvent_of_same {ev : Event} {s t : State} (h : t.plat = s.plat ∧ t.eng = s.eng) :
    EngineAfterEvent ev s t := ⟨h.1, .inl (h.2 ▸ .refl _)⟩

theorem engineAfterEvent_of_keeps {ev : Event} {s t : State} (h : t.plat = s.plat ∧ KeepsCommand s.eng t.eng) :
    EngineAfterEvent ev s t := h.imp_right .inl

theorem engineAfterEvent_of_move {ev : Event} {s t : State} (h : EngineMove s t) : EngineAfterEvent ev s t :=
  (engineMove_engine h).imp_right (Or.imp_right .inl)

theorem engineAfterEvent_of_reset {ev : Event} {s t : State} (hev : IsReset s.plat ev) (hplat : t.plat = s.plat) :
    EngineAfterEvent ev s (resetBlock t) :=
  ⟨(resetBlock_plat t).trans hplat, .inr (.inr ⟨hev, resetBlock_regs t, resetBlock_eng t⟩)⟩

/-- All that an event can do to the engine. -/
theorem handle_engine {s t : State} {ev : Event} (h : handle ev s = .next t) : EngineAfterEvent ev s t := by
  cases ev with
  | regWrite addr size w =>
    rcases hostWrite_engine h with hkeep | ⟨hacc, hbit, rfl⟩
    · exact engineAfterEvent_of_same hkeep
    · exact engineAfterEvent_of_reset (.inr ⟨addr, size, w, rfl, hacc, hbit⟩) rfl
  | regRead addr size => exact engineAfterEvent_of_same (hostRead_engine h)
  | poll addr mask value => exact engineAfterEvent_of_same (hostPoll_engine h)
  | waitIrq =>
    rw [handle] at h
    split at h <;> cases h <;> exact engineAfterEvent_of_same ⟨rfl, rfl⟩
  | memStore a b => exact engineAfterEvent_of_keeps (memStore_engine h)
  | memLoad a => exact engineAfterEvent_of_same (memLoad_engine h)
  | cacheClean r =>
    cases h
    exact engineAfterEvent_of_keeps (leaveCaches_engine s r _)
  | cacheInvalidate r =>
    cases h
    exact engineAfterEvent_of_keeps (leaveCaches_engine s r _)
  | hardReset =>
    cases h
    exact engineAfterEvent_of_reset (.inl rfl) rfl
  | engRead a => exact engineAfterEvent_of_move (engineEvent_cases s t _ (.inr (.inr (.inl ⟨a, rfl⟩))) h)
  | engWrite a => exact engineAfterEvent_of_move (engineEvent_cases s t _ (.inr (.inr (.inr ⟨a, rfl⟩))) h)
  | engFinish => exact engineAfterEvent_of_move (engineEvent_cases s t _ (.inr (.inl rfl)) h)
  | engAuto => exact engineAfterEvent_of_move (engineEvent_cases s t _ (.inl rfl) h)

/-- A command request that the machine takes keeps the running command, or hands a legal one to the idle engine. -/
theorem submit_engine {s u : State} {w : Word} {i : Instr} (hf : fetchCommand s = some (w, u)) (hw : decode w = .ok i) :
    (submit (encode i) (shapeOf i) (workOf i) u).plat = s.plat ∧
      (KeepsCommand s.eng (submit (encode i) (shapeOf i) (workOf i) u).eng ∨
        StartsCommand s (submit (encode i) (shapeOf i) (workOf i) u)) := by
  obtain ⟨addr, size, rest, hagenda, hacc, rfl⟩ := (fetchCommand_eq_some_iff _ _ _).mp hf
  rcases submit_cases (encode i) (shapeOf i) (workOf i) (accessOk (s.setAgenda rest)) with
    ⟨-, h1⟩ | ⟨r, hidle, -, h1⟩ | ⟨-, -, -, h1⟩ | ⟨hidle, hvalid, -, h1⟩ <;> rw [h1]
  · exact ⟨rfl, .inl (.refl _)⟩
  · rw [show s.eng = .idle from hidle]
    exact ⟨rfl, .inl .idle⟩
  · exact ⟨rfl, .inl (.refl _)⟩
  · exact ⟨rfl, .inr ⟨hidle, _, rfl, addr, size, w, rest, i, hagenda, hacc, hw,
      (validate_eq_none_iff_legal _ _ _).mp hvalid, (eq_encode_of_decode hw).symm, rfl, rfl⟩⟩

/-- An illegal word reaches no engine (R92). -/
theorem submitIllegal_engine (w : Word) (s : State) :
    (submitIllegal w s).plat = s.plat ∧ (submitIllegal w s).eng = s.eng := by
  rcases submitIllegal_cases w s with ⟨-, h1⟩ | ⟨hidle, h1⟩ <;> rw [h1]
  · exact ⟨rfl, rfl⟩
  · exact ⟨rfl, hidle.symm⟩

/-- All that a step can do to the engine: keep its command, start one, end it, or abort it by a reset. -/
theorem step_engine {s t : State} (h : step s = .next t) :
    t.plat = s.plat ∧
      (KeepsCommand s.eng t.eng ∨ StartsCommand s t ∨ EndsCommand s t ∨
        (t.regs = Regs.reset ∧ t.eng = .idle ∧ ∃ ev rest, s.agenda = ev :: rest ∧ IsReset s.plat ev)) := by
  rcases step_cases s with ⟨w, u, i, hf, hw, h1⟩ | ⟨w, u, e, hf, -, h1⟩ | ⟨ev, rest, -, ha, h1⟩ | ⟨-, h1⟩ <;>
    rw [h1] at h
  · rw [exec_eq_submit] at h
    cases h
    exact (submit_engine hf hw).imp_right (Or.imp_right .inl)
  · cases h
    obtain ⟨-, -, rest, -, -, rfl⟩ := (fetchCommand_eq_some_iff _ _ _).mp hf
    obtain ⟨hplat, heng⟩ := submitIllegal_engine w (accessOk (s.setAgenda rest))
    exact ⟨hplat, .inl (heng ▸ .refl _)⟩
  · obtain ⟨hplat, hkeep | hend | ⟨hreset, hregs, heng⟩⟩ := handle_engine h
    · exact ⟨hplat, .inl hkeep⟩
    · exact ⟨hplat, .inr (.inr (.inl hend))⟩
    · exact ⟨hplat, .inr (.inr (.inr ⟨hregs, heng, ev, rest, ha, hreset⟩))⟩
  · obtain ⟨hplat, hengine⟩ := engineMove_engine (engineEvent_cases s t .engAuto (.inl rfl) h)
    exact ⟨hplat, hengine.imp_right fun hend => .inr (.inl hend)⟩

/-- Settles O41: each clause excludes all but its own cases of `step_engine`. -/
theorem engineChangesOnlyAsRuled : Obligations.EngineChangesOnlyAsRuled := by
  intro s t hstep
  obtain ⟨hplat, ⟨hidle, hsame⟩ | ⟨hidle, j₁, hbusy, hstart⟩ | ⟨j₁, hbusy, hidle, hend⟩ |
    ⟨hregs, hidle, ev, rest, ha, hreset⟩⟩ := step_engine hstep
  · refine ⟨hplat, fun j hs ht => ?_, fun j hs ht => ?_, hsame⟩
    · cases (hidle.mp hs).symm.trans ht
    · cases (hidle.mpr ht).symm.trans hs
  · refine ⟨hplat, fun j _ ht => ?_, fun j hs _ => ?_, fun j _ hs _ => ?_⟩
    · cases hbusy.symm.trans ht
      exact hstart
    · cases hidle.symm.trans hs
    · cases hidle.symm.trans hs
  · refine ⟨hplat, fun j hs _ => ?_, fun j hs _ => ?_, fun j _ _ ht => ?_⟩
    · cases hbusy.symm.trans hs
    · cases hbusy.symm.trans hs
      exact hend.imp_right .inr
    · cases hidle.symm.trans ht
  · refine ⟨hplat, fun j _ ht => ?_, fun j _ _ => ?_, fun j _ _ ht => ?_⟩
    · cases hidle.symm.trans ht
    · exact .inr (.inl ⟨hregs, ev, rest, ha, hreset⟩)
    · cases hidle.symm.trans ht

end Sys2Proof.Machine
end

section
/-! ### The register file: what a read gives and what a write changes (R22 to R25, R38, R39) -/

namespace Sys2Proof.Machine

/-! #### Accesses as steps -/

/-- A read at a register's offset gives the register. -/
@[simp] theorem readOffset_offset (rs : Regs) (r : Reg) : readOffset rs r.offset = rs.read r := by
  rw [readOffset, at?_offset]

/-- Reserved offsets read 0 (R38). -/
theorem readOffset_reserved (rs : Regs) {off : Nat} (h : 0x058 ≤ off) : readOffset rs off = 0#32 := by
  rw [readOffset, at?_reserved off h]

/-- An aligned read inside the block gives the word at its offset and changes nothing but what the host has got back (R39). -/
theorem stepWith_regRead (s : State) {off : Nat} (h : off < 4096) (h4 : off % 4 = 0) :
    stepWith (.regRead (s.plat.regBase + off) 4) s =
      .next (s.setHost { s.host with rdData := readOffset s.regs off, busErr := false }) := by
  have hother := stepWith_other s (.regRead (s.plat.regBase + off) 4) fun _ _ _ h => nomatch h
  rw [hother, handle, hostRead, accessOf_word _ _ h h4]

/-- An aligned write at a reserved offset is answered and changes nothing (R38). -/
theorem stepWith_reserved (s : State) (w : Word) {off : Nat} (h : off < 4096) (h4 : off % 4 = 0) (hres : 0x058 ≤ off) :
    stepWith (.regWrite (s.plat.regBase + off) 4 w) s = .next (accessOk s) := by
  have hacc := accessOf_word s.plat off h h4
  rw [stepWith_other, handle, hostWrite, hacc]
  · simp only [at?_reserved off hres]
  · rintro _ _ _ ⟨⟩
    rw [hacc]
    rintro ⟨⟩
    omega

/-- A write to a read-only register is answered and changes nothing (R22, R27). -/
theorem stepWith_readOnly (s : State) (w : Word) {r : Reg}
    (h : r = .id ∨ r = .version ∨ r = .errCode ∨ r = .errField ∨ r = .errValue) :
    stepWith (.regWrite (s.plat.regBase + r.offset) 4 w) s = .next (accessOk s) := by
  rcases h with rfl | rfl | rfl | rfl | rfl <;> exact stepWith_reg s _ w (by decide)

/-- An access that reaches the block and is not an aligned one of 32 bits inside it is undefined (R39; log entry 12). -/
theorem accessOf_undefined {p : Platform} {addr size : Nat} (hend : addr < p.regBase + 4096)
    (hreach : p.regBase ≤ addr ∨ p.regBase < addr + size)
    (hform : ¬(p.regBase ≤ addr ∧ size = 4 ∧ (addr - p.regBase) % 4 = 0)) : accessOf p addr size = .undefinedForm := by
  rw [accessOf, if_neg (by omega), if_neg hform]

/-! #### The words of `CTRL` and `STATUS`, bit by bit -/

/-- A bit as a word is set at its own place alone. -/
theorem getLsbD_bitAt (b : Bool) {k : Nat} (hk : k < 32) (n : Nat) : (bitAt b k).getLsbD n = (b && n == k) := by
  cases b with
  | false => simp [bitAt]
  | true =>
    rw [bitAt, if_pos rfl, ← BitVec.twoPow_eq, BitVec.getLsbD_twoPow]
    simp [hk, beq_eq_decide, eq_comm]

theorem getLsbD_ctrlWord (b : Bool) (n : Nat) : (ctrlWord b).getLsbD n = (b && n == 0) := getLsbD_bitAt b (by decide) n

theorem getLsbD_toWord (st : Status) (n : Nat) :
    st.toWord.getLsbD n =
      ((st.busy && n == 0) || (st.done && n == 1) || (st.error && n == 2) || (st.overrun && n == 3)) := by
  simp [Status.toWord, getLsbD_bitAt]

/-- The reserved bits of `CTRL`, and bit 1, read 0 (R24). -/
theorem ctrlWord_and_reserved (b : Bool) : ctrlWord b &&& 0xFFFFFFFE#32 = 0#32 := by cases b <;> rfl

/-- The reserved bits of `STATUS` read 0 (R25). -/
theorem toWord_and_reserved (st : Status) : st.toWord &&& 0xFFFFFFF0#32 = 0#32 := by
  apply BitVec.eq_of_getLsbD_eq
  intro n _
  rw [BitVec.getLsbD_and, getLsbD_toWord]
  rcases n with _ | _ | _ | _ | n <;> simp

/-- Bit 0 of a written word, kept as `IRQ_EN`, reads back as bit 0 (R24). -/
theorem ctrlWord_getLsbD_zero (w : Word) : ctrlWord (w.getLsbD 0) = w &&& 0x00000001#32 := by
  apply BitVec.eq_of_getLsbD_eq
  intro n _
  rw [getLsbD_ctrlWord, BitVec.getLsbD_and]
  rcases n with _ | n <;> simp

/-- The write-one-to-clear rule on the word of `STATUS` (R25). -/
theorem toWord_writeOneClear (st : Status) (w : Word) :
    (st.writeOneClear w).toWord = st.toWord &&& ~~~(w &&& 0x0000000E#32) := by
  apply BitVec.eq_of_getLsbD_eq
  intro n _
  simp only [BitVec.getLsbD_and, BitVec.getLsbD_not, getLsbD_toWord, Status.writeOneClear]
  rcases n with _ | _ | _ | _ | n <;> simp

/-! #### The parameter registers -/

/-- The registers from 0x020 up read the parameter they hold (R38). -/
theorem read_param (rs : Regs) {r : Reg} (h : 0x020 ≤ r.offset) : rs.read r = rs.params.get r := by
  cases r <;> first | rfl | exact absurd h (by decide)

/-- The registers below 0x020 do not show the parameters. -/
theorem read_setParams_of_lt (rs : Regs) (p : Params) {r : Reg} (h : r.offset < 0x020) :
    ({ rs with params := p } : Regs).read r = rs.read r := by
  cases r <;> first | rfl | exact absurd h (by decide)

theorem get_set_self (p : Params) (w : Word) {r : Reg} (h : 0x020 ≤ r.offset) : (p.set r w).get r = w := by
  cases r <;> first | rfl | exact absurd h (by decide)

theorem get_set_of_ne (p : Params) (w : Word) {r r' : Reg} (h : r' ≠ r) : (p.set r w).get r' = p.get r' := by
  cases r <;> cases r' <;> first | rfl | exact absurd rfl h

/-- A parameter write changes no other register. -/
theorem read_setParam_of_ne (rs : Regs) (w : Word) {r r' : Reg} (h : r' ≠ r) :
    ({ rs with params := rs.params.set r w } : Regs).read r' = rs.read r' := by
  rcases Nat.lt_or_ge r'.offset 0x020 with hlow | hparam
  · exact read_setParams_of_lt rs _ hlow
  · rw [read_param _ hparam, read_param _ hparam, get_set_of_ne _ _ h]

/-- A write to a register from 0x020 up stores the word as its parameter (R38). -/
theorem writeReg_param (s : State) (w : Word) {r : Reg} (h : 0x020 ≤ r.offset) :
    writeReg s r w = s.setRegs { s.regs with params := s.regs.params.set r w } := by
  cases r <;> first | rfl | exact absurd h (by decide)

/-! #### The statements -/

/-- Settles O5: the write is the acknowledgement, and the word of `STATUS` follows the write-one-to-clear rule. -/
theorem statusWriteClearsWrittenOnes : Obligations.StatusWriteClearsWrittenOnes := fun s w =>
  ⟨toWord_and_reserved s.regs.status, _, stepWith_reg s .status w (by decide), toWord_writeOneClear s.regs.status w,
    rfl, rfl, rfl, rfl, rfl, rfl⟩

/-- A write to `CTRL` as a step (R24). -/
theorem stepWith_ctrl (s : State) (w : Word) :
    stepWith (.regWrite (s.plat.regBase + 0x008) 4 w) s = .next (writeCtrl (accessOk s) w) :=
  stepWith_reg s .ctrl w (by decide)

/-- Settles O6, by bit 1 of the written word. -/
theorem ctrlWriteSetsEnableOrResets : Obligations.CtrlWriteSetsEnableOrResets := by
  intro s w
  refine ⟨ctrlWord_and_reserved s.regs.irqEn, fun hbit => ?_, fun hbit => ?_⟩
  · rw [stepWith_ctrl, writeCtrl, hbit]
    exact ⟨_, rfl, ctrlWord_getLsbD_zero w, rfl, rfl, rfl, rfl, rfl, rfl⟩
  · rw [stepWith_ctrl, writeCtrl, if_pos hbit]
    refine ⟨_, rfl, stepWith_other (accessOk s) .hardReset (fun _ _ _ h => nomatch h), ?_⟩
    rw [resetBlock_regs]
    rfl

/-- Settles O7: the register holds its word as a parameter, which no other register shows. -/
theorem parameterWriteReadsBack : Obligations.ParameterWriteReadsBack := by
  intro s r w hparam
  have hne : r ≠ .cmd := by
    rintro rfl
    exact absurd hparam (by decide)
  refine ⟨_, stepWith_reg s r w hne, ?_⟩
  rw [writeReg_param _ w hparam]
  refine ⟨?_, fun r' hr' => ?_, rfl, rfl, rfl, rfl, rfl, rfl⟩
  · rw [readOffset_offset, read_param _ hparam]
    exact get_set_self _ w hparam
  · rw [readOffset_offset, readOffset_offset]
    exact read_setParam_of_ne s.regs w hr'

/-- Settles O8: the read's rule, and the two kinds of offset whose writes are ignored. -/
theorem readsAndIgnoredWrites : Obligations.ReadsAndIgnoredWrites := by
  refine ⟨fun s off h h4 =>
      ⟨_, stepWith_regRead s h h4, rfl, readOffset_reserved s.regs, rfl, rfl, rfl, rfl, rfl, rfl, rfl⟩,
    fun s off w h h4 hoff => ⟨accessOk s, ?_, rfl, rfl, rfl, rfl, rfl, rfl⟩⟩
  rcases hoff with rfl | rfl | rfl | rfl | rfl | hres
  · exact stepWith_readOnly s w (r := .id) (by simp)
  · exact stepWith_readOnly s w (r := .version) (by simp)
  · exact stepWith_readOnly s w (r := .errCode) (by simp)
  · exact stepWith_readOnly s w (r := .errField) (by simp)
  · exact stepWith_readOnly s w (r := .errValue) (by simp)
  · exact stepWith_reserved s w h h4 hres

/-- Settles O9: the access is undefined, so it is no command request and changes what the host has got back alone. -/
theorem undefinedAccessChangesNoRegister : Obligations.UndefinedAccessChangesNoRegister := by
  intro s addr size w hend hreach hform
  have hacc := accessOf_undefined hend hreach hform
  have hwrite : stepWith (.regWrite addr size w) s = .next (undefinedAccess s false) := by
    rw [stepWith_other, handle, hostWrite, hacc]
    rintro _ _ _ ⟨⟩
    rw [hacc]
    exact nofun
  have hread : stepWith (.regRead addr size) s = .next (undefinedAccess s true) := by
    have hother := stepWith_other s (.regRead addr size) fun _ _ _ h => nomatch h
    rw [hother, handle, hostRead, hacc]
  exact ⟨⟨_, hwrite, rfl, rfl, rfl, rfl, rfl, rfl⟩, ⟨_, hread, rfl, rfl, rfl, rfl, rfl, rfl, rfl⟩⟩

/-- No bit of `STATUS` is set after reset (R25). -/
theorem toWord_reset : Status.reset.toWord = 0#32 := by decide

/-- Settles O1: each word by evaluation, the reserved offsets by their rule. -/
theorem resetLeavesTableValues : Obligations.ResetLeavesTableValues :=
  ⟨rfl, fun _ => ⟨rfl, rfl, rfl, toWord_reset, rfl, rfl, rfl, rfl,
    rfl, rfl, rfl, rfl, rfl, rfl, rfl, rfl, rfl, rfl, rfl, rfl, rfl, rfl,
    fun _ h => readOffset_reserved _ h, rfl, rfl⟩⟩

/-- Settles O3: the read's rule at the two offsets, and that of writes to read-only registers. -/
theorem identityRegistersAreConstant : Obligations.IdentityRegistersAreConstant := by
  refine ⟨fun s => ⟨⟨_, stepWith_regRead s (by decide) (by decide), rfl⟩,
      _, stepWith_regRead s (by decide) (by decide), rfl⟩,
    rfl, rfl, fun s w off hoff => ⟨accessOk s, ?_, rfl, rfl, rfl⟩⟩
  rcases hoff with rfl | rfl
  · exact stepWith_readOnly s w (r := .id) (by simp)
  · exact stepWith_readOnly s w (r := .version) (by simp)

/-- Settles O4: bit 0 of the word of `CTRL` and bit 1 of that of `STATUS` are the two inputs of the wire. -/
theorem interruptIsAWire : Obligations.InterruptIsAWire := by
  refine ⟨fun s => ?_, fun _ => rfl⟩
  have hctrl : (readOffset s.regs 0x008).getLsbD 0 = s.regs.irqEn :=
    (getLsbD_ctrlWord s.regs.irqEn 0).trans (by simp)
  have hstatus : (readOffset s.regs 0x00C).getLsbD 1 = s.regs.status.done :=
    (getLsbD_toWord s.regs.status 1).trans (by simp)
  rw [hctrl, hstatus, State.irq]

/-! #### How a step takes its event (R26, R213) -/

/-- The decoder reads every command back from its word (R93). -/
theorem decode_encode (i : Instr) : decode (encode i) = .ok i := by cases i <;> rfl

/-- A step with an event to come is the step in which that event is next. -/
theorem step_eq_stepWith {s : State} {ev : Event} {rest : List Event} (h : s.agenda = ev :: rest) :
    step s = stepWith ev (s.setAgenda rest) := by
  cases s
  cases h
  rfl

/-- A command request of a legal word runs its command. -/
theorem stepWith_cmd_of_decode {s : State} {w : Word} {i : Instr} (h : decode w = .ok i) :
    stepWith (.regWrite (s.plat.regBase + 0x010) 4 w) s = exec i (accessOk s) := by
  rw [stepWith_cmd, h]

/-- Settles O14: the event at the head of the agenda is a command request, or it is handled. -/
theorem stepRunsTheFetchedCommand : Obligations.StepRunsTheFetchedCommand := by
  refine ⟨fun s w rest i ha hw => ?_, fun s nbits i => ?_, fun s ev rest ha hne => ?_, step_of_agenda_nil⟩
  · rw [step_eq_stepWith ha]
    exact stepWith_cmd_of_decode (s := s.setAgenda rest) hw
  · rw [State.withFetchWord, BitVec.ofNat_toNat, BitVec.setWidth_eq]
    exact stepWith_cmd_of_decode (decode_encode i)
  · rw [step_eq_stepWith ha]
    exact stepWith_other (s.setAgenda rest) ev hne

end Sys2Proof.Machine
end

/-! ## Proofs of the statements on memory (20_memory.md: R71, R72, R75) -/

section
/-! ### Cleaning and invalidating the host's caches (R71, R75, R247; log entry 8) -/

namespace Sys2Proof.Machine

theorem stepWith_cacheClean (s : State) (r : Region) : stepWith (.cacheClean r) s = .next (cacheClean s r) :=
  stepWith_other s _ fun _ _ _ h => nomatch h

theorem stepWith_cacheInvalidate (s : State) (r : Region) :
    stepWith (.cacheInvalidate r) s = .next (cacheInvalidate s r) :=
  stepWith_other s _ fun _ _ _ h => nomatch h

/-- What a range leaves of a list of addresses: those outside it. -/
theorem mem_filter_outside (l : List Nat) (r : Region) (a : Nat) :
    a ∈ l.filter (fun a => !r.has a) ↔ a ∈ l ∧ r.has a = false := by
  rw [List.mem_filter, Bool.not_eq_true']

/-- Only bytes that are uncleaned, in the range and stale can take another value by a clean. -/
theorem byteAt_cacheClean {s : State} {r : Region} {a : Nat}
    (h : a ∈ s.host.uncleaned → r.has a = true → a ∉ s.host.stale) :
    (cacheClean s r).mem.byteAt a = s.mem.byteAt a := by
  obtain ⟨-, -, -, -, hbyte⟩ := leaveCaches_frame s r s.host.stale.contains
  exact hbyte a fun ⟨huncleaned, hin, hstale⟩ => h huncleaned hin (List.contains_iff_mem.mp hstale)

/-- Only bytes that are uncleaned, in the range and not stale can take another value by an invalidation. -/
theorem byteAt_cacheInvalidate {s : State} {r : Region} {a : Nat}
    (h : a ∈ s.host.uncleaned → r.has a = true → a ∈ s.host.stale) :
    (cacheInvalidate s r).mem.byteAt a = s.mem.byteAt a := by
  obtain ⟨-, -, -, -, hbyte⟩ := leaveCaches_frame s r fun a => !s.host.stale.contains a
  exact hbyte a fun ⟨huncleaned, hin, hfree⟩ => by simp [h huncleaned hin] at hfree

/-- What a clean keeps beside memory, and what it takes out of the caches. -/
theorem cacheClean_frame (s : State) (r : Region) :
    (cacheClean s r).plat = s.plat ∧ (cacheClean s r).regs = s.regs ∧ (cacheClean s r).agenda = s.agenda ∧
      (cacheClean s r).host.stale = s.host.stale ∧
      ∀ a, a ∈ (cacheClean s r).host.uncleaned ↔ a ∈ s.host.uncleaned ∧ r.has a = false := by
  obtain ⟨hplat, hregs, hagenda, -⟩ := leaveCaches_frame s r s.host.stale.contains
  exact ⟨hplat, hregs, hagenda, rfl, mem_filter_outside _ r⟩

/-- What an invalidation keeps beside memory, and what it takes out of the caches. -/
theorem cacheInvalidate_frame (s : State) (r : Region) :
    (cacheInvalidate s r).plat = s.plat ∧ (cacheInvalidate s r).regs = s.regs ∧
      (cacheInvalidate s r).agenda = s.agenda ∧
      (∀ a, a ∈ (cacheInvalidate s r).host.stale ↔ a ∈ s.host.stale ∧ r.has a = false) ∧
      ∀ a, a ∈ (cacheInvalidate s r).host.uncleaned ↔ a ∈ s.host.uncleaned ∧ r.has a = false := by
  obtain ⟨hplat, hregs, hagenda, -⟩ := leaveCaches_frame s r fun a => !s.host.stale.contains a
  exact ⟨hplat, hregs, hagenda, mem_filter_outside _ r, mem_filter_outside _ r⟩

/-- An invalidation starts no command. -/
theorem cacheInvalidate_idle {s : State} (r : Region) (h : s.eng = .idle) : (cacheInvalidate s r).eng = .idle := by
  obtain ⟨-, hkeeps, -⟩ := leaveCaches_engine s r fun a => !s.host.stale.contains a
  exact hkeeps.mp h

/-- There is a hazard exactly when an uncleaned byte lies in the source (R75). -/
theorem cacheHazard_eq_true_iff (sh : Shape) (s : State) (p : Params) :
    cacheHazard sh s p = true ↔ ∃ a ∈ s.host.uncleaned, inRange p.sA (sh.srcSize p) a = true := by
  rw [cacheHazard, List.any_eq_true]

/-- While no command runs, a host that has invalidated a byte loads what memory held before, if the caches hid no newer store
there (R71, R75, R247). -/
theorem load_after_invalidate {s : State} {r : Region} {a : Nat} (hidle : s.eng = .idle) (hsize : a < s.plat.memSize)
    (hdev : s.plat.isDevice a = false) (hin : r.has a = true) (hold : a ∈ s.host.uncleaned → a ∈ s.host.stale) :
    ∃ v, stepWith (.memLoad a) (cacheInvalidate s r) = .next v ∧ v.host.ldData = s.mem.byteAt a := by
  obtain ⟨hplat, -, -, hstale, -⟩ := cacheInvalidate_frame s r
  have hsettled : a ∉ (cacheInvalidate s r).host.stale := by simp [hstale, hin]
  refine ⟨_, (stepWith_memLoad _ a).trans (memLoad_of_settled _ a ?_ ?_ ?_ hsettled), ?_⟩
  · rwa [hplat]
  · rwa [hplat]
  · rw [cacheInvalidate_idle r hidle]
    rfl
  · exact byteAt_cacheInvalidate fun h _ => hold h

/-- A destination byte of a job that has ended is stale if it is uncleaned: the store is older than the result. -/
theorem endJob_stale_of_uncleaned {s : State} {j : Job} {a : Nat}
    (hcoherent : s.plat.dmaCoherent = true → s.host.uncleaned = []) (hdst : j.inDst a = true)
    (h : a ∈ (endJob s j).host.uncleaned) : a ∈ (endJob s j).host.stale := by
  rw [endJob_host] at h ⊢
  split at h
  · next hc => simp [hcoherent hc] at h
  · next hc =>
    rw [if_neg hc]
    exact List.mem_append_left _ ((mem_addrRange _ _ _).mpr ((inRange_iff _ _ _).mp hdst))

/-- Settles O37: the frames of the two events; the hazard of a job at its start; and, after a completion, the destination's
stale bytes, which an invalidation gives back as the command wrote them. -/
theorem cacheMaintenance : Obligations.CacheMaintenance := by
  refine ⟨fun s r => ?_, fun s i hidle hlegal hwork => ?_, fun s j r hinv hj hp hd hcover => ?_⟩
  · obtain ⟨tplat, tregs, tagenda, tstale, tuncleaned⟩ := cacheClean_frame s r
    obtain ⟨uplat, uregs, uagenda, ustale, uuncleaned⟩ := cacheInvalidate_frame s r
    refine ⟨_, _, stepWith_cacheClean s r, stepWith_cacheInvalidate s r, tuncleaned, uuncleaned, tstale, ustale, tregs,
      uregs, tplat, uplat, tagenda, uagenda, fun a ha => ?_, fun a ha => byteAt_cacheClean fun _ _ => ha,
      fun a ha => byteAt_cacheInvalidate fun _ _ => ha⟩
    have hkept : a ∈ s.host.uncleaned → r.has a ≠ true := fun h hin => by
      rcases ha with ha | ha
      · simp [hin] at ha
      · exact ha h
    exact ⟨byteAt_cacheClean fun h hin => absurd hin (hkept h), byteAt_cacheInvalidate fun h hin => absurd hin (hkept h)⟩
  · refine ⟨_, _, exec_of_legal hidle hlegal hwork, rfl, ?_⟩
    rw [← srcSize_of_legal hlegal]
    exact cacheHazard_eq_true_iff _ s _
  · have hfinish : engineFinish s j = endJob (s.setStatus s.regs.status.complete) j := by
      rw [engineFinish, if_pos hp, hd]
      rfl
    refine ⟨_, _, stepWith_engFinish hj, stepWith_cacheInvalidate _ r, fun k hk => ?_⟩
    obtain ⟨-, -, -, hjob, -, -, hcoherent⟩ := hinv
    obtain ⟨-, -, -, -, hok⟩ := hjob j hj
    have hsize : j.snap.dA + k < s.plat.memSize := by
      obtain ⟨-, -, hfits, -⟩ := hok
      exact Nat.lt_of_lt_of_le (Nat.add_lt_add_left hk _) hfits
    have hdst : j.inDst (j.snap.dA + k) = true := (inRange_iff _ _ _).mpr (by omega)
    obtain ⟨hin, hdev⟩ := hcover _ hdst
    rw [← byteAt_dst_of_written hok hd hp hk, hfinish]
    exact load_after_invalidate rfl hsize hdev hin (endJob_stale_of_uncleaned (fun hc => (hcoherent hc).1) hdst)

end Sys2Proof.Machine
end

/-! ## Proofs of the statements on encoding (30_encoding.md: R90 to R93) -/

section
/-! ### The two fields, the opcode map and the decoder (R90 to R93) -/

namespace Sys2Proof.Machine

/-- The two fields of a word put together are those it was put together from (R90). -/
theorem ofWord_toWord (c : CMD32) : CMD32.ofWord c.toWord = c := by
  simp only [CMD32.ofWord, CMD32.toWord, BitVec.extractLsb'_append_eq_left, BitVec.extractLsb'_append_eq_right]

/-- The decoder's table has every command at its row of the map (R91). -/
theorem decodeOp_opcode (i : Instr) : decodeOp i.opcode = .ok i := by cases i <;> rfl

/-- No two commands share an opcode (R91). -/
theorem opcode_injective : Function.Injective Instr.opcode := fun i _ h =>
  Except.ok.inj ((decodeOp_opcode i).symm.trans ((congrArg decodeOp h).trans (decodeOp_opcode _)))

/-- Every opcode from 0x01 to 0x0A selects a command (R91). -/
theorem exists_decodeOp_of_range {op : BitVec 8} (hlow : 0x01 ≤ op.toNat) (hhigh : op.toNat ≤ 0x0A) :
    ∃ i, decodeOp op = .ok i := by
  rw [← BitVec.setWidth_eq op, ← BitVec.ofNat_toNat]
  generalize op.toNat = n at hlow hhigh
  interval_cases n <;> exact ⟨_, rfl⟩

/-- The rows of the map are the opcodes 0x01 to 0x0A (R91, R92). -/
theorem exists_opcode_iff (op : BitVec 8) :
    (∃ i : Instr, op = i.opcode) ↔ 0x01 ≤ op.toNat ∧ op.toNat ≤ 0x0A := by
  constructor
  · rintro ⟨i, rfl⟩
    cases i <;> decide
  · rintro ⟨hlow, hhigh⟩
    obtain ⟨i, hi⟩ := exists_decodeOp_of_range hlow hhigh
    exact ⟨i, eq_opcode_of_decodeOp hi⟩

/-- A word decodes to a command exactly when its form is that command's (R93). -/
theorem decode_eq_ok_iff_format {w : Word} {i : Instr} : decode w = .ok i ↔ CMD32.ofWord w = i.format := by
  constructor
  · intro h
    rw [eq_encode_of_decode h]
    exact ofWord_toWord i.format
  · intro h
    rw [← toWord_ofWord w, h]
    exact decode_encode i

/-- A word decodes to a command exactly when its reserved field is 0 and its opcode is that command's (R91, R93). -/
theorem decode_eq_ok_iff {w : Word} {i : Instr} :
    decode w = .ok i ↔ (CMD32.ofWord w).rsvd = 0#24 ∧ (CMD32.ofWord w).op = i.opcode :=
  decode_eq_ok_iff_format.trans ⟨fun h => h ▸ ⟨rfl, rfl⟩, fun ⟨hrsvd, hop⟩ => by
    rw [Instr.format, ← hrsvd, ← hop]⟩

/-- The three checks of a form, as one range of opcodes (R92). -/
theorem wellFormed_iff (c : CMD32) :
    c.wellFormed = true ↔ c.rsvd = 0#24 ∧ 0x01 ≤ c.op.toNat ∧ c.op.toNat ≤ 0x0A := by
  have hnonzero : c.op ≠ 0x00#8 ↔ 0x01 ≤ c.op.toNat := by
    rw [Nat.one_le_iff_ne_zero, Ne, BitVec.toNat_eq]
    rfl
  rw [CMD32.wellFormed, CMD32.reservedZero, CMD32.opNonzero, CMD32.opDefined, Bool.and_eq_true, Bool.and_eq_true,
    beq_iff_eq, bne_iff_ne, decide_eq_true_iff, hnonzero, and_assoc]

/-- The words that decode are those whose form is well formed (R92, R93). -/
theorem exists_decode_iff_wellFormed (w : Word) :
    (∃ i, decode w = .ok i) ↔ (CMD32.ofWord w).wellFormed = true := by
  simp only [decode_eq_ok_iff, exists_and_left, exists_opcode_iff, wellFormed_iff]

/-- A word that is no command is illegal (R93). -/
theorem exists_decode_error_of_not_wellFormed {w : Word} (h : ¬(CMD32.ofWord w).wellFormed = true) :
    ∃ e, decode w = .error e := by
  cases hw : decode w with
  | ok i => exact absurd ((exists_decode_iff_wellFormed w).mp ⟨i, hw⟩) h
  | error e => exact ⟨e, rfl⟩

/-- A command is well formed, since its word decodes. -/
theorem instr_wellFormed (i : Instr) : i.wellFormed = true := by
  have hword : (CMD32.ofWord (encode i)).wellFormed = true :=
    (exists_decode_iff_wellFormed _).mp ⟨i, decode_encode i⟩
  rwa [encode, ofWord_toWord] at hword

/-! #### The statements -/

/-- Settles O11: the two fields and the word determine each other, and so do a command and its word. -/
theorem encodeDecodeRoundTrip : Obligations.EncodeDecodeRoundTrip :=
  ⟨ofWord_toWord, toWord_ofWord, fun i => ⟨instr_wellFormed i, decode_encode i⟩,
    fun _ _ h => (eq_encode_of_decode h).symm, exists_decode_iff_wellFormed⟩

/-- Settles O10: the decoder's table, row by row, and the range of its rows. -/
theorem decodeIsTotal : Obligations.DecodeIsTotal :=
  ⟨fun _ _ => decode_eq_ok_iff, fun w => (exists_decode_iff_wellFormed w).trans (wellFormed_iff _),
    fun _ h => exists_decode_error_of_not_wellFormed (mt (wellFormed_iff _).mp h), opcode_injective⟩

/-- Settles O13: the ten words are the commands' own; each illegal word of R92 is refused by evaluation. -/
theorem wordsOfTheOpcodeMap : Obligations.WordsOfTheOpcodeMap :=
  ⟨decode_encode .rgb2lab, decode_encode .lab2rgb, decode_encode .rgb2hsv, decode_encode .hsv2rgb,
    decode_encode .clahe, decode_encode .gammalut, decode_encode .gamma, decode_encode .bright,
    decode_encode .satboost, decode_encode .enhance,
    rfl, rfl, rfl, rfl, rfl⟩

end Sys2Proof.Machine
end

section
/-! ### The report of an illegal word (R92) -/

namespace Sys2Proof.Machine

/-- A command request of an illegal word, to an idle engine, is the error report of code 4 (R40, R92). -/
theorem stepWith_cmd_of_illegal {s : State} {w : Word} (hidle : s.eng = .idle)
    (h : ¬(CMD32.ofWord w).wellFormed = true) :
    stepWith (.regWrite (s.plat.regBase + 0x010) 4 w) s =
      .next (raiseError (beginAccept w (accessOk s)) { code := .illegalCommand, field := .cmd, value := w }) := by
  obtain ⟨e, he⟩ := exists_decode_error_of_not_wellFormed h
  rw [stepWith_cmd, he]
  rcases submitIllegal_cases w (accessOk s) with ⟨hbusy, -⟩ | ⟨-, hreport⟩
  · simp [hidle] at hbusy
  · exact congrArg Host.Outcome.next hreport

/-- Settles O12: each of the three kinds of word fails a check of its form, and the report is read off. -/
theorem illegalWordIsReported : Obligations.IllegalWordIsReported := by
  intro s w hidle hw
  have hillegal : ¬(CMD32.ofWord w).wellFormed = true := by
    rw [wellFormed_iff]
    rintro ⟨hrsvd, hlow, hhigh⟩
    rcases hw with hne | hzero | hundefined
    · exact hne hrsvd
    · exact Nat.ne_of_gt hlow (congrArg BitVec.toNat hzero)
    · exact absurd (hundefined.trans hhigh) (by decide)
  exact ⟨_, stepWith_cmd_of_illegal hidle hillegal, rfl, rfl, rfl, rfl, rfl, rfl⟩

end Sys2Proof.Machine
end

/-! ## Proofs of the statements on colour (40_color.md: R110 to R125) -/

section
/-! ### The colour conversions from acceptance to completion (R114, R117, R120, R123) -/

namespace Sys2Proof.Machine

/-- A command on an image has `3N` source bytes and `3N` destination bytes (R91). -/
theorem needs_of_usesImage {i : Instr} (h : usesImage i = true) (N : Nat) : srcNeed i N = 3 * N ∧ dstNeed i N = 3 * N := by
  cases i <;> cases h <;> exact ⟨rfl, rfl⟩

/-- A command on an image is legal when its parameters, the image registers, both lengths, both ranges and, for the tiled one,
the grid are (R201 to R207). -/
theorem legal_of_image {plat : Platform} {i : Instr} {p : Params} (huses : usesImage i = true) (hparams : ParamsLegal i p)
    (htiles : i = .enhance → ∀ limit, plat.maxTiles = some limit → tilesY p * tilesX p ≤ limit) (himg : ImageOk p)
    (hsL : p.sL = 3 * p.N) (hdL : p.dL = 3 * p.N) (hranges : RangesOk plat p) : Legal plat i p := by
  obtain ⟨hsrc, hdst, hover⟩ := hranges
  obtain ⟨hsrcNeed, hdstNeed⟩ := needs_of_usesImage huses p.N
  have hclahe : i ≠ .clahe := by
    rintro rfl
    cases huses
  exact ⟨hparams, fun _ => himg, fun _ => hsL.trans hsrcNeed.symm, hdL.trans hdstNeed.symm, fun _ _ => hsrc, fun _ => hdst,
    fun _ _ _ => hover, fun h _ => htiles (h.resolve_left hclahe)⟩

/-- A legal command on an image with pixels runs to the bytes that its rule gives for the `3N` bytes of the source. -/
theorem runsTo_image {s : State} {i : Instr} {out : List Sample} (huses : usesImage i = true) (hidle : s.eng = .idle)
    (hlegal : Legal s.plat i s.regs.params) (hN : 0 < s.regs.params.N)
    (hout : (workOf i s.regs.params (s.mem.read s.regs.params.sA (3 * s.regs.params.N))).out = out) :
    RunsTo s i (3 * s.regs.params.N) out := by
  have h := runsTo_of_legal hidle hlegal (.inr hN)
  rwa [ruleBytes, (needs_of_usesImage huses _).1, hout] at h

/-- An image read, converted pixel by pixel and laid out in planes (R63, R64). -/
theorem toPlanes_map_readImg (s : State) (f : Triple → Triple) :
    toPlanes ((readImg s.regs.params (s.mem.read s.regs.params.sA (3 * s.regs.params.N))).map f) =
      planeBytes ((imgPixels s).map f) := by
  rw [readImg_read]
  rfl

/-- Three planes read, converted pixel by pixel and laid out as an image (R63, R64). -/
theorem writeImg_map_fromPlanes (s : State) (f : Triple → Triple) :
    writeImg s.regs.params ((fromPlanes s.regs.params.N (s.mem.read s.regs.params.sA (3 * s.regs.params.N))).map f) =
      imgBytes s ((planePixels s).map f) := by
  rw [fromPlanes_read]
  exact unchunk3_eq_flatMap _

/-- Settles O21: a legal command on an image, from image to planes. -/
theorem rgb2labWritesLabPlanes : Obligations.Rgb2labWritesLabPlanes := fun s hidle himg hN hsL hdL hranges =>
  runsTo_image rfl hidle (legal_of_image rfl trivial nofun himg hsL hdL hranges) hN (toPlanes_map_readImg s rgbToLabPx)

/-- Settles O22: a legal command on an image, from planes to image. -/
theorem lab2rgbWritesImage : Obligations.Lab2rgbWritesImage := fun s hidle himg hN hsL hdL hranges =>
  runsTo_image rfl hidle (legal_of_image rfl trivial nofun himg hsL hdL hranges) hN (writeImg_map_fromPlanes s labToRgbPx)

/-- Settles O23: a legal command on an image, from image to planes. -/
theorem rgb2hsvWritesHsvPlanes : Obligations.Rgb2hsvWritesHsvPlanes := fun s hidle himg hN hsL hdL hranges =>
  runsTo_image rfl hidle (legal_of_image rfl trivial nofun himg hsL hdL hranges) hN (toPlanes_map_readImg s rgbToHsvPx)

/-- Settles O24: a legal command on an image, from planes to image. -/
theorem hsv2rgbWritesImage : Obligations.Hsv2rgbWritesImage := fun s hidle himg hN hsL hdL hranges =>
  runsTo_image rfl hidle (legal_of_image rfl trivial nofun himg hsL hdL hranges) hN (writeImg_map_fromPlanes s hsvToRgbPx)

end Sys2Proof.Machine
end

section
/-! ### Samples as rationals (R9, R10) -/

namespace Sys2Proof.Machine

theorem sampleQ_nonneg (v : Sample) : 0 ≤ sampleQ v := Nat.cast_nonneg _

theorem sampleQ_le (v : Sample) : sampleQ v ≤ 255 := Nat.cast_le_ofNat.mpr (Nat.le_of_lt_succ v.isLt)

theorem sampleQ_inj {v w : Sample} : sampleQ v = sampleQ w ↔ v = w :=
  Nat.cast_inj.trans BitVec.toNat_inj

theorem eq_of_toNat_int {v w : Sample} (h : (v.toNat : ℤ) = w.toNat) : v = w := BitVec.eq_of_toNat_eq (Int.ofNat_inj.mp h)

theorem sampleQ_cast (v : Sample) : (sampleQ v : ℝ) = v.toNat := Rat.cast_natCast _

@[simp] theorem sampleQ_zero : sampleQ 0#8 = 0 := rfl

theorem sampleQ_eq_zero {v : Sample} : sampleQ v = 0 ↔ v = 0#8 := by rw [← sampleQ_zero, sampleQ_inj]

@[simp] theorem roundTE_sampleQ (v : Sample) : roundTE (sampleQ v) = v.toNat := roundTE_natCast _

@[simp] theorem roundTE_zero : roundTE 0 = 0 := roundTE_natCast 0

/-- The byte of a rational in [0, 255] is its rounding (R10). -/
theorem clamp8_roundTE {x : ℚ} (h0 : 0 ≤ x) (h1 : x ≤ 255) : ((clamp8 (roundTE x)).toNat : ℤ) = roundTE x :=
  clamp8_of_range (roundTE_nonneg h0) (roundTE_le_of_le 255 h1)

end Sys2Proof.Machine
end

section
/-! ### RGB to HSV (R118, R119) -/

namespace Sys2Proof.Machine

/-- `V` of R118: the largest of the three samples. -/
def pxMax (r g b : Sample) : ℚ := max (max (sampleQ r) (sampleQ g)) (sampleQ b)

theorem pxMax_eq (r g b : Sample) : pxMax r g b = max (max (sampleQ r) (sampleQ g)) (sampleQ b) := rfl

/-- `d` of R118: how far the three samples lie apart. -/
def pxSpread (r g b : Sample) : ℚ := pxMax r g b - min (min (sampleQ r) (sampleQ g)) (sampleQ b)

theorem pxSpread_eq (r g b : Sample) :
    pxSpread r g b = pxMax r g b - min (min (sampleQ r) (sampleQ g)) (sampleQ b) := rfl

/-- The rational `x` lies in the span of length `d` that ends in `V`. -/
def InSpan (V d x : ℚ) : Prop := V - d ≤ x ∧ x ≤ V

theorem inSpan_iff {V d x : ℚ} : InSpan V d x ↔ V - d ≤ x ∧ x ≤ V := Iff.rfl

theorem inSpan_px (r g b : Sample) : InSpan (pxMax r g b) (pxSpread r g b) (sampleQ r) ∧
    InSpan (pxMax r g b) (pxSpread r g b) (sampleQ g) ∧ InSpan (pxMax r g b) (pxSpread r g b) (sampleQ b) := by
  have hmin : pxMax r g b - pxSpread r g b = min (min (sampleQ r) (sampleQ g)) (sampleQ b) := sub_sub_cancel _ _
  rw [inSpan_iff, inSpan_iff, inSpan_iff, hmin, pxMax_eq]
  exact ⟨⟨(min_le_left _ _).trans (min_le_left _ _), (le_max_left _ _).trans (le_max_left _ _)⟩,
    ⟨(min_le_left _ _).trans (min_le_right _ _), (le_max_right _ _).trans (le_max_left _ _)⟩,
    min_le_right _ _, le_max_right _ _⟩

/-- The maximum is one of the three. -/
theorem pxMax_mem (r g b : Sample) :
    pxMax r g b = sampleQ r ∨ pxMax r g b = sampleQ g ∨ pxMax r g b = sampleQ b := by
  rw [pxMax_eq]
  rcases max_choice (max (sampleQ r) (sampleQ g)) (sampleQ b) with h | h <;> rw [h]
  · exact (max_choice _ _).imp_right .inl
  · exact .inr (.inr rfl)

theorem pxMax_range (r g b : Sample) : 0 ≤ pxMax r g b ∧ pxMax r g b ≤ 255 := by
  rcases pxMax_mem r g b with h | h | h <;> rw [h] <;> exact ⟨sampleQ_nonneg _, sampleQ_le _⟩

theorem pxSpread_range (r g b : Sample) : 0 ≤ pxSpread r g b ∧ pxSpread r g b ≤ pxMax r g b := by
  have hmin : 0 ≤ min (min (sampleQ r) (sampleQ g)) (sampleQ b) :=
    le_min (le_min (sampleQ_nonneg r) (sampleQ_nonneg g)) (sampleQ_nonneg b)
  obtain ⟨⟨h1, h2⟩, -⟩ := inSpan_px r g b
  exact ⟨by linarith only [h1, h2], sub_le_self _ hmin⟩

/-- The spread is 0 exactly for gray. -/
theorem pxSpread_eq_zero {r g b : Sample} : pxSpread r g b = 0 ↔ r = g ∧ g = b := by
  constructor
  · intro h
    obtain ⟨⟨r1, r2⟩, ⟨g1, g2⟩, ⟨b1, b2⟩⟩ := inSpan_px r g b
    exact ⟨Iff.mp sampleQ_inj (by linarith only [h, r1, r2, g1, g2]), Iff.mp sampleQ_inj (by linarith only [h, g1, g2, b1, b2])⟩
  · rintro ⟨rfl, rfl⟩
    simp [pxSpread_eq, pxMax_eq]

/-! The three bytes of R118, none of which its `clamp8` changes. -/

theorem rgbToHsvPx_hue (r g b : Sample) : ((rgbToHsvPx (r, g, b)).1.toNat : ℤ) =
    if pxSpread r g b = 0 then 0
    else roundTE (hueDegrees (sampleQ r) (sampleQ g) (sampleQ b) (pxMax r g b) (pxSpread r g b) * 256 / 360) % 256 := by
  refine (clamp8_of_range ?_ ?_).trans rfl <;> split <;> omega

theorem rgbToHsvPx_saturation (r g b : Sample) : ((rgbToHsvPx (r, g, b)).2.1.toNat : ℤ) =
    if pxMax r g b = 0 then 0 else roundTE (255 * pxSpread r g b / pxMax r g b) := by
  refine (clamp8_of_range ?_ ?_).trans rfl
  all_goals
    obtain ⟨hV, -⟩ := pxMax_range r g b
    obtain ⟨hd, hdV⟩ := pxSpread_range r g b
    split
    · decide
  · exact roundTE_nonneg (div_nonneg (mul_nonneg (by norm_num) hd) hV)
  · exact roundTE_le_of_le 255 (div_le_of_le_mul₀ hV (by norm_num) (mul_le_mul_of_nonneg_left hdV (by norm_num)))

theorem rgbToHsvPx_value (r g b : Sample) : sampleQ (rgbToHsvPx (r, g, b)).2.2 = pxMax r g b := by
  have h : (rgbToHsvPx (r, g, b)).2.2 = clamp8 (roundTE (pxMax r g b)) := rfl
  rcases pxMax_mem r g b with hm | hm | hm <;> rw [h, hm, roundTE_sampleQ, clamp8_sample]

/-! #### The hue in degrees -/

section
variable {r g b V d : ℚ}

theorem hueDegrees_eq (r g b V d : ℚ) : hueDegrees r g b V d =
    let h := if V = r then 60 * (g - b) / d else if V = g then 120 + 60 * (b - r) / d else 240 + 60 * (r - g) / d
    if h < 0 then h + 360 else h := rfl

/-- A difference of two numbers of the span is at most 60 degrees. -/
theorem sixty_mul_sub_div_range (hd : 0 < d) (hr : InSpan V d r) (hg : InSpan V d g) :
    -60 ≤ 60 * (r - g) / d ∧ 60 * (r - g) / d ≤ 60 := by
  obtain ⟨⟨r1, r2⟩, ⟨g1, g2⟩⟩ := And.intro hr hg
  rw [le_div_iff₀ hd, div_le_iff₀ hd]
  exact ⟨by linarith only [r1, g2], by linarith only [r2, g1]⟩

/-- Red largest, blue not above green (R118). -/
theorem hueDegrees_red (hd : 0 < d) (hV : V = r) (h : b ≤ g) : hueDegrees r g b V d = 60 * (g - b) / d := by
  have hnonneg : 0 ≤ 60 * (g - b) / d := div_nonneg (mul_nonneg (by norm_num) (sub_nonneg.mpr h)) hd.le
  simp only [hueDegrees_eq, if_pos hV, if_neg hnonneg.not_gt]

/-- Red largest, blue above green: the hue is brought above 0 (R118). -/
theorem hueDegrees_red_wrap (hd : 0 < d) (hV : V = r) (h : g < b) :
    hueDegrees r g b V d = 60 * (g - b) / d + 360 := by
  have hneg : 60 * (g - b) / d < 0 := div_neg_of_neg_of_pos (mul_neg_of_pos_of_neg (by norm_num) (sub_neg.mpr h)) hd
  simp only [hueDegrees_eq, if_pos hV, if_pos hneg]

/-- Green largest (R118). -/
theorem hueDegrees_green (hd : 0 < d) (hr : InSpan V d r) (hb : InSpan V d b) (hVr : V ≠ r) (hV : V = g) :
    hueDegrees r g b V d = 120 + 60 * (b - r) / d := by
  obtain ⟨hlow, -⟩ := sixty_mul_sub_div_range hd hb hr
  simp only [hueDegrees_eq, if_neg hVr, if_pos hV]
  exact if_neg (by linarith only [hlow])

/-- Blue largest (R118). -/
theorem hueDegrees_blue (hd : 0 < d) (hr : InSpan V d r) (hg : InSpan V d g) (hVr : V ≠ r) (hVg : V ≠ g) :
    hueDegrees r g b V d = 240 + 60 * (r - g) / d := by
  obtain ⟨hlow, -⟩ := sixty_mul_sub_div_range hd hr hg
  simp only [hueDegrees_eq, if_neg hVr, if_neg hVg]
  exact if_neg (by linarith only [hlow])

/-- The hue lies in [0, 360) on every branch (R118). -/
theorem hueDegrees_range (hd : 0 < d) (hr : InSpan V d r) (hg : InSpan V d g) (hb : InSpan V d b) :
    0 ≤ hueDegrees r g b V d ∧ hueDegrees r g b V d < 360 := by
  by_cases hVr : V = r
  · obtain ⟨hlow, hhigh⟩ := sixty_mul_sub_div_range hd hg hb
    rcases le_or_gt b g with h | h
    · rw [hueDegrees_red hd hVr h]
      exact ⟨div_nonneg (mul_nonneg (by norm_num) (sub_nonneg.mpr h)) hd.le, hhigh.trans_lt (by norm_num)⟩
    · rw [hueDegrees_red_wrap hd hVr h]
      have hneg : 60 * (g - b) / d < 0 :=
        div_neg_of_neg_of_pos (mul_neg_of_pos_of_neg (by norm_num) (sub_neg.mpr h)) hd
      exact ⟨by linarith only [hlow], by linarith only [hneg]⟩
  · by_cases hVg : V = g
    · obtain ⟨hlow, hhigh⟩ := sixty_mul_sub_div_range hd hb hr
      rw [hueDegrees_green hd hr hb hVr hVg]
      exact ⟨by linarith only [hlow], by linarith only [hhigh]⟩
    · obtain ⟨hlow, hhigh⟩ := sixty_mul_sub_div_range hd hr hg
      rw [hueDegrees_blue hd hr hg hVr hVg]
      exact ⟨by linarith only [hlow], by linarith only [hhigh]⟩

end

/-- The rounded hue lies in 0 to 256, and is 256, which `mod 256` brings to 0, from 359.296875 degrees on (R119). -/
theorem hue_rounding {h : ℚ} (h0 : 0 ≤ h) (h1 : h < 360) :
    0 ≤ roundTE (h * 256 / 360) ∧ roundTE (h * 256 / 360) ≤ 256 ∧
      roundTE (h * 256 / 360) % 256 = (if roundTE (h * 256 / 360) = 256 then 0 else roundTE (h * 256 / 360)) ∧
      (roundTE (h * 256 / 360) = 256 ↔ 359296875 / 1000000 ≤ h) := by
  have hle : roundTE (h * 256 / 360) ≤ 256 := roundTE_le_of_le 256 (by push_cast; linarith only [h1])
  have hnonneg : 0 ≤ roundTE (h * 256 / 360) := roundTE_nonneg (by positivity)
  refine ⟨hnonneg, hle, by split <;> omega, ?_⟩
  have hbound : ((256 : ℤ) : ℚ) - 1 / 2 = 359296875 / 1000000 * 256 / 360 := by norm_num
  have heven : (256 : ℤ) % 2 = 0 := rfl
  rw [← hle.ge_iff_eq, le_roundTE_iff, hbound, div_lt_div_iff_of_pos_right (by norm_num), mul_lt_mul_iff_of_pos_right (by norm_num),
    div_left_inj' (by norm_num), mul_left_inj' (by norm_num), le_iff_lt_or_eq, and_iff_left heven, eq_comm]

/-- The hue of a pixel that is not gray lies in [0, 360). -/
theorem hueDegrees_px_range {r g b : Sample} (hd : 0 < pxSpread r g b) :
    0 ≤ hueDegrees (sampleQ r) (sampleQ g) (sampleQ b) (pxMax r g b) (pxSpread r g b) ∧
      hueDegrees (sampleQ r) (sampleQ g) (sampleQ b) (pxMax r g b) (pxSpread r g b) < 360 :=
  have ⟨hr, hg, hb⟩ := inSpan_px r g b
  hueDegrees_range hd hr hg hb

/-- A gray pixel has neither hue nor saturation, and its value is the gray level (R119). -/
theorem rgbToHsvPx_gray (v : Sample) : rgbToHsvPx (v, v, v) = (0#8, 0#8, v) := by
  have hd : pxSpread v v v = 0 := Iff.mpr pxSpread_eq_zero ⟨rfl, rfl⟩
  have hhue := rgbToHsvPx_hue v v v
  have hsat := rgbToHsvPx_saturation v v v
  have hval := rgbToHsvPx_value v v v
  rw [if_pos hd] at hhue
  rw [hd, mul_zero, zero_div, roundTE_zero, ite_self] at hsat
  rw [pxMax_eq, max_self, max_self, sampleQ_inj] at hval
  exact Prod.ext (eq_of_toNat_int hhue) (Prod.ext (eq_of_toNat_int hsat) hval)

/-- The hue bytes of the pure colours of one level, from their 0, 120 and 240 degrees (R119). -/
theorem rgbToHsvPx_pure {v : Sample} (hv : v ≠ 0#8) : (rgbToHsvPx (v, 0#8, 0#8)).1 = 0#8 ∧
    (rgbToHsvPx (0#8, v, 0#8)).1 = 85#8 ∧ (rgbToHsvPx (0#8, 0#8, v)).1 = 171#8 := by
  have hpos : sampleQ v ≠ 0 := mt (Iff.mp sampleQ_eq_zero) hv
  have hnonneg := sampleQ_nonneg v
  have h85 : roundTE (256 / 3) = 85 := roundTE_unique _ 85 (by norm_num) (by norm_num)
  have h171 : roundTE (512 / 3) = 171 := roundTE_unique _ 171 (by norm_num) (by norm_num)
  refine ⟨eq_of_toNat_int ?_, eq_of_toNat_int ?_, eq_of_toNat_int ?_⟩ <;>
    rw [rgbToHsvPx_hue, if_neg (by simp [pxSpread_eq_zero, hv, hv.symm])]
  · have h : hueDegrees (sampleQ v) 0 0 (sampleQ v) (sampleQ v) = 0 := by simp [hueDegrees_eq]
    simp [pxMax_eq, pxSpread_eq, hnonneg, h]
  · have h : hueDegrees 0 (sampleQ v) 0 (sampleQ v) (sampleQ v) = 120 := by simp [hueDegrees_eq, hpos]
    norm_num [pxMax_eq, pxSpread_eq, hnonneg, h, h85]
  · have h : hueDegrees 0 0 (sampleQ v) (sampleQ v) (sampleQ v) = 240 := by simp [hueDegrees_eq, hpos]
    norm_num [pxMax_eq, pxSpread_eq, hnonneg, h, h171]

/-- Settles O47: the three bytes of R118, the hue by its branch, and the rounding of the hue. -/
theorem hsvDerivedFacts : Obligations.HsvDerivedFacts := by
  refine ⟨fun v => ?_, rgbToHsvPx_gray 0#8, fun v hv => rgbToHsvPx_pure hv, fun r g b hne => ?_, fun r g b => ?_⟩
  · rw [rgbToHsvPx_gray]
    exact ⟨rfl, rfl⟩
  · have hd : pxSpread r g b ≠ 0 := mt (Iff.mp pxSpread_eq_zero) hne
    obtain ⟨h0, h1⟩ := hueDegrees_px_range ((pxSpread_range r g b).1.lt_of_ne' hd)
    obtain ⟨n0, n1, nmod, n256⟩ := hue_rounding h0 h1
    exact ⟨n0, n1, nmod, h1, n256, (rgbToHsvPx_hue r g b).trans (if_neg hd)⟩
  · refine ⟨rgbToHsvPx_value r g b, rgbToHsvPx_saturation r g b, fun hd => ?_, fun hd => ?_⟩
    · exact eq_of_toNat_int ((rgbToHsvPx_hue r g b).trans (if_pos hd))
    · have hpos : 0 < pxSpread r g b := (pxSpread_range r g b).1.lt_of_ne' hd
      obtain ⟨hr, hg, hb⟩ := inSpan_px r g b
      obtain ⟨h0, h1⟩ := hueDegrees_px_range hpos
      exact ⟨_, hueDegrees_red hpos, hueDegrees_red_wrap hpos, hueDegrees_green hpos hr hb, hueDegrees_blue hpos hr hg,
        h0, h1, (rgbToHsvPx_hue r g b).trans (if_neg hd)⟩

end Sys2Proof.Machine
end

section
/-! ### HSV to RGB (R121, R122) -/

namespace Sys2Proof.Machine

/-! #### The six sectors -/

/-! The sector formula, one equation a sector (R121). -/

section
variable (v p q t : ℚ)

theorem hsvSector_eq (i : ℤ) : hsvSector i v p q t =
    if i = 0 then (v, t, p) else if i = 1 then (q, v, p) else if i = 2 then (p, v, t) else if i = 3 then (p, q, v)
    else if i = 4 then (t, p, v) else (v, p, q) := rfl

end

/-- What holds of the triple of each of the six sectors holds of every one (R121). -/
theorem hsvSector_cases {P : Vec3 → Prop} (i : ℤ) {v p q t : ℚ} (h0 : P (v, t, p)) (h1 : P (q, v, p)) (h2 : P (p, v, t))
    (h3 : P (p, q, v)) (h4 : P (t, p, v)) (h5 : P (v, p, q)) : P (hsvSector i v p q t) := by
  rw [hsvSector_eq]
  exact iteInduction (fun _ => h0) fun _ => iteInduction (fun _ => h1) fun _ => iteInduction (fun _ => h2) fun _ =>
    iteInduction (fun _ => h3) fun _ => iteInduction (fun _ => h4) fun _ => h5

/-- In every sector one of the three components is `v` and another is `p`, whatever the rest (R121). -/
theorem hsvSector_has (i : ℤ) (v p q t : ℚ) :
    ((hsvSector i v p q t).1 = v ∨ (hsvSector i v p q t).2.1 = v ∨ (hsvSector i v p q t).2.2 = v) ∧
    ((hsvSector i v p q t).1 = p ∨ (hsvSector i v p q t).2.1 = p ∨ (hsvSector i v p q t).2.2 = p) :=
  hsvSector_cases (P := fun c => (c.1 = v ∨ c.2.1 = v ∨ c.2.2 = v) ∧ (c.1 = p ∨ c.2.1 = p ∨ c.2.2 = p)) i
    ⟨.inl rfl, .inr (.inr rfl)⟩ ⟨.inr (.inl rfl), .inr (.inr rfl)⟩ ⟨.inr (.inl rfl), .inl rfl⟩
    ⟨.inr (.inr rfl), .inl rfl⟩ ⟨.inr (.inr rfl), .inr (.inl rfl)⟩ ⟨.inl rfl, .inr (.inl rfl)⟩

/-- What holds of `v`, `p`, `q` and `t` holds of the three components of every sector (R121). -/
theorem hsvSector_forall {P : ℚ → Prop} (i : ℤ) {v p q t : ℚ} (hv : P v) (hp : P p) (hq : P q) (ht : P t) :
    P (hsvSector i v p q t).1 ∧ P (hsvSector i v p q t).2.1 ∧ P (hsvSector i v p q t).2.2 :=
  hsvSector_cases (P := fun c => P c.1 ∧ P c.2.1 ∧ P c.2.2) i ⟨hv, ht, hp⟩ ⟨hq, hv, hp⟩ ⟨hp, hv, ht⟩ ⟨hp, hq, hv⟩
    ⟨ht, hp, hv⟩ ⟨hv, hp, hq⟩

/-- `h'` of R121: the hue in sixths of the circle. -/
def hueSixths (h : Sample) : ℚ := sampleQ h * 360 / 256 / 60

theorem hueSixths_eq (h : Sample) : hueSixths h = sampleQ h * 360 / 256 / 60 := rfl

theorem hueSixths_range (h : Sample) : 0 ≤ hueSixths h ∧ hueSixths h < 6 := by
  have h0 := sampleQ_nonneg h
  have h1 := sampleQ_le h
  rw [hueSixths_eq]
  exact ⟨by positivity, by linarith only [h1]⟩

/-- Every hue lies in one of the sectors 0 to 5 (R122). -/
theorem hueSixths_floor_range (h : Sample) : 0 ≤ (hueSixths h).floor ∧ (hueSixths h).floor ≤ 5 := by
  obtain ⟨h0, h6⟩ := hueSixths_range h
  have hlt : ⌊hueSixths h⌋ < 6 := Int.floor_lt.mpr h6
  exact ⟨Int.floor_nonneg.mpr h0, Int.le_of_lt_add_one hlt⟩

/-- The fraction of a sector that R121 writes `f`. -/
def sectorFraction (h : Sample) : ℚ := hueSixths h - ((hueSixths h).floor : ℚ)

theorem sectorFraction_range (h : Sample) : 0 ≤ sectorFraction h ∧ sectorFraction h ≤ 1 :=
  ⟨sub_nonneg.mpr (Int.floor_le _), sub_le_iff_le_add'.mpr (Int.lt_floor_add_one _).le⟩

/-- The three components of R121 for a saturated triple. -/
def hsvComponents (h s v : Sample) : Vec3 :=
  hsvSector (hueSixths h).floor (sampleQ v / 255) (sampleQ v / 255 * (1 - sampleQ s / 255))
    (sampleQ v / 255 * (1 - sampleQ s / 255 * sectorFraction h))
    (sampleQ v / 255 * (1 - sampleQ s / 255 * (1 - sectorFraction h)))

theorem hsvToRgbPx_unsaturated (h v : Sample) : hsvToRgbPx (h, 0#8, v) = (v, v, v) := rfl

theorem hsvToRgbPx_saturated (h v : Sample) {s : Sample} (hs : s ≠ 0#8) : hsvToRgbPx (h, s, v) =
    (clamp8 (roundTE (255 * (hsvComponents h s v).1)), clamp8 (roundTE (255 * (hsvComponents h s v).2.1)),
      clamp8 (roundTE (255 * (hsvComponents h s v).2.2))) := if_neg hs

theorem hsvComponents_eq (h s v : Sample) : hsvComponents h s v =
    hsvSector (hueSixths h).floor (sampleQ v / 255) (sampleQ v / 255 * (1 - sampleQ s / 255))
      (sampleQ v / 255 * (1 - sampleQ s / 255 * sectorFraction h))
      (sampleQ v / 255 * (1 - sampleQ s / 255 * (1 - sectorFraction h))) := rfl

theorem hsvComponents_has (h s v : Sample) :
    ((hsvComponents h s v).1 = sampleQ v / 255 ∨ (hsvComponents h s v).2.1 = sampleQ v / 255 ∨
      (hsvComponents h s v).2.2 = sampleQ v / 255) ∧
    ((hsvComponents h s v).1 = sampleQ v / 255 * (1 - sampleQ s / 255) ∨
      (hsvComponents h s v).2.1 = sampleQ v / 255 * (1 - sampleQ s / 255) ∨
      (hsvComponents h s v).2.2 = sampleQ v / 255 * (1 - sampleQ s / 255)) := hsvSector_has _ _ _ _ _

/-- In sector `i` the components are those of the sector formula (R121). -/
theorem hsvComponents_of_sector {h : Sample} (s v : Sample) {i : ℤ} (hi : (i : ℚ) ≤ hueSixths h ∧ hueSixths h < i + 1) :
    hsvComponents h s v = hsvSector i (sampleQ v / 255) (sampleQ v / 255 * (1 - sampleQ s / 255))
      (sampleQ v / 255 * (1 - sampleQ s / 255 * sectorFraction h))
      (sampleQ v / 255 * (1 - sampleQ s / 255 * (1 - sectorFraction h))) := by
  have hfloor : (hueSixths h).floor = i := Int.floor_eq_iff.mpr hi
  rw [hsvComponents_eq, hfloor]

/-! #### The components as bytes -/

/-- A component lies in [0, v], as a scale factor in [0, 1] makes it. -/
def InLevel (v : Sample) (c : ℚ) : Prop := 0 ≤ c ∧ c ≤ sampleQ v / 255

theorem inLevel_self (v : Sample) : InLevel v (sampleQ v / 255) := ⟨div_nonneg (sampleQ_nonneg v) (by norm_num), le_rfl⟩

theorem inLevel_scaled (s v : Sample) {f : ℚ} (hf : 0 ≤ f ∧ f ≤ 1) :
    InLevel v (sampleQ v / 255 * (1 - sampleQ s / 255 * f)) := by
  obtain ⟨hv, -⟩ := inLevel_self v
  have hs0 : 0 ≤ sampleQ s / 255 := div_nonneg (sampleQ_nonneg s) (by norm_num)
  have hs1 : sampleQ s / 255 ≤ 1 := (div_le_one (by norm_num)).mpr (sampleQ_le s)
  have hsf0 : 0 ≤ sampleQ s / 255 * f := mul_nonneg hs0 hf.1
  have hsf1 : sampleQ s / 255 * f ≤ 1 := mul_le_one₀ hs1 hf.1 hf.2
  exact ⟨mul_nonneg hv (sub_nonneg.mpr hsf1), mul_le_of_le_one_right hv (sub_le_self _ hsf0)⟩

theorem inLevel_components (h s v : Sample) : InLevel v (hsvComponents h s v).1 ∧
    InLevel v (hsvComponents h s v).2.1 ∧ InLevel v (hsvComponents h s v).2.2 := by
  obtain ⟨hf0, hf1⟩ := sectorFraction_range h
  refine hsvSector_forall _ (inLevel_self v) ?_ (inLevel_scaled s v ⟨hf0, hf1⟩) (inLevel_scaled s v ⟨?_, ?_⟩)
  · simpa using inLevel_scaled s v (f := 1) ⟨zero_le_one, le_rfl⟩
  · exact sub_nonneg.mpr hf1
  · exact sub_le_self _ hf0

/-- The byte of a component in [0, v] is its rounding, and not above `V8` (R122). -/
theorem byte_of_inLevel {v : Sample} {c : ℚ} (hc : InLevel v c) :
    ((clamp8 (roundTE (255 * c))).toNat : ℤ) = roundTE (255 * c) ∧ (clamp8 (roundTE (255 * c))).toNat ≤ v.toNat := by
  obtain ⟨h0, h1⟩ := hc
  have hle : 255 * c ≤ sampleQ v := (le_div_iff₀' (by norm_num)).mp h1
  have hbyte := clamp8_roundTE (x := 255 * c) (mul_nonneg (by norm_num) h0) (hle.trans (sampleQ_le v))
  have hround : roundTE (255 * c) ≤ v.toNat := roundTE_le_of_le _ hle
  exact ⟨hbyte, by omega⟩

/-- The component `v` is the byte `V8` itself (R122). -/
theorem byte_of_level (v : Sample) : clamp8 (roundTE (255 * (sampleQ v / 255))) = v := by
  rw [mul_div_cancel₀ _ (by norm_num), roundTE_sampleQ, clamp8_sample]

/-- `p` of R121 is 0 at full saturation. -/
theorem level_mul_zero (v : Sample) : sampleQ v / 255 * (1 - sampleQ 255#8 / 255) = 0 := by
  have hfull : sampleQ 255#8 / 255 = 1 := div_self (by decide)
  rw [hfull, sub_self, mul_zero]

/-- `V8` is one of the outputs, and full saturation leaves one output 0 (R122). -/
theorem hsvToRgbPx_extremes (h s v : Sample) :
    let y := hsvToRgbPx (h, s, v)
    (y.1 = v ∨ y.2.1 = v ∨ y.2.2 = v) ∧ (s = 255#8 → y.1 = 0#8 ∨ y.2.1 = 0#8 ∨ y.2.2 = 0#8) := by
  by_cases hs : s = 0#8
  · subst hs
    exact ⟨.inl rfl, nofun⟩
  · rw [hsvToRgbPx_saturated h v hs]
    obtain ⟨hv, hp⟩ := hsvComponents_has h s v
    have level {c : ℚ} (hc : c = sampleQ v / 255) : clamp8 (roundTE (255 * c)) = v := by rw [hc, byte_of_level]
    have zero (hs : s = 255#8) {c : ℚ} (hc : c = sampleQ v / 255 * (1 - sampleQ s / 255)) :
        clamp8 (roundTE (255 * c)) = 0#8 := by
      rw [hc, hs, level_mul_zero, mul_zero, roundTE_zero]
      rfl
    exact ⟨hv.imp level (.imp level level), fun hs => hp.imp (zero hs) (.imp (zero hs) (zero hs))⟩

/-- The three bytes of a saturated triple are the roundings of its components, and none is above `V8` (R121, R122). -/
theorem hsvToRgbPx_bytes (h s v : Sample) :
    let y := hsvToRgbPx (h, s, v)
    (s ≠ 0#8 → (y.1.toNat : ℤ) = roundTE (255 * (hsvComponents h s v).1) ∧
      (y.2.1.toNat : ℤ) = roundTE (255 * (hsvComponents h s v).2.1) ∧
      (y.2.2.toNat : ℤ) = roundTE (255 * (hsvComponents h s v).2.2)) ∧
    y.1.toNat ≤ v.toNat ∧ y.2.1.toNat ≤ v.toNat ∧ y.2.2.toNat ≤ v.toNat := by
  by_cases hs : s = 0#8
  · subst hs
    exact ⟨fun h => absurd rfl h, le_rfl, le_rfl, le_rfl⟩
  · rw [hsvToRgbPx_saturated h v hs]
    obtain ⟨h1, h2, h3⟩ := inLevel_components h s v
    exact ⟨fun _ => ⟨(byte_of_inLevel h1).1, (byte_of_inLevel h2).1, (byte_of_inLevel h3).1⟩,
      (byte_of_inLevel h1).2, (byte_of_inLevel h2).2, (byte_of_inLevel h3).2⟩

/-- Settles O48: the roundings of the sector's components, and what `v` and `p` make of one of them. -/
theorem hsvToRgbDerivedFacts : Obligations.HsvToRgbDerivedFacts := by
  refine ⟨fun h s v => ?_, fun h s v => ⟨?_, fun hs => ?_⟩, level_mul_zero, hueSixths_floor_range, by norm_num [sampleQ]⟩
  · obtain ⟨hone, hzero⟩ := hsvToRgbPx_extremes h s v
    exact ⟨hone, hzero, (hsvToRgbPx_bytes h s v).2⟩
  · rintro rfl
    exact hsvToRgbPx_unsaturated h v
  · have hbytes := (hsvToRgbPx_bytes h s v).1 hs
    obtain ⟨h0, h6⟩ := hueSixths_range h
    refine ⟨fun hi => ?_, fun hi => ?_, fun hi => ?_, fun hi => ?_, fun hi => ?_, fun hi => ?_, h0, h6⟩
    · rwa [hsvComponents_of_sector s v (i := 0) (by norm_num; exact hi)] at hbytes
    · rwa [hsvComponents_of_sector s v (i := 1) (by norm_num; exact hi)] at hbytes
    · rwa [hsvComponents_of_sector s v (i := 2) (by norm_num; exact hi)] at hbytes
    · rwa [hsvComponents_of_sector s v (i := 3) (by norm_num; exact hi)] at hbytes
    · rwa [hsvComponents_of_sector s v (i := 4) (by norm_num; exact hi)] at hbytes
    · rwa [hsvComponents_of_sector s v (i := 5) (by norm_num; exact hi)] at hbytes

end Sys2Proof.Machine
end

section
/-! ### Rounding on real numbers (R10, R13) -/

namespace Sys2Proof.Machine

theorem isRoundTE_iff {x : ℝ} {n : ℤ} : IsRoundTE x n ↔ |x - n| ≤ 1 / 2 ∧ (|x - n| = 1 / 2 → n % 2 = 0) := Iff.rfl

/-- The rounding of a rational is its rounding as a real number. -/
theorem isRoundTE_cast (x : ℚ) : IsRoundTE x (roundTE x) := by
  obtain ⟨hnear, htie⟩ := roundTE_spec x
  have habs : |(x : ℝ) - roundTE x| = ((|x - roundTE x| : ℚ) : ℝ) := by push_cast; rfl
  have hhalf : (1 / 2 : ℝ) = ((1 / 2 : ℚ) : ℝ) := by norm_num
  rw [isRoundTE_iff, habs, hhalf, Rat.cast_le, Rat.cast_inj]
  exact ⟨hnear, htie⟩

theorem real_half_pos : (0 : ℝ) < 1 / 2 := one_half_pos

/-- What lies between two numbers that round alike rounds as they do. -/
theorem IsRoundTE.between {lo x hi : ℝ} {n : ℤ} (hlo : IsRoundTE lo n) (hhi : IsRoundTE hi n) (h1 : lo ≤ x) (h2 : x ≤ hi) :
    IsRoundTE x n := by
  obtain ⟨lo1, -⟩ := abs_le.mp hlo.1
  obtain ⟨-, hi2⟩ := abs_le.mp hhi.1
  refine ⟨abs_le.mpr ⟨lo1.trans (sub_le_sub_right h1 _), (sub_le_sub_right h2 _).trans hi2⟩, fun htie => ?_⟩
  rcases (abs_eq (le_of_lt real_half_pos)).mp htie with h | h
  · have htop : hi - n = 1 / 2 := le_antisymm hi2 (by rw [← h]; exact sub_le_sub_right h2 _)
    exact hhi.2 (by rw [htop, abs_of_pos real_half_pos])
  · have hbottom : lo - n = -(1 / 2) := le_antisymm (by rw [← h]; exact sub_le_sub_right h1 _) lo1
    exact hlo.2 (by rw [hbottom, abs_neg, abs_of_pos real_half_pos])

end Sys2Proof.Machine
end

section
/-! ### The enclosures of the LAB conversion (R110 to R112, R13)

Each function of the chain has a lower and an upper rational bound of its value at every real number between the bounds of
its argument; the bounds of the whole chain are composed of these. -/

namespace Sys2Proof.Machine

/-! #### Roots -/

theorem rat_eq_toNat_div {x : ℚ} (hx : 0 ≤ x) : x = (x.num.toNat : ℚ) / x.den := by
  have hnum : ((x.num.toNat : ℤ) : ℚ) = x.num := by rw [Int.toNat_of_nonneg (Rat.num_nonneg.mpr hx)]
  rw [← Int.cast_natCast, hnum, Rat.num_div_den]

/-- The numerator of `rootDown` is the integer root of the scaled power, rounded down. -/
theorem rootDown_eq (P r s : ℕ) {x : ℚ} (hx : 0 ≤ x) :
    rootDown P r s x = (iroot r (P + 1) ⌊x ^ s * 2 ^ (r * P)⌋₊ : ℚ) / 2 ^ P := by
  have hpow : x ^ s * 2 ^ (r * P) = ((x.num.toNat ^ s * 2 ^ (r * P) : ℕ) : ℚ) / (x.den ^ s : ℕ) := by
    conv_lhs => rw [rat_eq_toNat_div hx]
    push_cast
    ring
  rw [hpow, Nat.floor_div_eq_div]
  rfl

theorem rootDown_nonneg (P r s : ℕ) (x : ℚ) : 0 ≤ rootDown P r s x := div_nonneg (Nat.cast_nonneg _) (by positivity)

theorem rootUp_eq (P r s : ℕ) (x : ℚ) : rootUp P r s x = rootDown P r s x + 1 / 2 ^ P := rfl

theorem rootDown_le_rootUp (P r s : ℕ) (x : ℚ) : rootDown P r s x ≤ rootUp P r s x :=
  le_add_of_nonneg_right (by positivity)

/-- The powers of `rootDown` and `rootUp` stand on the two sides of `x ^ s`. -/
theorem root_pow_bounds (P : ℕ) {r s : ℕ} {x : ℚ} (hr : 0 < r) (hx : 0 ≤ x) (hbig : x ^ s < 2 ^ r) :
    rootDown P r s x ^ r ≤ x ^ s ∧ x ^ s ≤ rootUp P r s x ^ r := by
  have hscaled : 0 ≤ x ^ s * 2 ^ (r * P) := by positivity
  have hbits : ⌊x ^ s * 2 ^ (r * P)⌋₊ < 2 ^ ((P + 1) * r) := by
    rw [Nat.floor_lt hscaled]
    push_cast
    calc x ^ s * 2 ^ (r * P) < 2 ^ r * 2 ^ (r * P) := mul_lt_mul_of_pos_right hbig (by positivity)
      _ = 2 ^ ((P + 1) * r) := by ring
  obtain ⟨hlow, hhigh⟩ := iroot_spec r (P + 1) _ hr hbits
  rw [Nat.le_floor_iff hscaled] at hlow
  have hhigh' : x ^ s * 2 ^ (r * P) < ((iroot r (P + 1) ⌊x ^ s * 2 ^ (r * P)⌋₊ + 1) ^ r : ℕ) :=
    (Nat.floor_lt hscaled).mp hhigh
  push_cast at hlow hhigh'
  rw [rootUp_eq, rootDown_eq P r s hx, ← add_div, div_pow, div_pow, ← pow_mul, mul_comm P r, div_le_iff₀ (by positivity),
    le_div_iff₀ (by positivity)]
  exact ⟨hlow, hhigh'.le⟩

/-- `rootDown` and `rootUp` enclose the real root (R13). -/
theorem root_encloses (P : ℕ) {r s : ℕ} {x : ℚ} (hr : 0 < r) (hx : 0 ≤ x) (hbig : x ^ s < 2 ^ r) :
    (rootDown P r s x : ℝ) ≤ (x : ℝ) ^ ((s : ℝ) / r) ∧ (x : ℝ) ^ ((s : ℝ) / r) ≤ rootUp P r s x := by
  obtain ⟨hlow, hhigh⟩ := root_pow_bounds P hr hx hbig
  have hdown := rootDown_nonneg P r s x
  have hup := hdown.trans (rootDown_le_rootUp P r s x)
  have hroot : ((x : ℝ) ^ ((s : ℝ) / r)) ^ r = (x : ℝ) ^ s := by
    rw [← Real.rpow_mul_natCast (by exact_mod_cast hx), div_mul_cancel₀ _ (by exact_mod_cast hr.ne'), Real.rpow_natCast]
  have hpos : 0 ≤ (x : ℝ) ^ ((s : ℝ) / r) := Real.rpow_nonneg (by exact_mod_cast hx) _
  rw [← pow_le_pow_iff_left₀ (by exact_mod_cast hdown) hpos hr.ne', ← pow_le_pow_iff_left₀ hpos (by exact_mod_cast hup) hr.ne',
    hroot]
  exact ⟨by exact_mod_cast hlow, by exact_mod_cast hhigh⟩

/-- The upper bound of a root of a number up to 1 is at most 2. -/
theorem rootUp_le_two (P : ℕ) {r s : ℕ} {x : ℚ} (hr : 0 < r) (hx : 0 ≤ x) (h1 : x ≤ 1) : rootUp P r s x ≤ 2 := by
  have hpow : x ^ s ≤ 1 := pow_le_one₀ hx h1
  obtain ⟨hlow, -⟩ := root_pow_bounds P hr hx (hpow.trans_lt (one_lt_pow₀ one_lt_two hr.ne'))
  have hdown : rootDown P r s x ≤ 1 := (pow_le_one_iff_of_nonneg (rootDown_nonneg P r s x) hr.ne').mp (hlow.trans hpow)
  have hstep : (1 : ℚ) / 2 ^ P ≤ 1 := div_le_one_of_le₀ (one_le_pow₀ one_le_two) (by positivity)
  rw [rootUp_eq]
  linarith

/-! #### The functions of the chain -/

/-- The real number `x` lies between the two rationals. -/
def Encloses (lo hi : ℚ) (x : ℝ) : Prop := (lo : ℝ) ≤ x ∧ x ≤ hi

theorem encloses_iff {lo hi : ℚ} {x : ℝ} : Encloses lo hi x ↔ (lo : ℝ) ≤ x ∧ x ≤ hi := Iff.rfl

/-- An enclosure within [0, 2], where `rootDown` and `rootUp` are bounds at every precision. -/
def EnclosesLight (lo hi : ℚ) (x : ℝ) : Prop := 0 ≤ lo ∧ hi ≤ 2 ∧ Encloses lo hi x

theorem linDown_eq (P : ℕ) (v : Sample) : linDown P v =
    if sampleQ v / 255 ≤ 4045 / 100000 then sampleQ v / 255 / (1292 / 100)
    else rootDown P 5 12 ((sampleQ v / 255 + 55 / 1000) / (1055 / 1000)) := rfl

theorem linUp_eq (P : ℕ) (v : Sample) : linUp P v =
    if sampleQ v / 255 ≤ 4045 / 100000 then sampleQ v / 255 / (1292 / 100)
    else rootUp P 5 12 ((sampleQ v / 255 + 55 / 1000) / (1055 / 1000)) := rfl

theorem linR_eq (v : Sample) : linR v = if (v.toNat : ℝ) / 255 ≤ 0.04045 then (v.toNat : ℝ) / 255 / 12.92
    else (((v.toNat : ℝ) / 255 + 0.055) / 1.055) ^ (2.4 : ℝ) := rfl

/-- `lin` of R110. -/
theorem lin_encloses (P : ℕ) (v : Sample) : EnclosesLight (linDown P v) (linUp P v) (linR v) := by
  have h0 : 0 ≤ sampleQ v / 255 := div_nonneg (sampleQ_nonneg v) (by norm_num)
  have h1 : sampleQ v / 255 ≤ 1 := (div_le_one (by norm_num)).mpr (sampleQ_le v)
  have hcast : (v.toNat : ℝ) / 255 = ((sampleQ v / 255 : ℚ) : ℝ) := by
    rw [Rat.cast_div, sampleQ_cast, Rat.cast_ofNat]
  have hcond : (v.toNat : ℝ) / 255 ≤ 0.04045 ↔ sampleQ v / 255 ≤ 4045 / 100000 := by
    rw [hcast, show (0.04045 : ℝ) = ((4045 / 100000 : ℚ) : ℝ) by norm_num, Rat.cast_le]
  rw [linDown_eq, linUp_eq, linR_eq]
  by_cases hc : sampleQ v / 255 ≤ 4045 / 100000
  · have hlin : (v.toNat : ℝ) / 255 / 12.92 = ((sampleQ v / 255 / (1292 / 100) : ℚ) : ℝ) := by
      rw [hcast]
      push_cast
      norm_num
    rw [if_pos (hcond.mpr hc), if_pos hc, if_pos hc, hlin]
    exact ⟨div_nonneg h0 (by norm_num), (div_le_self h0 (by norm_num)).trans (h1.trans one_le_two), le_rfl, le_rfl⟩
  · set x : ℚ := (sampleQ v / 255 + 55 / 1000) / (1055 / 1000) with hx
    have hx0 : 0 ≤ x := div_nonneg (add_nonneg h0 (by norm_num)) (by norm_num)
    have hx1 : x ≤ 1 := (div_le_one (by norm_num)).mpr ((add_le_add_left h1 _).trans_eq (by norm_num))
    have hroot : (((v.toNat : ℝ) / 255 + 0.055) / 1.055) ^ (2.4 : ℝ) = (x : ℝ) ^ (((12 : ℕ) : ℝ) / (5 : ℕ)) := by
      rw [hcast, hx]
      push_cast
      norm_num
    rw [if_neg (hcond.not.mpr hc), if_neg hc, if_neg hc, hroot]
    exact ⟨rootDown_nonneg .., rootUp_le_two P (by norm_num) hx0 hx1,
      root_encloses P (by norm_num) hx0 ((pow_le_one₀ hx0 hx1).trans_lt (by norm_num))⟩

theorem matM_eq : matM = ((412453 / 1000000, 357580 / 1000000, 180423 / 1000000),
    (212671 / 1000000, 715160 / 1000000, 72169 / 1000000), (19334 / 1000000, 119193 / 1000000, 950227 / 1000000)) := rfl

theorem white_eq : whiteX = 950456 / 1000000 ∧ whiteY = 1 ∧ whiteZ = 1088754 / 1000000 := ⟨rfl, rfl, rfl⟩

/-- The entries of `M` as real numbers (R111). -/
theorem matM_cast : ((matM.1.1 : ℝ) = 0.412453 ∧ (matM.1.2.1 : ℝ) = 0.357580 ∧ (matM.1.2.2 : ℝ) = 0.180423) ∧
    ((matM.2.1.1 : ℝ) = 0.212671 ∧ (matM.2.1.2.1 : ℝ) = 0.715160 ∧ (matM.2.1.2.2 : ℝ) = 0.072169) ∧
    (matM.2.2.1 : ℝ) = 0.019334 ∧ (matM.2.2.2.1 : ℝ) = 0.119193 ∧ (matM.2.2.2.2 : ℝ) = 0.950227 := by
  rw [matM_eq]
  refine ⟨⟨?_, ?_, ?_⟩, ⟨?_, ?_, ?_⟩, ?_, ?_, ?_⟩ <;> norm_num only

/-- The white point as real numbers (R111). -/
theorem white_cast : (whiteX : ℝ) = 0.950456 ∧ (whiteY : ℝ) = 1 ∧ (whiteZ : ℝ) = 1.088754 := by
  norm_num [white_eq]

theorem dot_eq (u v : Vec3) : dot u v = u.1 * v.1 + u.2.1 * v.2.1 + u.2.2 * v.2.2 := rfl

theorem dot_cast (u v : Vec3) : (dot u v : ℝ) = u.1 * v.1 + u.2.1 * v.2.1 + u.2.2 * v.2.2 := by
  rw [dot_eq, Rat.cast_add, Rat.cast_add, Rat.cast_mul, Rat.cast_mul, Rat.cast_mul]

/-- The entries of a row of `M` are not negative and sum to the coordinate `w` of the white point (R111). -/
def WhiteRow (m : Vec3) (w : ℚ) : Prop := 0 < w ∧ (0 ≤ m.1 ∧ 0 ≤ m.2.1 ∧ 0 ≤ m.2.2) ∧ m.1 + m.2.1 + m.2.2 = w

theorem matM_whiteRows : WhiteRow matM.1 whiteX ∧ WhiteRow matM.2.1 whiteY ∧ WhiteRow matM.2.2 whiteZ := by
  obtain ⟨hX, hY, hZ⟩ := white_eq
  rw [matM_eq, hX, hY, hZ]
  refine ⟨⟨?_, ⟨?_, ?_, ?_⟩, ?_⟩, ⟨?_, ⟨?_, ?_, ?_⟩, ?_⟩, ⟨?_, ⟨?_, ?_, ?_⟩, ?_⟩⟩ <;> norm_num only

/-- A row of `M` over its coordinate of the white point (R111, R112). -/
theorem row_encloses {m lo hi : Vec3} {w : ℚ} {x y z : ℝ} (hm : WhiteRow m w) (hx : EnclosesLight lo.1 hi.1 x)
    (hy : EnclosesLight lo.2.1 hi.2.1 y) (hz : EnclosesLight lo.2.2 hi.2.2 z) :
    EnclosesLight (dot m lo / w) (dot m hi / w) ((m.1 * x + m.2.1 * y + m.2.2 * z) / w) := by
  obtain ⟨hw, ⟨m1, m2, m3⟩, hsum⟩ := hm
  obtain ⟨x0, x2, xlo, xhi⟩ := hx
  obtain ⟨y0, y2, ylo, yhi⟩ := hy
  obtain ⟨z0, z2, zlo, zhi⟩ := hz
  have hwR : (0 : ℝ) < w := Rat.cast_pos.mpr hw
  have m1R : (0 : ℝ) ≤ m.1 := Rat.cast_nonneg.mpr m1
  have m2R : (0 : ℝ) ≤ m.2.1 := Rat.cast_nonneg.mpr m2
  have m3R : (0 : ℝ) ≤ m.2.2 := Rat.cast_nonneg.mpr m3
  refine ⟨div_nonneg ?_ hw.le, (div_le_iff₀ hw).mpr ?_, ?_, ?_⟩
  · exact add_nonneg (add_nonneg (mul_nonneg m1 x0) (mul_nonneg m2 y0)) (mul_nonneg m3 z0)
  · rw [dot_eq, ← hsum, mul_add, mul_add, mul_comm 2, mul_comm 2, mul_comm 2]
    exact add_le_add (add_le_add (mul_le_mul_of_nonneg_left x2 m1) (mul_le_mul_of_nonneg_left y2 m2))
      (mul_le_mul_of_nonneg_left z2 m3)
  · rw [Rat.cast_div, dot_cast]
    exact div_le_div_of_nonneg_right (add_le_add (add_le_add (mul_le_mul_of_nonneg_left xlo m1R)
      (mul_le_mul_of_nonneg_left ylo m2R)) (mul_le_mul_of_nonneg_left zlo m3R)) hwR.le
  · rw [Rat.cast_div, dot_cast]
    exact div_le_div_of_nonneg_right (add_le_add (add_le_add (mul_le_mul_of_nonneg_left xhi m1R)
      (mul_le_mul_of_nonneg_left yhi m2R)) (mul_le_mul_of_nonneg_left zhi m3R)) hwR.le

/-- `f` of R112 on its linear part. -/
theorem labFR_linear {t : ℝ} (h : t ≤ 216 / 24389) : labFR t = (24389 / 27 * t + 16) / 116 := if_neg h.not_gt

/-- `f` of R112 on its root part. -/
theorem labFR_root {t : ℝ} (h : 216 / 24389 < t) : labFR t = t ^ (1 / 3 : ℝ) := if_pos h

/-- `f` of R112 is monotone: `6/29` is its value at the break on either side. -/
theorem labFR_mono : Monotone labFR := by
  have hbreak : ((6 / 29 : ℝ) ^ 3) ^ (1 / 3 : ℝ) = 6 / 29 := by
    rw [← Real.rpow_natCast, ← Real.rpow_mul (by norm_num)]
    norm_num
  have hlinear {t u : ℝ} (h : t ≤ u) : (24389 / 27 * t + 16) / 116 ≤ (24389 / 27 * u + 16) / 116 :=
    div_le_div_of_nonneg_right (add_le_add_left (mul_le_mul_of_nonneg_left h (by norm_num)) 16) (by norm_num)
  intro t u htu
  rcases le_or_gt u (216 / 24389) with hu | hu
  · rw [labFR_linear hu, labFR_linear (htu.trans hu)]
    exact hlinear htu
  · rw [labFR_root hu]
    rcases le_or_gt t (216 / 24389) with ht | ht
    · calc labFR t ≤ 6 / 29 := (labFR_linear ht).trans_le ((hlinear ht).trans_eq (by norm_num))
        _ ≤ u ^ (1 / 3 : ℝ) := hbreak ▸ Real.rpow_le_rpow (by norm_num) (le_of_eq_of_le (by norm_num) hu.le) (by norm_num)
    · rw [labFR_root ht]
      exact Real.rpow_le_rpow (ht.le.trans' (by norm_num)) htu (by norm_num)

theorem labFDown_eq (P : ℕ) (t : ℚ) :
    labFDown P t = if labEps < t then rootDown P 3 1 t else (labKap * t + 16) / 116 := rfl

theorem labFUp_eq (P : ℕ) (t : ℚ) :
    labFUp P t = if labEps < t then rootUp P 3 1 t else (labKap * t + 16) / 116 := rfl

theorem labKap_eq : labKap = 24389 / 27 := rfl

/-- `labFDown` and `labFUp` enclose `f` at a rational (R112). -/
theorem labF_encloses_self (P : ℕ) {t : ℚ} (h0 : 0 ≤ t) (h2 : t ≤ 2) : Encloses (labFDown P t) (labFUp P t) (labFR t) := by
  have hcond : (216 / 24389 : ℝ) < t ↔ labEps < t := by
    rw [show (216 / 24389 : ℝ) = ((labEps : ℚ) : ℝ) by norm_num [labEps], Rat.cast_lt]
  rw [encloses_iff, labFDown_eq, labFUp_eq]
  by_cases ht : labEps < t
  · rw [if_pos ht, if_pos ht, labFR_root (hcond.mpr ht)]
    have h := root_encloses P (r := 3) (s := 1) (by norm_num) h0 (by linarith)
    rwa [Nat.cast_one, Nat.cast_ofNat] at h
  · have hlin : labFR t = ((labKap * t + 16) / 116 : ℚ) := by
      rw [labFR_linear (not_lt.mp (hcond.not.mpr ht)), labKap_eq]
      push_cast
      rfl
    rw [if_neg ht, if_neg ht, hlin]
    exact ⟨le_rfl, le_rfl⟩

/-- `f` of R112 at a real number that is itself only enclosed. -/
theorem labF_encloses (P : ℕ) {lo hi : ℚ} {t : ℝ} (h : EnclosesLight lo hi t) :
    Encloses (labFDown P lo) (labFUp P hi) (labFR t) := by
  obtain ⟨h0, h2, hlo, hhi⟩ := h
  have hle : lo ≤ hi := by exact_mod_cast hlo.trans hhi
  exact ⟨(labF_encloses_self P h0 (hle.trans h2)).1.trans (labFR_mono hlo),
    (labFR_mono hhi).trans (labF_encloses_self P (h0.trans hle) h2).2⟩

/-! #### The three channels -/

/-- The bounds that the model carries through the chain enclose the three values of `f` (R111, R112). -/
theorem labFBounds_enclose (P : ℕ) (r g b : Sample) :
    Encloses (labFBounds P r g b).1.1 (labFBounds P r g b).2.1 (labFR (xR r g b / 0.950456)) ∧
    Encloses (labFBounds P r g b).1.2.1 (labFBounds P r g b).2.2.1 (labFR (yR r g b / 1)) ∧
    Encloses (labFBounds P r g b).1.2.2 (labFBounds P r g b).2.2.2 (labFR (zR r g b / 1.088754)) := by
  have row {m : Vec3} {w : ℚ} (hm : WhiteRow m w) :=
    labF_encloses P (row_encloses (lo := (linDown P r, linDown P g, linDown P b))
      (hi := (linUp P r, linUp P g, linUp P b)) hm (lin_encloses P r) (lin_encloses P g) (lin_encloses P b))
  obtain ⟨⟨hX1, hX2, hX3⟩, ⟨hY1, hY2, hY3⟩, hZ1, hZ2, hZ3⟩ := matM_cast
  obtain ⟨hwX, hwY, hwZ⟩ := white_cast
  have hX : xR r g b / 0.950456 =
      ((matM.1.1 : ℝ) * linR r + matM.1.2.1 * linR g + matM.1.2.2 * linR b) / whiteX := by
    rw [xR, hX1, hX2, hX3, hwX]
  have hY : yR r g b / 1 =
      ((matM.2.1.1 : ℝ) * linR r + matM.2.1.2.1 * linR g + matM.2.1.2.2 * linR b) / whiteY := by
    rw [yR, hY1, hY2, hY3, hwY]
  have hZ : zR r g b / 1.088754 =
      ((matM.2.2.1 : ℝ) * linR r + matM.2.2.2.1 * linR g + matM.2.2.2.2 * linR b) / whiteZ := by
    rw [zR, hZ1, hZ2, hZ3, hwZ]
  rw [hX, hY, hZ]
  obtain ⟨hMX, hMY, hMZ⟩ := matM_whiteRows
  exact ⟨row hMX, row hMY, row hMZ⟩

theorem roundBetween_eq (lo hi : ℚ) :
    roundBetween lo hi = if roundTE lo = roundTE hi then some (clamp8 (roundTE lo)) else none := rfl

/-- A byte that an enclosure decides is the rounding of every number enclosed (R10). -/
theorem roundBetween_sound {lo hi : ℚ} {x : ℝ} {v : Sample} (h : Encloses lo hi x) (hv : roundBetween lo hi = some v) :
    ∃ n : ℤ, IsRoundTE x n ∧ v = clamp8 n := by
  obtain ⟨hlo, hhi⟩ := h
  rw [roundBetween_eq, Option.ite_none_right_eq_some, Option.some_inj] at hv
  obtain ⟨heq, rfl⟩ := hv
  exact ⟨roundTE lo, (isRoundTE_cast lo).between (heq ▸ isRoundTE_cast hi) hlo hhi, rfl⟩

/-- The enclosure of a lightness (R112). -/
theorem Encloses.lightness {lo hi : ℚ} {y : ℝ} (h : Encloses lo hi y) :
    Encloses ((116 * lo - 16) * 255 / 100) ((116 * hi - 16) * 255 / 100) ((116 * y - 16) * 255 / 100) := by
  obtain ⟨hlo, hhi⟩ := h
  constructor <;> push_cast <;> linarith only [hlo, hhi]

/-- The enclosure of a colour coordinate (R112). -/
theorem Encloses.coordinate {lo hi lo' hi' : ℚ} {x y : ℝ} (k : ℕ) (hx : Encloses lo hi x) (hy : Encloses lo' hi' y) :
    Encloses (k * (lo - hi') + 128) (k * (hi - lo') + 128) (k * (x - y) + 128) := by
  obtain ⟨xlo, xhi⟩ := hx
  obtain ⟨ylo, yhi⟩ := hy
  have hk : (0 : ℝ) ≤ k := Nat.cast_nonneg k
  constructor <;> push_cast
  · exact add_le_add_left (mul_le_mul_of_nonneg_left (sub_le_sub xlo yhi) hk) 128
  · exact add_le_add_left (mul_le_mul_of_nonneg_left (sub_le_sub xhi ylo) hk) 128

/-- Settles O44: the enclosures of `f` carried through the three formulas of R112, and rounded. -/
theorem labEnclosureIsSound : Obligations.LabEnclosureIsSound := by
  refine ⟨fun P r g b v => ?_, fun r g b v => ⟨fun h => ?_, fun h => ?_, fun h => ?_⟩⟩
  · obtain ⟨hx, hy, hz⟩ := labFBounds_enclose P r g b
    exact ⟨roundBetween_sound hy.lightness, roundBetween_sound (hx.coordinate 500 hy), roundBetween_sound (hy.coordinate 200 hz)⟩
  all_goals
    simp only [rgbToLabPx, h, Option.getD_some]

end Sys2Proof.Machine
end

section
/-! ### Rounding by comparison (R10, R13) -/

namespace Sys2Proof.Machine

/-- The search by bits asks its question only of numbers above the one it starts from. -/
theorem greedy_congr {p q : ℕ → Bool} (b : ℕ) {acc : ℕ} (h : ∀ n, acc < n → p n = q n) : greedy p b acc = greedy q b acc := by
  induction b generalizing acc with
  | zero => rfl
  | succ b ih =>
    have hpow : 0 < 2 ^ b := by positivity
    rw [greedy, greedy, h _ (by omega), ih h, ih fun n hn => h n (by omega)]

/-- The number `x` rounds to `n` or to a number above it (R10). -/
def RoundsToAtLeast (x : ℝ) (n : ℕ) : Prop := (n : ℝ) - 1 / 2 < x ∨ x = n - 1 / 2 ∧ n % 2 = 0

theorem roundsToAtLeast_iff {x : ℝ} {n : ℕ} :
    RoundsToAtLeast x n ↔ (n : ℝ) - 1 / 2 < x ∨ x = n - 1 / 2 ∧ n % 2 = 0 := Iff.rfl

theorem RoundsToAtLeast.of_le {x : ℝ} {m n : ℕ} (hmn : m ≤ n) (h : RoundsToAtLeast x n) : RoundsToAtLeast x m := by
  rcases hmn.eq_or_lt with rfl | hlt
  · exact h
  · have hcast : (m : ℝ) + 1 ≤ n := by exact_mod_cast hlt
    rcases h with h | ⟨h, -⟩ <;> exact .inl (by linarith only [h, hcast])

theorem not_roundsToAtLeast_succ {x : ℝ} {n : ℕ} (h : ¬RoundsToAtLeast x (n + 1)) :
    x ≤ n + 1 / 2 ∧ (x = n + 1 / 2 → n % 2 = 0) := by
  rw [roundsToAtLeast_iff, not_or, not_lt, not_and] at h
  obtain ⟨hle, hodd⟩ := h
  have hnext : ((n + 1 : ℕ) : ℝ) - 1 / 2 = n + 1 / 2 := by
    push_cast
    ring
  rw [hnext] at hle hodd
  refine ⟨hle, fun htie => ?_⟩
  have := hodd htie
  omega

/-- The last number that `x` rounds to or above is its rounding. -/
theorem isRoundTE_of_last {x : ℝ} {n : ℕ} (hn : RoundsToAtLeast x n) (hle : x ≤ n + 1 / 2)
    (htie : x = n + 1 / 2 → n % 2 = 0) : IsRoundTE x n := by
  have heven : n % 2 = 0 → ((n : ℕ) : ℤ) % 2 = 0 := by omega
  rw [isRoundTE_iff, Int.cast_natCast]
  rcases hn with h | ⟨rfl, hev⟩
  · refine ⟨abs_le.mpr ⟨by linarith only [h], sub_le_iff_le_add'.mpr hle⟩, fun habs => heven (htie ?_)⟩
    rcases (abs_eq (le_of_lt real_half_pos)).mp habs with h' | h'
    · exact sub_eq_iff_eq_add'.mp h'
    · exact absurd h' (by linarith only [h])
  · rw [sub_sub_cancel_left, abs_neg, abs_of_pos real_half_pos]
    exact ⟨le_rfl, fun _ => heven hev⟩

/-- What `roundByCmp` asks of a number is whether `x` rounds to at least that, when the comparison is that of `x` (R10). -/
theorem roundByCmp_eq_greedy {cmp : ℕ → Ordering} {x : ℝ} (hcmp : ∀ n : ℕ, 1 ≤ n → cmp n = compare x (n - 1 / 2))
    {p : ℕ → Bool} (hp : ∀ n, p n = true ↔ RoundsToAtLeast x n) : roundByCmp cmp = greedy p 8 0 := by
  refine greedy_congr 8 fun n hn => ?_
  rw [hcmp n hn, Bool.eq_iff_iff, hp]
  rcases lt_trichotomy x (n - 1 / 2) with h | h | h
  · rw [compare_lt_iff_lt.mpr h]
    simp only [roundsToAtLeast_iff, h.not_gt, h.ne, false_and, or_self, Bool.false_eq_true]
  · rw [compare_eq_iff_eq.mpr h]
    simp [roundsToAtLeast_iff, h]
  · rw [compare_gt_iff_gt.mpr h]
    simp only [roundsToAtLeast_iff, h, true_or]

/-- `roundByCmp` rounds every number in [0, 255] that the comparison is right about (R10). -/
theorem roundByCmp_spec {cmp : ℕ → Ordering} {x : ℝ} (h0 : 0 ≤ x) (h255 : x ≤ 255)
    (hcmp : ∀ n : ℕ, 1 ≤ n → cmp n = compare x (n - 1 / 2)) :
    roundByCmp cmp ≤ 255 ∧ IsRoundTE x (roundByCmp cmp : ℕ) := by
  classical
  have hzero : RoundsToAtLeast x 0 := h0.trans_lt' (by norm_num) |> .inl
  obtain ⟨-, hlt, hreached, hlast⟩ := greedy_spec (fun n => decide (RoundsToAtLeast x n))
    (fun m n hmn hn => decide_eq_true ((of_decide_eq_true hn).of_le hmn)) 8 0 (decide_eq_true hzero)
  rw [← roundByCmp_eq_greedy hcmp fun n => decide_eq_true_iff] at hlt hreached hlast
  generalize roundByCmp cmp = n at hlt hreached hlast
  have hnext : x ≤ n + 1 / 2 ∧ (x = n + 1 / 2 → n % 2 = 0) := by
    rcases (show n ≤ 255 by omega).eq_or_lt with rfl | hn
    · have hlt : x < (255 : ℕ) + 1 / 2 := h255.trans_lt (by norm_num)
      exact ⟨hlt.le, fun h => absurd h hlt.ne⟩
    · exact not_roundsToAtLeast_succ fun h => absurd (hlast _ (by omega) (decide_eq_true h)) (by omega)
  exact ⟨by omega, isRoundTE_of_last (of_decide_eq_true hreached) hnext.1 hnext.2⟩

end Sys2Proof.Machine
end

section
/-! ### The sRGB encoding (R116) -/

namespace Sys2Proof.Machine

theorem cmpQ_eq_compare (x y : ℚ) : cmpQ x y = compare x y := by
  rcases lt_trichotomy x y with h | h | h
  · rw [compare_lt_iff_lt.mpr h, cmpQ, if_pos h]
  · rw [compare_eq_iff_eq.mpr h, cmpQ, if_neg h.not_lt, if_pos h]
  · rw [compare_gt_iff_gt.mpr h, cmpQ, if_neg h.not_gt, if_neg h.ne']

/-- A strictly increasing map of both sides leaves a comparison as it is. -/
theorem compare_congr {α β : Type} [LinearOrder α] [LinearOrder β] {a b : α} {c d : β} (hlt : a < b ↔ c < d)
    (heq : a = b ↔ c = d) : compare a b = compare c d := by
  rcases lt_trichotomy a b with h | h | h
  · rw [compare_lt_iff_lt.mpr h, compare_lt_iff_lt.mpr (hlt.mp h)]
  · rw [compare_eq_iff_eq.mpr h, compare_eq_iff_eq.mpr (heq.mp h)]
  · have h' : d < c := lt_of_not_ge fun hcd => by
      rcases hcd.lt_or_eq with h' | h'
      · exact h.not_gt (hlt.mpr h')
      · exact h.ne' (heq.mpr h')
    rw [compare_gt_iff_gt.mpr h, compare_gt_iff_gt.mpr h']

/-- `enc` of R116 above its linear part, on a clamped component. -/
noncomputable def encPowR (c : ℝ) : ℝ := 1.055 * c ^ (1 / 2.4 : ℝ) - 0.055

theorem encPowR_eq (c : ℝ) : encPowR c = 1.055 * c ^ (1 / 2.4 : ℝ) - 0.055 := rfl

/-- The root of `enc` is compared by its twelfth power. -/
theorem encRoot_pow {c : ℝ} (hc : 0 ≤ c) : (c ^ (1 / 2.4 : ℝ)) ^ 12 = c ^ 5 := by
  rw [← Real.rpow_mul_natCast hc, ← Real.rpow_natCast]
  norm_num

/-- The comparison on whole powers is that of `255·enc(c)` with `n − 1/2` (R13, R116). -/
theorem encCmp_eq_compare {c : ℚ} (hc : 0 < c) {n : ℕ} (hn : 1 ≤ n) :
    encCmp c n = compare (255 * encPowR c) ((n : ℝ) - 1 / 2) := by
  set y : ℚ := ((2 * (n : ℚ) - 1) / 510 + 55 / 1000) / (1055 / 1000) with hy
  have hn' : (1 : ℚ) ≤ n := by exact_mod_cast hn
  have hy0 : 0 ≤ y := by
    exact div_nonneg (add_nonneg (div_nonneg (by linarith only [hn']) (by norm_num)) (by norm_num)) (by norm_num)
  have hcR : (0 : ℝ) < c := by exact_mod_cast hc
  have hyR : (0 : ℝ) ≤ y := by exact_mod_cast hy0
  have hroot : 0 ≤ (c : ℝ) ^ (1 / 2.4 : ℝ) := Real.rpow_nonneg hcR.le _
  have hlevel : (n : ℝ) - 1 / 2 = 255 * (1.055 * y - 0.055) := by
    rw [hy]
    push_cast
    ring
  rw [encCmp, cmpQ_eq_compare, hlevel, encPowR_eq]
  refine compare_congr ?_ ?_
  · rw [← Rat.cast_lt (K := ℝ), Rat.cast_pow, Rat.cast_pow, ← encRoot_pow hcR.le,
      pow_lt_pow_iff_left₀ hroot hyR (by norm_num), mul_lt_mul_iff_of_pos_left (by norm_num), sub_lt_sub_iff_right,
      mul_lt_mul_iff_of_pos_left (by norm_num)]
  · rw [← Rat.cast_inj (α := ℝ), Rat.cast_pow, Rat.cast_pow, ← encRoot_pow hcR.le,
      pow_left_inj₀ hroot hyR (by norm_num), mul_right_inj' (by norm_num), sub_left_inj, mul_right_inj' (by norm_num)]

theorem encPowR_scaled (c : ℝ) : 255 * encPowR c = (10761 * c ^ (1 / 2.4 : ℝ) - 561) / 40 := by
  rw [encPowR_eq]
  ring

/-- The encoding compares with a level as the fifth power of the component does with the twelfth of that level's root. -/
theorem encPowR_le_iff {c : ℝ} (hc : 0 ≤ c) (w : ℕ) :
    255 * encPowR c ≤ w ↔ c ^ 5 ≤ ((40 * w + 561) / 10761 : ℝ) ^ 12 := by
  rw [← encRoot_pow hc, pow_le_pow_iff_left₀ (Real.rpow_nonneg hc _) (by positivity) (by norm_num), encPowR_scaled,
    div_le_iff₀ (by norm_num), sub_le_iff_le_add, mul_comm (w : ℝ), le_div_iff₀' (by norm_num)]

theorem le_encPowR_iff {c : ℝ} (hc : 0 ≤ c) (w : ℕ) :
    w ≤ 255 * encPowR c ↔ ((40 * w + 561) / 10761 : ℝ) ^ 12 ≤ c ^ 5 := by
  rw [← encRoot_pow hc, pow_le_pow_iff_left₀ (by positivity) (Real.rpow_nonneg hc _) (by norm_num), encPowR_scaled,
    le_div_iff₀ (by norm_num), le_sub_iff_add_le, mul_comm (w : ℝ), div_le_iff₀' (by norm_num)]

/-- Above the linear part, 255 times the encoding lies in [0, 255] (R116). -/
theorem encPowR_range {c : ℝ} (hlow : 31308 / 10000000 < c) (hhigh : c ≤ 1) :
    0 ≤ 255 * encPowR c ∧ 255 * encPowR c ≤ 255 := by
  have hc : 0 ≤ c := (hlow.trans' (by norm_num)).le
  have h0 := (le_encPowR_iff hc 0).mpr (le_trans (by norm_num) (pow_le_pow_left₀ (by norm_num) hlow.le 5))
  have h255 := (encPowR_le_iff hc 255).mpr ((pow_le_one₀ hc hhigh).trans (by norm_num))
  rw [Nat.cast_zero] at h0
  rw [Nat.cast_ofNat] at h255
  exact ⟨h0, h255⟩

/-- The component clamped to [0, 1], which `enc` and `encByte` start from (R116). -/
def clampUnit (l : ℚ) : ℚ := min (max l 0) 1

theorem clampUnit_eq (l : ℚ) : clampUnit l = min (max l 0) 1 := rfl

theorem clampUnit_range (l : ℚ) : 0 ≤ clampUnit l ∧ clampUnit l ≤ 1 :=
  ⟨le_min (le_max_right _ _) zero_le_one, min_le_right _ _⟩

theorem encR_cast (l : ℚ) : encR l =
    if clampUnit l ≤ 31308 / 10000000 then ((1292 / 100 * clampUnit l : ℚ) : ℝ) else encPowR (clampUnit l) := by
  have hcast : min (max (l : ℝ) 0) 1 = (clampUnit l : ℝ) := by
    rw [clampUnit_eq, Rat.cast_min, Rat.cast_max, Rat.cast_zero, Rat.cast_one]
  have hcond : (clampUnit l : ℝ) ≤ 0.0031308 ↔ clampUnit l ≤ 31308 / 10000000 := by
    rw [show (0.0031308 : ℝ) = ((31308 / 10000000 : ℚ) : ℝ) by norm_num, Rat.cast_le]
  have hlin : (12.92 : ℝ) * clampUnit l = (1292 / 100 * clampUnit l : ℚ) := by
    push_cast
    norm_num
  rw [encR, hcast, hlin]
  exact if_congr hcond rfl rfl

/-- The byte of a linear component is the exact rounding of its encoding (R116). -/
theorem encByte_isRoundTE (l : ℚ) : IsRoundTE (255 * encR l) ((encByte l).toNat : ℤ) := by
  obtain ⟨h0, h1⟩ := clampUnit_range l
  have hbyte : encByte l = if clampUnit l ≤ 31308 / 10000000 then clamp8 (roundTE (255 * (1292 / 100 * clampUnit l)))
      else clamp8 (roundByCmp (encCmp (clampUnit l))) := rfl
  rw [encR_cast, hbyte]
  by_cases hlin : clampUnit l ≤ 31308 / 10000000
  · rw [if_pos hlin, if_pos hlin, clamp8_roundTE (by positivity) (by linarith only [hlin])]
    exact_mod_cast isRoundTE_cast (255 * (1292 / 100 * clampUnit l))
  · have hpos : 0 < clampUnit l := (by norm_num : (0 : ℚ) < 31308 / 10000000).trans (not_le.mp hlin)
    obtain ⟨e0, e255⟩ := encPowR_range (c := clampUnit l) (by simpa using (Rat.cast_lt (K := ℝ)).mpr (not_le.mp hlin)) (by exact_mod_cast h1)
    obtain ⟨hmax, hround⟩ := roundByCmp_spec (cmp := encCmp (clampUnit l)) e0 e255 fun n hn => encCmp_eq_compare hpos hn
    rw [if_neg hlin, if_neg hlin, clamp8_of_range (by omega) (by omega)]
    exact hround

end Sys2Proof.Machine
end

section
/-! ### LAB to RGB (R115, R116) -/

namespace Sys2Proof.Machine

/-- The product of a matrix, given by rows, with a vector. -/
def mulVec (m : Vec3 × Vec3 × Vec3) (v : Vec3) : Vec3 := (dot m.1 v, dot m.2.1 v, dot m.2.2 v)

theorem mulVec_eq (m : Vec3 × Vec3 × Vec3) (v : Vec3) : mulVec m v = (dot m.1 v, dot m.2.1 v, dot m.2.2 v) := rfl

/-- The rows of `M` on real numbers (R111). -/
theorem dot_matM_cast (v : Vec3) :
    (dot matM.1 v : ℝ) = 0.412453 * v.1 + 0.357580 * v.2.1 + 0.180423 * v.2.2 ∧
    (dot matM.2.1 v : ℝ) = 0.212671 * v.1 + 0.715160 * v.2.1 + 0.072169 * v.2.2 ∧
    (dot matM.2.2 v : ℝ) = 0.019334 * v.1 + 0.119193 * v.2.1 + 0.950227 * v.2.2 := by
  obtain ⟨⟨hX1, hX2, hX3⟩, ⟨hY1, hY2, hY3⟩, hZ1, hZ2, hZ3⟩ := matM_cast
  rw [dot_cast, dot_cast, dot_cast, hX1, hX2, hX3, hY1, hY2, hY3, hZ1, hZ2, hZ3]
  exact ⟨rfl, rfl, rfl⟩

theorem det3_matM_ne_zero : det3 matM ≠ 0 := by norm_num [det3, matM_eq]

/-- `Minv` is a right inverse of `M`: its entries are the cofactors over the determinant (R116). -/
theorem mulVec_matM_matMinv (v : Vec3) : mulVec matM (mulVec matMinv v) = v := by
  have hdet : det3 matM * (det3 matM)⁻¹ = 1 := mul_inv_cancel₀ det3_matM_ne_zero
  obtain ⟨x, y, z⟩ := v
  simp only [mulVec_eq, dot_eq, matMinv, div_eq_mul_inv, Prod.mk.injEq]
  generalize (det3 matM)⁻¹ = t at hdet ⊢
  rw [det3] at hdet
  generalize matM = m at hdet ⊢
  exact ⟨by linear_combination x * hdet, by linear_combination y * hdet, by linear_combination z * hdet⟩

/-- `Minv` is a left inverse of `M` as well. -/
theorem mulVec_matMinv_matM (v : Vec3) : mulVec matMinv (mulVec matM v) = v := by
  have hdet : det3 matM * (det3 matM)⁻¹ = 1 := mul_inv_cancel₀ det3_matM_ne_zero
  obtain ⟨x, y, z⟩ := v
  simp only [mulVec_eq, dot_eq, matMinv, div_eq_mul_inv, Prod.mk.injEq]
  generalize (det3 matM)⁻¹ = t at hdet ⊢
  rw [det3] at hdet
  generalize matM = m at hdet ⊢
  exact ⟨by linear_combination x * hdet, by linear_combination y * hdet, by linear_combination z * hdet⟩

theorem labFinvR_eq (t : ℝ) : labFinvR t = if 6 / 29 < t then t ^ 3 else (116 * t - 16) / (24389 / 27) := rfl

theorem labFinvR_cast (t : ℚ) : labFinvR t = labFinv t := by
  have hcond : (6 / 29 : ℝ) < t ↔ 6 / 29 < t := by
    rw [show (6 / 29 : ℝ) = ((6 / 29 : ℚ) : ℝ) by norm_num, Rat.cast_lt]
  rw [labFinvR_eq, labFinv]
  by_cases h : 6 / 29 < t
  · rw [if_pos h, if_pos (hcond.mpr h), Rat.cast_pow]
  · rw [if_neg h, if_neg (hcond.not.mpr h), labKap_eq]
    push_cast
    rfl

theorem labToXyz_eq (L8 a8 b8 : Sample) : labToXyz (L8, a8, b8) =
    (whiteX * labFinv ((sampleQ L8 * 100 / 255 + 16) / 116 + (sampleQ a8 - 128) / (500 : ℕ)),
      whiteY * labFinv ((sampleQ L8 * 100 / 255 + 16) / 116),
      whiteZ * labFinv ((sampleQ L8 * 100 / 255 + 16) / 116 - (sampleQ b8 - 128) / (200 : ℕ))) := rfl

/-- The inverse LAB formula on real numbers (R115). -/
theorem labToXyz_cast (L8 a8 b8 : Sample) :
    let fy : ℝ := ((L8.toNat : ℝ) * 100 / 255 + 16) / 116
    ((labToXyz (L8, a8, b8)).1 : ℝ) = 0.950456 * labFinvR (fy + ((a8.toNat : ℝ) - 128) / 500) ∧
    ((labToXyz (L8, a8, b8)).2.1 : ℝ) = 1 * labFinvR fy ∧
    ((labToXyz (L8, a8, b8)).2.2 : ℝ) = 1.088754 * labFinvR (fy - ((b8.toNat : ℝ) - 128) / 200) := by
  obtain ⟨hwX, hwY, hwZ⟩ := white_cast
  have hfy : (((sampleQ L8 * 100 / 255 + 16) / 116 : ℚ) : ℝ) = ((L8.toNat : ℝ) * 100 / 255 + 16) / 116 := by
    push_cast [sampleQ_cast]
    rfl
  have hshift (v : Sample) (k : ℕ) : (((sampleQ v - 128) / k : ℚ) : ℝ) = ((v.toNat : ℝ) - 128) / k := by
    rw [Rat.cast_div, Rat.cast_sub, sampleQ_cast, Rat.cast_ofNat, Rat.cast_natCast]
  rw [labToXyz_eq, Rat.cast_mul, Rat.cast_mul, Rat.cast_mul, ← labFinvR_cast, ← labFinvR_cast, ← labFinvR_cast, Rat.cast_add,
    Rat.cast_sub, hfy, hwX, hwY, hwZ]
  exact ⟨by rw [hshift a8 500, Nat.cast_ofNat], rfl, by rw [hshift b8 200, Nat.cast_ofNat]⟩

/-- The linear components that `labToRgbPx` encodes (R116). -/
def labToLinear (t : Triple) : Vec3 := mulVec matMinv (labToXyz t)

theorem labToLinear_eq (t : Triple) : labToLinear t = mulVec matMinv (labToXyz t) := rfl

theorem labToRgbPx_eq (t : Triple) : labToRgbPx t =
    (encByte (labToLinear t).1, encByte (labToLinear t).2.1, encByte (labToLinear t).2.2) := rfl

/-- Settles O46: each byte rounds the encoding of its component, and `M` takes the components back to `X`, `Y`, `Z`. -/
theorem encodedByteIsExactRounding : Obligations.EncodedByteIsExactRounding := by
  refine ⟨encByte_isRoundTE, fun L8 a8 b8 => ?_⟩
  have hinv : mulVec matM (labToLinear (L8, a8, b8)) = labToXyz (L8, a8, b8) := mulVec_matM_matMinv _
  obtain ⟨hX, hYZ⟩ := Prod.ext_iff.mp hinv
  obtain ⟨hY, hZ⟩ := Prod.ext_iff.mp hYZ
  obtain ⟨mX, mY, mZ⟩ := dot_matM_cast (labToLinear (L8, a8, b8))
  obtain ⟨fX, fY, fZ⟩ := labToXyz_cast L8 a8 b8
  exact ⟨_, _, _, mX.symm.trans ((congrArg Rat.cast hX).trans fX), mY.symm.trans ((congrArg Rat.cast hY).trans fY),
    mZ.symm.trans ((congrArg Rat.cast hZ).trans fZ), encByte_isRoundTE _, encByte_isRoundTE _, encByte_isRoundTE _⟩

end Sys2Proof.Machine
end

section
/-! ### The 256 gray levels in LAB (R110, R112, R115, R116)

By R111 the three `f` of a gray pixel are one number, so gray is a matter of one curve, which the linear components of the
levels and those of the lightnesses divide. Both are roots of fractions, so they compare as natural numbers. -/

namespace Sys2Proof.Machine

/-! #### Levels and lightnesses on real numbers -/

/-- `lin(w)` of R110, for a level given as a number. -/
noncomputable def linLevelR (w : ℕ) : ℝ :=
  if w ≤ 10 then 5 * w / 16473 else ((40 * w + 561) / 10761) ^ (2.4 : ℝ)

theorem linLevelR_low {w : ℕ} (h : w ≤ 10) : linLevelR w = 5 * w / 16473 := if_pos h

theorem linLevelR_high {w : ℕ} (h : 10 < w) : linLevelR w = ((40 * w + 561) / 10761 : ℝ) ^ (2.4 : ℝ) := if_neg h.not_ge

theorem linLevelR_nonneg (w : ℕ) : 0 ≤ linLevelR w := by
  rcases le_or_gt w 10 with h | h
  · rw [linLevelR_low h]
    positivity
  · rw [linLevelR_high h]
    positivity

theorem linLevelR_le_one {w : ℕ} (hw : w ≤ 255) : linLevelR w ≤ 1 := by
  have hwR : (w : ℝ) ≤ 255 := Nat.cast_le_ofNat.mpr hw
  rcases le_or_gt w 10 with h | h
  · rw [linLevelR_low h]
    linarith only [hwR]
  · rw [linLevelR_high h]
    exact Real.rpow_le_one (by positivity) (by linarith only [hwR]) (by norm_num)

/-- Above its linear part a level is known by its fifth power. -/
theorem linLevelR_pow {w : ℕ} (h : 10 < w) : linLevelR w ^ 5 = ((40 * w + 561) / 10761 : ℝ) ^ 12 := by
  rw [linLevelR_high h, ← Real.rpow_mul_natCast (by positivity), ← Real.rpow_natCast]
  norm_num

theorem linR_eq_linLevelR (v : Sample) : linR v = linLevelR v.toNat := by
  have hcond : (v.toNat : ℝ) / 255 ≤ 0.04045 ↔ v.toNat ≤ 10 := by
    rw [div_le_iff₀ (by norm_num)]
    constructor <;> intro h
    · exact Nat.lt_succ_iff.mp (Nat.cast_lt_ofNat.mp (h.trans_lt (by norm_num)))
    · exact (Nat.cast_le_ofNat.mpr h).trans (by norm_num)
  rw [linR_eq]
  rcases le_or_gt v.toNat 10 with h | h
  · rw [if_pos (hcond.mpr h), linLevelR_low h]
    ring
  · rw [if_neg (hcond.not.mpr h.not_ge), linLevelR_high h]
    congr 1
    ring

/-- The linear component of the lightness `k / 10000` (R115). -/
noncomputable def lightR (k : ℕ) : ℝ := labFinvR ((k + 408000) / 2958000)

theorem lightR_eq (k : ℕ) : lightR k = labFinvR ((k + 408000) / 2958000) := rfl

theorem lightR_low {k : ℕ} (h : k ≤ 204000) : lightR k = (9 * k : ℕ) / (207306500 : ℕ) := by
  have hk : (k : ℝ) ≤ (204000 : ℕ) := Nat.cast_le.mpr h
  push_cast at hk
  rw [lightR_eq, labFinvR_eq, if_neg (by rw [not_lt]; linarith)]
  push_cast
  ring

theorem lightR_high {k : ℕ} (h : 204000 < k) : lightR k = ((k + 408000) ^ 3 : ℕ) / (2958000 ^ 3 : ℕ) := by
  have hk : ((204000 : ℕ) : ℝ) < k := Nat.cast_lt.mpr h
  push_cast at hk
  rw [lightR_eq, labFinvR_eq, if_pos (by linarith), div_pow]
  norm_num

/-- `f` of R112 takes the component of a lightness back to the `f` of that lightness (R115). -/
theorem labFR_lightR (k : ℕ) : labFR (lightR k) = (k + 408000) / 2958000 := by
  rw [lightR_eq, labFinvR_eq]
  split_ifs with h
  · have hcube : (216 / 24389 : ℝ) < ((k + 408000) / 2958000 : ℝ) ^ 3 :=
      calc (216 / 24389 : ℝ) = (6 / 29) ^ 3 := by norm_num
        _ < _ := pow_lt_pow_left₀ h (by norm_num) (by norm_num)
    rw [labFR_root hcube, ← Real.rpow_natCast, ← Real.rpow_mul (by positivity)]
    norm_num
  · rw [labFR_linear (by linarith only [h])]
    ring

/-! #### Their comparison on natural numbers -/

theorem ble_eq_false_of_lt {m n : ℕ} (h : n < m) : Nat.ble m n = false :=
  Bool.eq_false_iff.mpr fun hle => h.not_ge (Nat.le_of_ble_eq_true hle)

/-- How `a / b` and the component of level `w` compare: `r` of two natural numbers that compare so. -/
def compareLevel (r : ℕ → ℕ → Bool) (a b w : ℕ) : Bool :=
  bif Nat.ble w 10 then r (a * 16473) (5 * w * b) else r (a ^ 5 * 10761 ^ 12) ((40 * w + 561) ^ 12 * b ^ 5)

theorem compareLevel_low (r : ℕ → ℕ → Bool) (a b : ℕ) {w : ℕ} (h : w ≤ 10) :
    compareLevel r a b w = r (a * 16473) (5 * w * b) := congrArg (cond · _ _) (Nat.ble_eq_true_of_le h)

theorem compareLevel_high (r : ℕ → ℕ → Bool) (a b : ℕ) {w : ℕ} (h : 10 < w) :
    compareLevel r a b w = r (a ^ 5 * 10761 ^ 12) ((40 * w + 561) ^ 12 * b ^ 5) :=
  congrArg (cond · _ _) (ble_eq_false_of_lt h)

/-- How the components of lightness `k / 10000` and of level `w` compare. -/
def compareLight (r : ℕ → ℕ → Bool) (k w : ℕ) : Bool :=
  bif Nat.ble k 204000 then compareLevel r (9 * k) 207306500 w else compareLevel r ((k + 408000) ^ 3) (2958000 ^ 3) w

theorem compareLight_low (r : ℕ → ℕ → Bool) {k : ℕ} (h : k ≤ 204000) (w : ℕ) :
    compareLight r k w = compareLevel r (9 * k) 207306500 w := congrArg (cond · _ _) (Nat.ble_eq_true_of_le h)

theorem compareLight_high (r : ℕ → ℕ → Bool) {k : ℕ} (h : 204000 < k) (w : ℕ) :
    compareLight r k w = compareLevel r ((k + 408000) ^ 3) (2958000 ^ 3) w := congrArg (cond · _ _) (ble_eq_false_of_lt h)

theorem compareLevel_iff (a : ℕ) {b : ℕ} (hb : 0 < b) (w : ℕ) :
    (compareLevel Nat.ble a b w = true ↔ (a / b : ℝ) ≤ linLevelR w) ∧
    (compareLevel (flip Nat.ble) a b w = true ↔ linLevelR w ≤ (a / b : ℝ)) := by
  have hbR : (0 : ℝ) < b := Nat.cast_pos.mpr hb
  rcases le_or_gt w 10 with h | h
  · rw [compareLevel_low _ a b h, compareLevel_low _ a b h, linLevelR_low h, div_le_div_iff₀ hbR (by norm_num),
      div_le_div_iff₀ (by norm_num) hbR, Nat.ble_eq, flip, Nat.ble_eq]
    constructor <;> norm_cast
  · rw [compareLevel_high _ a b h, compareLevel_high _ a b h,
      ← pow_le_pow_iff_left₀ (by positivity) (linLevelR_nonneg w) (n := 5) (by norm_num),
      ← pow_le_pow_iff_left₀ (linLevelR_nonneg w) (by positivity) (n := 5) (by norm_num), linLevelR_pow h, div_pow, div_pow,
      div_le_div_iff₀ (by positivity) (by positivity), div_le_div_iff₀ (by positivity) (by positivity), Nat.ble_eq, flip, Nat.ble_eq]
    constructor <;> norm_cast

theorem compareLight_iff {k w : ℕ} : (compareLight Nat.ble k w = true ↔ lightR k ≤ linLevelR w) ∧
    (compareLight (flip Nat.ble) k w = true ↔ linLevelR w ≤ lightR k) := by
  rcases le_or_gt k 204000 with h | h
  · rw [compareLight_low _ h, compareLight_low _ h, lightR_low h]
    exact compareLevel_iff _ (by norm_num) w
  · rw [compareLight_high _ h, compareLight_high _ h, lightR_high h]
    exact compareLevel_iff _ (by positivity) w

/-! #### The levels one by one -/

/-- The lightnesses of the 256 gray levels, sixteen bytes a row, the lowest byte first. -/
def grayLightRows : List ℕ :=
  [0x0b0a0908080706060504030302010100, 0x1e1d1b1a19181615141211100f0e0d0c, 0x31302f2e2d2c2a29282725242322201f,
   0x444342413f3e3d3c3b3a393736353433, 0x5655545251504f4e4d4c4b4a48474645, 0x676665646362605f5e5d5c5b5a595857,
   0x77767574737271706f6e6d6c6b6a6968, 0x8887868584838281807f7e7d7c7b7978, 0x9797969594939291908f8e8d8c8b8a89,
   0xa7a6a5a4a3a2a1a09f9e9d9c9b9a9998, 0xb6b5b4b3b2b2b1b0afaeadacabaaa9a8, 0xc5c4c3c2c1c1c0bfbebdbcbbbab9b8b7,
   0xd4d3d2d1d0cfcececdcccbcac9c8c7c6, 0xe3e2e1e0dfdedddcdbdad9d9d8d7d6d5, 0xf1f0efeeedecebebeae9e8e7e6e5e4e3,
   0xfffefdfcfbfbfaf9f8f7f6f5f4f4f3f2]

/-- The lightness of gray level `v`, rounded; `grayLevelOk_all` checks the table. -/
def grayLight (v : ℕ) : ℕ := (grayLightRows.getD (v / 16) 0 >>> (8 * (v % 16))) % 256

/-- The lightness of level `v` lies within 0.4998 of `grayLight v`, whose component lies between those of the levels next to
`v`. (Differences below 0 are 0.) -/
def grayLevelOk (v : ℕ) : Bool :=
  compareLight Nat.ble (10000 * grayLight v - 4998) v && compareLight (flip Nat.ble) (10000 * grayLight v + 4998) v &&
    compareLight (flip Nat.ble) (10000 * grayLight v) (v - 1) && compareLight Nat.ble (10000 * grayLight v) (v + 1)

theorem grayLevelOk_eq (v : ℕ) : grayLevelOk v =
    (compareLight Nat.ble (10000 * grayLight v - 4998) v && compareLight (flip Nat.ble) (10000 * grayLight v + 4998) v &&
      compareLight (flip Nat.ble) (10000 * grayLight v) (v - 1) && compareLight Nat.ble (10000 * grayLight v) (v + 1)) := rfl

/-! The evaluation of the 256 levels, in four blocks of 64. -/

theorem grayLevelOk_from_0 : ∀ i < 8, ∀ j < 8, grayLevelOk (0 + (8 * i + j)) = true := by decide
theorem grayLevelOk_from_64 : ∀ i < 8, ∀ j < 8, grayLevelOk (64 + (8 * i + j)) = true := by decide
theorem grayLevelOk_from_128 : ∀ i < 8, ∀ j < 8, grayLevelOk (128 + (8 * i + j)) = true := by decide
theorem grayLevelOk_from_192 : ∀ i < 8, ∀ j < 8, grayLevelOk (192 + (8 * i + j)) = true := by decide

theorem grayLevelOk_of_block {a v : ℕ} (h : ∀ i < 8, ∀ j < 8, grayLevelOk (a + (8 * i + j)) = true) (hlow : a ≤ v)
    (hhigh : v < a + 64) : grayLevelOk v = true := by
  have hv := h ((v - a) / 8) (by omega) ((v - a) % 8) (by omega)
  rwa [Nat.div_add_mod, Nat.add_sub_of_le hlow] at hv

theorem grayLevelOk_all {v : ℕ} (hv : v < 256) : grayLevelOk v = true := by
  rcases (show v < 64 ∨ 64 ≤ v ∧ v < 128 ∨ 128 ≤ v ∧ v < 192 ∨ 192 ≤ v by omega) with h | ⟨h, h'⟩ | ⟨h, h'⟩ | h
  · exact grayLevelOk_of_block grayLevelOk_from_0 (Nat.zero_le v) h
  · exact grayLevelOk_of_block grayLevelOk_from_64 h h'
  · exact grayLevelOk_of_block grayLevelOk_from_128 h h'
  · exact grayLevelOk_of_block grayLevelOk_from_192 h hv

theorem grayLevel_spec {v : ℕ} (hv : v < 256) :
    lightR (10000 * grayLight v - 4998) ≤ linLevelR v ∧ linLevelR v ≤ lightR (10000 * grayLight v + 4998) ∧
    linLevelR (v - 1) ≤ lightR (10000 * grayLight v) ∧ lightR (10000 * grayLight v) ≤ linLevelR (v + 1) := by
  have hok := grayLevelOk_all hv
  rw [grayLevelOk_eq] at hok
  simpa only [Bool.and_eq_true, compareLight_iff, and_assoc] using hok

/-- Black and white have the ends of the lightness, and level 2 has lightness 1. -/
theorem grayLight_ends : grayLight 0 = 0 ∧ grayLight 2 = 1 ∧ grayLight 255 = 255 := by decide

theorem grayLight_byte (v : Sample) : (clamp8 (grayLight v.toNat)).toNat = grayLight v.toNat := by
  have hlt : grayLight v.toNat < 256 := Nat.mod_lt _ (by norm_num)
  exact_mod_cast clamp8_of_range (v := grayLight v.toNat) (by omega) (by omega)

/-- The lightness of a gray pixel lies within 0.4998 of `grayLight` (R112). -/
theorem grayLight_near (v : Sample) :
    |(116 * labFR (linR v) - 16) * 255 / 100 - grayLight v.toNat| ≤ 4998 / 10000 := by
  obtain ⟨hlow, hhigh, -⟩ := grayLevel_spec v.isLt
  have hlow' := labFR_mono hlow
  have hhigh' := labFR_mono hhigh
  rw [labFR_lightR, ← linR_eq_linLevelR] at hlow' hhigh'
  have hsub : (10000 * grayLight v.toNat : ℝ) - 4998 ≤ (10000 * grayLight v.toNat - 4998 : ℕ) := by
    have hcast : 10000 * (grayLight v.toNat : ℝ) ≤ (10000 * grayLight v.toNat - 4998 : ℕ) + 4998 := by
      exact_mod_cast (show 10000 * grayLight v.toNat ≤ 10000 * grayLight v.toNat - 4998 + 4998 by omega)
    linarith only [hcast]
  push_cast at hhigh'
  exact abs_le.mpr ⟨by linarith only [hlow', hsub], by linarith only [hhigh']⟩

/-! #### The way back -/

/-- `enc` of R116 on a component in [0, 1]. -/
noncomputable def encUnitR (c : ℝ) : ℝ := if c ≤ 0.0031308 then 12.92 * c else encPowR c

theorem encUnitR_low {c : ℝ} (h : c ≤ 0.0031308) : encUnitR c = 12.92 * c := if_pos h

theorem encUnitR_high {c : ℝ} (h : 0.0031308 < c) : encUnitR c = encPowR c := if_neg h.not_ge

theorem encR_eq_encUnitR (l : ℝ) : encR l = encUnitR (min (max l 0) 1) := rfl

/-- The powers of the levels next to the break of `enc` and of the break itself. -/
theorem levelPow_break {w : ℕ} :
    (w ≤ 10 → ((40 * w + 561) / 10761 : ℝ) ^ 12 ≤ 0.0031308 ^ 5) ∧
    (10 < w → 0.0031308 ^ 5 < ((40 * w + 561) / 10761 : ℝ) ^ 12) := by
  refine ⟨fun h => ?_, fun h => ?_⟩
  · have hw : (w : ℝ) ≤ 10 := Nat.cast_le_ofNat.mpr h
    calc ((40 * w + 561) / 10761 : ℝ) ^ 12 ≤ ((40 * 10 + 561) / 10761) ^ 12 :=
          pow_le_pow_left₀ (by positivity) (by linarith only [hw]) 12
      _ ≤ _ := by norm_num
  · have hw : (11 : ℝ) ≤ w := Nat.ofNat_le_cast.mpr h
    calc (0.0031308 ^ 5 : ℝ) < ((40 * 11 + 561) / 10761) ^ 12 := by norm_num
      _ ≤ _ := pow_le_pow_left₀ (by norm_num) (by linarith only [hw]) 12

theorem encUnitR_le {c : ℝ} (hc : 0 ≤ c) {w : ℕ} (h : c ≤ linLevelR w) : 255 * encUnitR c ≤ w := by
  rcases le_or_gt w 10 with hw | hw
  · have hwR : (w : ℝ) ≤ 10 := Nat.cast_le_ofNat.mpr hw
    rw [linLevelR_low hw] at h
    rw [encUnitR_low (by linarith only [h, hwR])]
    linarith only [h]
  · have hwR : (11 : ℝ) ≤ w := Nat.ofNat_le_cast.mpr hw
    rcases le_or_gt c 0.0031308 with hlin | hpow
    · rw [encUnitR_low hlin]
      linarith only [hlin, hwR]
    · rw [encUnitR_high hpow, encPowR_le_iff hc, ← linLevelR_pow hw]
      exact pow_le_pow_left₀ hc h 5

theorem le_encUnitR {c : ℝ} (hc : 0 ≤ c) {w : ℕ} (h : linLevelR w ≤ c) : w ≤ 255 * encUnitR c := by
  obtain ⟨hlow, hhigh⟩ := levelPow_break (w := w)
  have hpow : 10 < w → ((40 * w + 561) / 10761 : ℝ) ^ 12 ≤ c ^ 5 := fun hw =>
    linLevelR_pow hw ▸ pow_le_pow_left₀ (linLevelR_nonneg w) h 5
  rcases le_or_gt c 0.0031308 with hlin | hc'
  · have hw : w ≤ 10 := le_of_not_gt fun hw =>
      absurd ((hhigh hw).trans_le (hpow hw)) (pow_le_pow_left₀ hc hlin 5).not_gt
    rw [linLevelR_low hw] at h
    rw [encUnitR_low hlin]
    linarith only [h]
  · rw [encUnitR_high hc', le_encPowR_iff hc]
    rcases le_or_gt w 10 with hw | hw
    · exact (hlow hw).trans (pow_le_pow_left₀ (by norm_num) hc'.le 5)
    · exact hpow hw

/-- A component up to that of level `w` is encoded up to `w` (R116). -/
theorem encR_le_of_le_linLevelR {l : ℝ} {w : ℕ} (h : l ≤ linLevelR w) : 255 * encR l ≤ w :=
  encR_eq_encUnitR l ▸ encUnitR_le (le_min (le_max_right _ _) zero_le_one)
    ((min_le_left _ _).trans (max_le h (linLevelR_nonneg w)))

/-- A component from that of level `w` on is encoded from `w` on (R116). -/
theorem le_encR_of_linLevelR_le {l : ℝ} {w : ℕ} (hw : w ≤ 255) (h : linLevelR w ≤ l) : w ≤ 255 * encR l :=
  encR_eq_encUnitR l ▸ le_encUnitR (le_min (le_max_right _ _) zero_le_one)
    (le_min (h.trans (le_max_left _ _)) (linLevelR_le_one hw))

/-- The gray level of the lightness `l` (R115, R116). -/
def grayOfLight (l : Sample) : Sample := encByte (labFinv ((sampleQ l * 100 / 255 + 16) / 116))

/-- The way back is the rounding of the encoding of the component of the lightness (R116). -/
theorem grayOfLight_isRoundTE (l : Sample) :
    IsRoundTE (255 * encR (lightR (10000 * l.toNat))) ((grayOfLight l).toNat : ℤ) := by
  have h := encByte_isRoundTE (labFinv ((sampleQ l * 100 / 255 + 16) / 116))
  have harg : (((sampleQ l * 100 / 255 + 16) / 116 : ℚ) : ℝ) = ((10000 * l.toNat : ℕ) + 408000) / 2958000 := by
    push_cast [sampleQ_cast]
    ring
  rwa [← labFinvR_cast, harg] at h

/-- A gray level comes back from its lightness within 1 (R117, log entry 11). -/
theorem grayOfLight_near {v l : Sample} (hl : l.toNat = grayLight v.toNat) :
    (grayOfLight l).toNat ≤ v.toNat + 1 ∧ v.toNat ≤ (grayOfLight l).toNat + 1 := by
  obtain ⟨-, -, hlow, hhigh⟩ := grayLevel_spec v.isLt
  have hv := v.isLt
  have hbelow := le_encR_of_linLevelR_le (by omega) hlow
  have habove := encR_le_of_le_linLevelR hhigh
  obtain ⟨hnear, -⟩ := grayOfLight_isRoundTE l
  rw [hl, Int.cast_natCast] at hnear
  generalize 255 * encR (lightR (10000 * grayLight v.toNat)) = x at hbelow habove hnear
  obtain ⟨h1, h2⟩ := abs_le.mp hnear
  have hdown : ((v.toNat - 1 : ℕ) : ℝ) < ((grayOfLight l).toNat + 1 : ℕ) := by
    rw [Nat.cast_succ, add_comm]
    exact (hbelow.trans (sub_le_iff_le_add.mp h2)).trans_lt (add_lt_add_left one_half_lt_one _)
  have hup : ((grayOfLight l).toNat : ℝ) < (v.toNat + 1 + 1 : ℕ) := by
    rw [Nat.cast_succ]
    exact (neg_le_sub_iff_le_add.mp h1).trans_lt (add_lt_add_of_le_of_lt habove one_half_lt_one)
  rw [Nat.cast_lt] at hdown hup
  omega

end Sys2Proof.Machine
end

section
/-! ### Gray through LAB and HSV (R112, R113, R116, R117, R119) -/

namespace Sys2Proof.Machine

/-! #### Gray to LAB: the width of the enclosure -/

theorem rootUp_sub_rootDown (P r s : ℕ) (x : ℚ) : rootUp P r s x - rootDown P r s x = 1 / 2 ^ P := add_sub_cancel_left ..

theorem linUp_sub_linDown_le (P : ℕ) (v : Sample) : linUp P v - linDown P v ≤ 1 / 2 ^ P := by
  rw [linUp_eq, linDown_eq]
  split_ifs
  · rw [sub_self]
    positivity
  · exact (rootUp_sub_rootDown ..).le

theorem labFUp_sub_labFDown_le (P : ℕ) (t : ℚ) : labFUp P t - labFDown P t ≤ 1 / 2 ^ P := by
  rw [labFUp_eq, labFDown_eq]
  split_ifs
  · exact (rootUp_sub_rootDown ..).le
  · rw [sub_self]
    positivity

/-- The linear part of `f` is the tangent of the cube root at the break, so `f` is nowhere below the root (R112). -/
theorem cbrt_le_labFR {t : ℝ} (ht : 0 ≤ t) : t ^ (1 / 3 : ℝ) ≤ labFR t := by
  rcases le_or_gt t (216 / 24389) with hlin | hroot
  · obtain ⟨y, hy, hy0⟩ : ∃ y : ℝ, t ^ (1 / 3 : ℝ) = y ∧ 0 ≤ y := ⟨_, rfl, Real.rpow_nonneg ht _⟩
    have hcube : t = y ^ 3 := by
      rw [← hy, ← Real.rpow_mul_natCast ht]
      norm_num
    have htangent := mul_nonneg (sq_nonneg (y - 6 / 29)) (show 0 ≤ y + 12 / 29 by positivity)
    rw [hy, labFR_linear hlin, hcube]
    linarith only [htangent]
  · rw [labFR_root hroot]

/-- What `f` of R112 grows by on the width of the enclosure of `lin`. -/
theorem labFR_add_le {t e : ℝ} (ht : 0 ≤ t) (he : 0 ≤ e) (hwidth : e ≤ 1 / 2 ^ 64) : labFR (t + e) ≤ labFR t + 1 / 2 ^ 21 := by
  rcases le_or_gt (t + e) (216 / 24389) with hlin | hroot
  · rw [labFR_linear hlin, labFR_linear (by linarith only [hlin, he])]
    linarith only [hwidth]
  · have hsmall : e ^ (1 / 3 : ℝ) ≤ 1 / 2 ^ 21 :=
      calc e ^ (1 / 3 : ℝ) ≤ ((1 / 2 ^ 21 : ℝ) ^ 3) ^ (1 / 3 : ℝ) :=
            Real.rpow_le_rpow he (hwidth.trans (by norm_num)) (by norm_num)
        _ = 1 / 2 ^ 21 := by
            rw [← Real.rpow_natCast_mul (by positivity)]
            norm_num
    calc labFR (t + e) = (t + e) ^ (1 / 3 : ℝ) := labFR_root hroot
      _ ≤ t ^ (1 / 3 : ℝ) + e ^ (1 / 3 : ℝ) := Real.rpow_add_le_add_rpow ht he (by norm_num) (by norm_num)
      _ ≤ labFR t + 1 / 2 ^ 21 := add_le_add (cbrt_le_labFR ht) hsmall

/-- The lower bound of the one `f` of a gray pixel (R112). -/
def grayLow (v : Sample) : ℚ := labFDown Config.labPrecision (linDown Config.labPrecision v)

/-- The upper bound of the one `f` of a gray pixel (R112). -/
def grayHigh (v : Sample) : ℚ := labFUp Config.labPrecision (linUp Config.labPrecision v)

theorem grayLow_eq (v : Sample) : grayLow v = labFDown Config.labPrecision (linDown Config.labPrecision v) := rfl

theorem grayHigh_eq (v : Sample) : grayHigh v = labFUp Config.labPrecision (linUp Config.labPrecision v) := rfl

/-- A rational and its bound as real numbers, for the width at the model's precision. -/
theorem le_add_width {x y : ℚ} (h : x - y ≤ 1 / 2 ^ Config.labPrecision) : (x : ℝ) ≤ y + 1 / 2 ^ 64 := by
  have hR : ((x - y : ℚ) : ℝ) ≤ ((1 / 2 ^ 64 : ℚ) : ℝ) := Rat.cast_le.mpr h
  push_cast at hR
  exact sub_le_iff_le_add'.mp hR

/-- The bounds of the `f` of a gray pixel lie close together. -/
theorem grayBounds (v : Sample) : Encloses (grayLow v) (grayHigh v) (labFR (linR v)) ∧
    (grayHigh v : ℝ) ≤ grayLow v + 6 / 10 ^ 7 := by
  have hlin := lin_encloses Config.labPrecision v
  have hencl := labF_encloses Config.labPrecision hlin
  have hwidth := le_add_width (linUp_sub_linDown_le Config.labPrecision v)
  have hlowWidth := le_add_width (labFUp_sub_labFDown_le Config.labPrecision (linDown Config.labPrecision v))
  have hhighWidth := le_add_width (labFUp_sub_labFDown_le Config.labPrecision (linUp Config.labPrecision v))
  rw [← grayLow_eq] at hencl hlowWidth
  rw [← grayHigh_eq] at hencl hhighWidth
  refine ⟨hencl, ?_⟩
  obtain ⟨h0, h2, hlo, hhi⟩ := hlin
  generalize linDown Config.labPrecision v = lo at *
  generalize linUp Config.labPrecision v = hi at *
  have hle : (lo : ℝ) ≤ hi := hlo.trans hhi
  have hleQ : lo ≤ hi := Rat.cast_le.mp hle
  have hgrow := labFR_add_le (t := lo) (Rat.cast_nonneg.mpr h0) (sub_nonneg.mpr hle) (sub_le_iff_le_add'.mpr hwidth)
  rw [add_sub_cancel] at hgrow
  have hlow := (labF_encloses_self Config.labPrecision h0 (hleQ.trans h2)).2
  have hhigh := (labF_encloses_self Config.labPrecision (h0.trans hleQ) h2).1
  linarith only [hgrow, hlow, hhigh, hlowWidth, hhighWidth]

/-! #### Gray to LAB: the three bytes -/

/-- A row of `M` takes three equal components to that multiple of the white point's coordinate (R111). -/
theorem dot_gray {m : Vec3} {w : ℚ} (hm : WhiteRow m w) (x : ℚ) : dot m (x, x, x) = w * x := by
  obtain ⟨-, -, hsum⟩ := hm
  rw [dot_eq, ← add_mul, ← add_mul, hsum]

theorem dot_gray_div {m : Vec3} {w : ℚ} (hm : WhiteRow m w) (x : ℚ) : dot m (x, x, x) / w = x := by
  rw [dot_gray hm, mul_div_cancel_left₀ _ hm.1.ne']

theorem labFBounds_gray (v : Sample) : labFBounds Config.labPrecision v v v =
    ((grayLow v, grayLow v, grayLow v), (grayHigh v, grayHigh v, grayHigh v)) := by
  obtain ⟨hX, hY, hZ⟩ := matM_whiteRows
  simp only [labFBounds, dot_gray_div hX, dot_gray_div hY, dot_gray_div hZ]
  rfl

/-- Bounds closer to an integer than one half decide for it (R10). -/
theorem roundBetween_near {lo hi : ℚ} {n : ℤ} (hlo : |(lo : ℝ) - n| < 1 / 2) (hhi : |(hi : ℝ) - n| < 1 / 2) :
    roundBetween lo hi = some (clamp8 n) := by
  have near {x : ℚ} (h : |(x : ℝ) - n| < 1 / 2) : roundTE x = n := by
    have hx : |x - n| < 1 / 2 := by
      rw [← Rat.cast_lt (K := ℝ)]
      push_cast
      exact h
    exact roundTE_unique x n hx.le fun htie => absurd htie hx.ne
  rw [roundBetween_eq, near hlo, near hhi, if_pos rfl]

/-- A narrow enclosure decides for the integer that the number enclosed lies close to. -/
theorem roundBetween_narrow {lo hi : ℚ} {x w : ℝ} {n : ℤ} (h : Encloses lo hi x) (hwidth : (hi : ℝ) ≤ lo + w)
    (hnear : |x - n| < 1 / 2 - w) : roundBetween lo hi = some (clamp8 n) := by
  obtain ⟨hlo, hhi⟩ := h
  obtain ⟨h1, h2⟩ := abs_lt.mp hnear
  exact roundBetween_near (abs_lt.mpr ⟨by linarith only [hhi, hwidth, h1], by linarith only [hlo, hhi, hwidth, h2]⟩)
    (abs_lt.mpr ⟨by linarith only [hlo, hhi, hwidth, h1], by linarith only [hlo, hwidth, h2]⟩)

/-- The lightness of a gray pixel is decided (R112). -/
theorem roundBetween_grayLight (v : Sample) :
    roundBetween ((116 * grayLow v - 16) * 255 / 100) ((116 * grayHigh v - 16) * 255 / 100) =
      some (clamp8 (grayLight v.toNat)) := by
  obtain ⟨hencl, hwidth⟩ := grayBounds v
  refine roundBetween_narrow (w := 19 / 10 ^ 5) hencl.lightness ?_ ((grayLight_near v).trans_lt (by norm_num))
  push_cast
  linarith only [hwidth]

/-- A multiple of the difference of the bounds leaves the centre 128 (R112). -/
theorem roundBetween_centre (v : Sample) {k : ℕ} (hk : k ≤ 500) :
    roundBetween (k * (grayLow v - grayHigh v) + 128) (k * (grayHigh v - grayLow v) + 128) = some (clamp8 128) := by
  obtain ⟨hencl, hwidth⟩ := grayBounds v
  have hdiff : 0 ≤ (grayHigh v : ℝ) - grayLow v := sub_nonneg.mpr (hencl.1.trans hencl.2)
  have hsmall : (k : ℝ) * (grayHigh v - grayLow v) ≤ 500 * (6 / 10 ^ 7) :=
    mul_le_mul (Nat.cast_le_ofNat.mpr hk) (sub_le_iff_le_add'.mpr hwidth) hdiff (by norm_num)
  refine roundBetween_narrow (w := 1 / 10 ^ 3) (hencl.coordinate k hencl) ?_ ?_
  · push_cast
    linarith only [hsmall]
  · rw [sub_self, mul_zero, zero_add, Int.cast_ofNat, sub_self, abs_zero]
    norm_num

/-- A gray pixel has the lightness of its level, and `a = b = 128` (R113). -/
theorem rgbToLabPx_gray (v : Sample) : rgbToLabPx (v, v, v) = (clamp8 (grayLight v.toNat), 128#8, 128#8) := by
  have ha := roundBetween_centre v (k := 500) le_rfl
  have hb := roundBetween_centre v (k := 200) (by norm_num)
  rw [Nat.cast_ofNat] at ha hb
  have henclosed : labEnclosed Config.labPrecision v v v =
      (some (clamp8 (grayLight v.toNat)), some (clamp8 128), some (clamp8 128)) := by
    rw [labEnclosed, labFBounds_gray]
    dsimp only
    rw [roundBetween_grayLight, ha, hb]
  simp only [rgbToLabPx, henclosed, Option.getD_some]
  rfl

/-! #### Gray from LAB -/

/-- The multiple of the white point that `M` makes of three equal components gives them back (R111, R116). -/
theorem mulVec_matMinv_white (f : ℚ) : mulVec matMinv (whiteX * f, whiteY * f, whiteZ * f) = (f, f, f) := by
  obtain ⟨hX, hY, hZ⟩ := matM_whiteRows
  have hM : mulVec matM (f, f, f) = (whiteX * f, whiteY * f, whiteZ * f) :=
    Prod.ext (dot_gray hX f) (Prod.ext (dot_gray hY f) (dot_gray hZ f))
  rw [← hM, mulVec_matMinv_matM]

/-- Without `a` and `b` the three `f` of R115 are one, and the pixel is gray (R117). -/
theorem labToRgbPx_gray (l : Sample) : labToRgbPx (l, 128#8, 128#8) = (grayOfLight l, grayOfLight l, grayOfLight l) := by
  have hmid : sampleQ 128#8 - 128 = 0 := sub_self _
  rw [labToRgbPx_eq, labToLinear_eq, labToXyz]
  simp only [hmid, zero_div, add_zero, sub_zero, mulVec_matMinv_white]
  rfl

/-- Lightness 1 comes back as level 1 (log entry 11). -/
theorem grayOfLight_one : grayOfLight 1#8 = 1#8 := by
  have hlight : lightR (10000 * (1#8 : Sample).toNat) = 90000 / 207306500 := by
    rw [BitVec.toNat_ofNat, lightR_low (by norm_num)]
    norm_num
  have henc : encR (90000 / 207306500) = 12.92 * (90000 / 207306500) := by
    rw [encR_eq_encUnitR, max_eq_left (by norm_num), min_eq_left (by norm_num), encUnitR_low (by norm_num)]
  obtain ⟨hnear, -⟩ := grayOfLight_isRoundTE 1#8
  rw [hlight, henc, Int.cast_natCast] at hnear
  obtain ⟨h1, h2⟩ := abs_le.mp hnear
  have hlow : (0 : ℝ) < (grayOfLight 1#8).toNat := by linarith
  have hhigh : ((grayOfLight 1#8).toNat : ℝ) < 2 := by linarith
  norm_cast at hlow hhigh
  exact BitVec.eq_of_toNat_eq (le_antisymm (Nat.lt_succ_iff.mp hhigh) hlow)

/-- Settles O45: gray has one curve each way, whose 256 levels are compared with their neighbours (log entry 11). -/
theorem grayStaysGray : Obligations.GrayStaysGray := by
  obtain ⟨hblack, htwo, hwhite⟩ := grayLight_ends
  refine ⟨fun v => ?_, ?_, ?_, fun l => ⟨_, labToRgbPx_gray l⟩, fun v => ?_, fun v => ?_, ?_⟩
  · rw [rgbToLabPx_gray]
  · exact (rgbToLabPx_gray 0#8).trans (by rw [BitVec.toNat_ofNat, hblack]; rfl)
  · exact (rgbToLabPx_gray 255#8).trans (by rw [BitVec.toNat_ofNat, hwhite]; rfl)
  · rw [rgbToHsvPx_gray, hsvToRgbPx_unsaturated]
  · rw [rgbToLabPx_gray]
    exact ⟨_, labToRgbPx_gray _, grayOfLight_near (grayLight_byte v)⟩
  · have hlight : rgbToLabPx (2#8, 2#8, 2#8) = (1#8, 128#8, 128#8) :=
      (rgbToLabPx_gray 2#8).trans (by rw [BitVec.toNat_ofNat, htwo]; rfl)
    rw [hlight, labToRgbPx_gray, grayOfLight_one]

end Sys2Proof.Machine
end

/-! ## Proofs of the statements on contrast (41_contrast.md: R140 to R148) -/

section
/-! ### `CLAHE` from acceptance to completion (R147) -/

namespace Sys2Proof.Machine

/-- A command from a plane to a plane is legal when its parameters, both lengths, both ranges and, for a
tiled one, the grid are (R201 to R207). -/
theorem legal_of_plane {plat : Platform} {i : Instr} {p : Params} (huses : usesImage i = false)
    (hsrcNeed : srcNeed i p.N = p.N) (hdstNeed : dstNeed i p.N = p.N) (hparams : ParamsLegal i p)
    (htiles : i = .clahe ∨ i = .enhance → ∀ limit, plat.maxTiles = some limit → tilesY p * tilesX p ≤ limit)
    (hsL : p.sL = p.N) (hdL : p.dL = p.N) : RangesOk plat p → Legal plat i p :=
  fun ⟨hsrc, hdst, hover⟩ => ⟨hparams, fun h => absurd (huses.symm.trans h) Bool.false_ne_true,
    fun _ => hsL.trans hsrcNeed.symm, hdL.trans hdstNeed.symm, fun _ _ => hsrc, fun _ => hdst, fun _ _ _ => hover,
    fun h _ => htiles h⟩

/-- A legal command from a plane with pixels runs to the bytes that its rule gives for the source plane. -/
theorem runsTo_plane {s : State} {i : Instr} (hsrcNeed : srcNeed i s.regs.params.N = s.regs.params.N) (hidle : s.eng = .idle)
    (hlegal : Legal s.plat i s.regs.params) (hN : 0 < s.regs.params.N) :
    RunsTo s i s.regs.params.N (workOf i s.regs.params (planeSamples s)).out := by
  have h := runsTo_of_legal hidle hlegal (.inr hN)
  rwa [ruleBytes, hsrcNeed, read_plane] at h

/-- Settles O25: a legal command from a plane to a plane. -/
theorem claheWritesEqualisedPlane : Obligations.ClaheWritesEqualisedPlane :=
  fun _ hidle ⟨hclip, hrows, hcols, htiles⟩ hN hsL hdL hranges =>
    runsTo_plane rfl hidle (legal_of_plane rfl rfl rfl ⟨hclip, hrows, hcols⟩ (fun _ => htiles) hsL hdL hranges) hN

end Sys2Proof.Machine
end

section
/-! ### Histograms, and clip and redistribute (R142 to R144) -/

namespace Sys2Proof.Machine

/-! #### Histograms -/

theorem histogram_eq (tile : List Sample) :
    histogram tile = (List.range 256).map fun v => tile.count (BitVec.ofNat 8 v) := rfl

@[simp] theorem length_histogram (tile : List Sample) : (histogram tile).length = 256 := by
  rw [histogram_eq, List.length_map, List.length_range]

theorem getElem_histogram (tile : List Sample) {v : ℕ} (hv : v < (histogram tile).length) :
    (histogram tile)[v] = tile.count (BitVec.ofNat 8 v) :=
  (List.getElem_map _).trans (congrArg (fun u => tile.count (BitVec.ofNat 8 u)) (List.getElem_range _))

theorem eq_ofNat_iff {x : Sample} {n : ℕ} (hn : n < 256) : x = BitVec.ofNat 8 n ↔ x.toNat = n := by
  rw [← BitVec.toNat_inj, BitVec.toNat_ofNat, Nat.mod_eq_of_lt hn]

/-- Being below `n + 1` is being below `n` or being `n`. -/
theorem indicator_lt_succ (x : Sample) {n : ℕ} (hn : n < 256) :
    (if decide (x.toNat < n + 1) = true then 1 else 0) =
      (if decide (x.toNat < n) = true then 1 else 0) + if (x == BitVec.ofNat 8 n) = true then 1 else 0 := by
  simp only [decide_eq_true_eq, beq_iff_eq, eq_ofNat_iff hn]
  rcases Nat.lt_trichotomy x.toNat n with h | h | h
  · rw [if_pos (Nat.lt_succ_of_lt h), if_pos h, if_neg h.ne]
  · rw [if_pos (h ▸ Nat.lt_succ_self _), if_neg h.not_lt, if_pos h]
  · rw [if_neg (Nat.not_lt.mpr h), if_neg h.not_gt, if_neg h.ne']

/-- The first bins together count the samples below the first bin left out. -/
theorem sum_take_histogram (tile : List Sample) {n : ℕ} (hn : n ≤ 256) :
    ((histogram tile).take n).sum = tile.countP fun x => decide (x.toNat < n) := by
  induction n with
  | zero => exact (List.countP_eq_zero.mpr fun x _ h => Nat.not_lt_zero _ (of_decide_eq_true h)).symm
  | succ n ih =>
    rw [List.sum_take_succ _ _ (hn.trans_eq (length_histogram tile).symm), ih (Nat.le_of_succ_le hn), getElem_histogram]
    clear ih
    induction tile with
    | nil => rfl
    | cons x tile ih =>
      rw [List.countP_cons, List.countP_cons, List.count_cons, indicator_lt_succ x hn, ← ih, Nat.add_add_add_comm]

theorem sum_histogram (tile : List Sample) : (histogram tile).sum = tile.length := by
  have h := sum_take_histogram tile (n := 256) le_rfl
  rw [List.take_of_length_le (length_histogram tile).le] at h
  rw [h, List.countP_eq_length]
  exact fun x _ => decide_eq_true x.isLt

/-- What a function that keeps 0 makes of the histogram of a uniform tile. -/
theorem map_histogram_replicate (f : ℕ → ℕ) (hf : f 0 = 0) (n : ℕ) (u : Sample) :
    (histogram (List.replicate n u)).map f = histogram (List.replicate (f n) u) := by
  rw [histogram_eq, histogram_eq, List.map_map]
  refine List.map_congr_left fun v _ => ?_
  rw [Function.comp_apply, List.count_replicate, List.count_replicate, apply_ite f, hf]

/-! #### Clip and redistribute -/

theorem clippedExcess_eq (limit : ℕ) (hist : List ℕ) : clippedExcess limit hist = (hist.map (· - limit)).sum := rfl

/-- The excess of a uniform tile. -/
theorem clippedExcess_replicate (limit n : ℕ) (u : Sample) :
    clippedExcess limit (histogram (List.replicate n u)) = n - limit := by
  rw [clippedExcess_eq, map_histogram_replicate (· - limit) (Nat.zero_sub _), sum_histogram, List.length_replicate]

theorem redistribute_eq (limit : ℕ) (hist : List ℕ) : redistribute limit hist = hist.mapIdx fun v h =>
    min h limit + clippedExcess limit hist / 256 + if v < clippedExcess limit hist % 256 then 1 else 0 := rfl

@[simp] theorem length_redistribute (limit : ℕ) (hist : List ℕ) : (redistribute limit hist).length = hist.length := by
  rw [redistribute_eq, List.length_mapIdx]

theorem length_redistribute_histogram (limit : ℕ) (tile : List Sample) :
    (redistribute limit (histogram tile)).length = 256 :=
  (length_redistribute _ _).trans (length_histogram tile)

theorem getElem_redistribute (limit : ℕ) (hist : List ℕ) {v : ℕ} (hv : v < (redistribute limit hist).length) :
    (redistribute limit hist)[v] = min (hist[v]'(hv.trans_eq (length_redistribute _ _))) limit +
      clippedExcess limit hist / 256 + if v < clippedExcess limit hist % 256 then 1 else 0 :=
  List.getElem_mapIdx ..

theorem min_succ_eq_add_indicator (n r : ℕ) : min (n + 1) r = min n r + if n < r then 1 else 0 := by
  rcases lt_or_ge n r with h | h
  · rw [if_pos h, min_eq_left h, min_eq_left h.le]
  · rw [if_neg h.not_gt, min_eq_right h, min_eq_right (h.trans n.le_succ), Nat.add_zero]

/-- The first `n` bins hold their clipped counts and their shares of the excess. -/
theorem sum_take_redistribute (limit : ℕ) (hist : List ℕ) {n : ℕ} (hn : n ≤ hist.length) :
    ((redistribute limit hist).take n).sum = ((hist.map (min · limit)).take n).sum +
      n * (clippedExcess limit hist / 256) + min n (clippedExcess limit hist % 256) := by
  induction n with
  | zero => rw [Nat.zero_mul, Nat.zero_min]; rfl
  | succ n ih =>
    rw [List.sum_take_succ _ _ (hn.trans_eq (length_redistribute _ _).symm),
      List.sum_take_succ _ _ (hn.trans_eq (List.length_map _).symm), ih (Nat.le_of_succ_le hn), getElem_redistribute,
      List.getElem_map, Nat.succ_mul, min_succ_eq_add_indicator, Nat.add_add_add_comm, Nat.add_add_add_comm (List.sum _)]

/-- Each bin is its clipped count and its excess. -/
theorem sum_min_add_clippedExcess (limit : ℕ) (hist : List ℕ) :
    (hist.map (min · limit)).sum + clippedExcess limit hist = hist.sum := by
  have hbin : ∀ b ∈ hist, min b limit + (b - limit) = id b := fun b _ =>
    (Nat.add_comm _ _).trans tsub_add_min
  rw [clippedExcess_eq, ← List.sum_map_add, List.map_congr_left hbin, List.map_id]

/-- Redistribution keeps the total (R144). -/
theorem sum_redistribute (limit : ℕ) {hist : List ℕ} (h : hist.length = 256) :
    (redistribute limit hist).sum = hist.sum := by
  have hsum := sum_take_redistribute limit hist (n := 256) h.ge
  rw [List.take_of_length_le ((length_redistribute _ _).trans h).le, List.take_of_length_le ((List.length_map _).trans h).le,
    min_eq_right (Nat.mod_lt _ (Nat.zero_lt_succ 255)).le, Nat.add_assoc, Nat.div_add_mod] at hsum
  exact hsum.trans (sum_min_add_clippedExcess limit hist)

/-- Nothing is redistributed when no bin exceeds the limit. -/
theorem redistribute_of_le {limit : ℕ} {hist : List ℕ} (h : ∀ b ∈ hist, b ≤ limit) :
    redistribute limit hist = hist := by
  have hE : clippedExcess limit hist = 0 := by
    refine List.sum_eq_zero fun e he => ?_
    obtain ⟨b, hb, rfl⟩ := List.mem_map.mp he
    exact Nat.sub_eq_zero_of_le (h b hb)
  refine List.ext_getElem (length_redistribute _ _) fun v _ hv => ?_
  rw [getElem_redistribute, hE, min_eq_left (h _ (List.getElem_mem hv))]
  rfl

theorem eq_map_getD {l : List ℕ} {n : ℕ} (h : l.length = n) : l = (List.range n).map fun v => l.getD v 0 := by
  refine List.ext_getElem (h.trans ((List.length_map _).trans List.length_range).symm) fun v hv _ => ?_
  rw [List.getElem_map, List.getElem_range, List.getD_eq_getElem _ _ hv]

/-- Settles O49: the bins and their sum by the lemmas above; two samples of one value exceed a limit of 1. -/
theorem redistributionKeepsTheTotal : Obligations.RedistributionKeepsTheTotal := by
  refine ⟨fun limit hist hlen => ?_, fun limit tile => ?_, 1, List.replicate 2 0#8, 0, ?_⟩
  · have hexcess : hist.map (· - limit) = (List.range 256).map fun v => hist.getD v 0 - limit :=
      (congrArg (List.map (· - limit)) (eq_map_getD hlen)).trans List.map_map
    refine ⟨fun v hv => ?_, (length_redistribute _ _).trans hlen, sum_redistribute limit hlen⟩
    rw [← hexcess, ← clippedExcess_eq, List.getD_eq_getElem _ _ (hv.trans_eq ((length_redistribute _ _).trans hlen).symm),
      List.getD_eq_getElem _ _ (hv.trans_eq hlen.symm), getElem_redistribute]
  · rw [sum_redistribute limit (length_histogram tile), sum_histogram]
  · rw [List.getD_eq_getElem _ _ (length_redistribute_histogram _ _ ▸ Nat.zero_lt_succ 255), getElem_redistribute,
      getElem_histogram, clippedExcess_replicate, List.count_replicate_self]
    exact Nat.one_lt_two

end Sys2Proof.Machine
end

section
/-! ### The mapping function of a tile (R143, R145) -/

namespace Sys2Proof.Machine

/-! #### The inclusive distribution -/

theorem runningSums_cons (acc h : ℕ) (l : List ℕ) :
    runningSums acc (h :: l) = (acc + h) :: runningSums (acc + h) l := rfl

@[simp] theorem length_runningSums (acc : ℕ) (l : List ℕ) : (runningSums acc l).length = l.length := by
  induction l generalizing acc with
  | nil => rfl
  | cons h l ih => rw [runningSums_cons, List.length_cons, List.length_cons, ih]

theorem getElem_runningSums (acc : ℕ) (l : List ℕ) {v : ℕ} (hv : v < (runningSums acc l).length) :
    (runningSums acc l)[v] = acc + (l.take (v + 1)).sum := by
  induction l generalizing acc v with
  | nil => cases hv
  | cons h l ih =>
    cases v with
    | zero => rfl
    | succ v => exact (ih (acc + h) (Nat.lt_of_succ_lt_succ hv)).trans (Nat.add_assoc ..)

/-- `cdf[v]` of R145: the redistributed bins up to `v`, added up. -/
def tileCdf (c : ℚ) (Nt : ℕ) (hist : List ℕ) (v : ℕ) : ℕ := ((redistribute (clipLimit c Nt) hist).take (v + 1)).sum

theorem tileCdf_eq (c : ℚ) (Nt : ℕ) (hist : List ℕ) (v : ℕ) :
    tileCdf c Nt hist v = ((redistribute (clipLimit c Nt) hist).take (v + 1)).sum := rfl

theorem tileCdf_mono (c : ℚ) (Nt : ℕ) (hist : List ℕ) : Monotone (tileCdf c Nt hist) := fun _ _ h =>
  List.Sublist.sum_le_sum (List.take_sublist_take_left (Nat.add_le_add_right h 1)) fun _ _ => Nat.zero_le _

theorem tileCdf_last (c : ℚ) (tile : List Sample) : tileCdf c tile.length (histogram tile) 255 = tile.length := by
  rw [tileCdf_eq, List.take_of_length_le (length_redistribute_histogram _ _).le,
    sum_redistribute _ (length_histogram tile), sum_histogram]

/-- The distribution of a uniform tile at its value: the clipped count, and its share of what was clipped (R148). -/
theorem tileCdf_replicate (c : ℚ) (n : ℕ) (u : Sample) {l : ℕ} (hl : l = min n (clipLimit c n)) :
    tileCdf c n (histogram (List.replicate n u)) u.toNat =
      (u.toNat + 1) * ((n - l) / 256) + min (u.toNat + 1) ((n - l) % 256) + l := by
  have hu : u.toNat + 1 ≤ 256 := u.isLt
  have hrest : n - clipLimit c n = n - l := by rw [hl, tsub_min]
  rw [tileCdf_eq, sum_take_redistribute _ _ (hu.trans_eq (length_histogram _).symm), clippedExcess_replicate, hrest,
    map_histogram_replicate (min · (clipLimit c n)) (Nat.zero_min _), sum_take_histogram _ hu, List.countP_replicate,
    if_pos (decide_eq_true (Nat.lt_succ_self _)), ← hl, Nat.add_assoc, Nat.add_comm]

/-- The distribution when nothing is clipped: how many samples do not exceed `v`. -/
theorem tileCdf_of_le {c : ℚ} {tile : List Sample}
    (h : ∀ v : Sample, tile.count v ≤ clipLimit c tile.length) (v : Sample) :
    tileCdf c tile.length (histogram tile) v.toNat = tile.countP fun x => decide (x.toNat ≤ v.toNat) := by
  rw [tileCdf_eq, redistribute_of_le, sum_take_histogram _ v.isLt]
  · simp only [Nat.lt_succ_iff]
  · rw [histogram_eq, List.forall_mem_map]
    exact fun w _ => h _

/-! #### The mapping function -/

theorem clipLimit_eq (c : ℚ) (Nt : ℕ) : clipLimit c Nt = max 1 (c * (Nt : ℚ) / 256).floor.toNat := rfl

/-- Each entry of the distribution is scaled, rounded and stored as a byte. -/
theorem mappingOf_eq (c : ℚ) (Nt : ℕ) (hist : List ℕ) : mappingOf c Nt hist =
    (runningSums 0 (redistribute (clipLimit c Nt) hist)).map fun cdf : ℕ =>
      clamp8 (roundTE ((cdf : ℚ) * 255 / (Nt : ℚ))) := by
  have hmap (l : List ℕ) : (l.flatMap fun cdf : ℕ => [(cdf : ℚ)]) = l.map Nat.cast := List.map_eq_flatMap.symm
  exact (congrArg (List.map _) (hmap _)).trans List.map_map

@[simp] theorem length_mappingOf (c : ℚ) (Nt : ℕ) (hist : List ℕ) : (mappingOf c Nt hist).length = hist.length := by
  rw [mappingOf_eq, List.length_map, length_runningSums, length_redistribute]

theorem getElem_mappingOf (c : ℚ) (Nt : ℕ) (hist : List ℕ) {v : ℕ} (hv : v < (mappingOf c Nt hist).length) :
    (mappingOf c Nt hist)[v] = clamp8 (roundTE ((tileCdf c Nt hist v : ℚ) * 255 / (Nt : ℚ))) := by
  rw [List.getElem_of_eq (mappingOf_eq c Nt hist) hv, List.getElem_map, getElem_runningSums, Nat.zero_add, tileCdf_eq]

/-- The last entry of a distribution bounds the others, so that none is clamped (R145). -/
theorem scaled_range {k n : ℕ} (hn : 0 < n) (hk : k ≤ n) : 0 ≤ (k : ℚ) * 255 / n ∧ (k : ℚ) * 255 / n ≤ 255 := by
  have hq : (0 : ℚ) < n := Nat.cast_pos.mpr hn
  have h255 : (0 : ℚ) ≤ 255 := Nat.ofNat_nonneg 255
  refine ⟨div_nonneg (mul_nonneg k.cast_nonneg h255) hq.le, ?_⟩
  rw [div_le_iff₀ hq, mul_comm]
  exact mul_le_mul_of_nonneg_left (Nat.cast_le.mpr hk) h255

/-- An entry of the mapping is its entry of the distribution, scaled and rounded (R145). -/
theorem mappingOf_getD (c : ℚ) {tile : List Sample} (hne : 0 < tile.length) {v : ℕ} (hv : v < 256) :
    (((mappingOf c tile.length (histogram tile)).getD v 0).toNat : ℤ) =
      roundTE ((tileCdf c tile.length (histogram tile) v : ℚ) * 255 / (tile.length : ℚ)) := by
  have hle := tileCdf_mono c tile.length (histogram tile) (Nat.le_of_lt_succ hv)
  rw [tileCdf_last] at hle
  obtain ⟨h0, h255⟩ := scaled_range hne hle
  have hlen : (mappingOf c tile.length (histogram tile)).length = 256 :=
    (length_mappingOf _ _ _).trans (length_histogram tile)
  rw [List.getD_eq_getElem _ _ (hv.trans_eq hlen.symm), getElem_mappingOf, clamp8_roundTE h0 h255]

/-- A tile of one sample maps its value to 255 (R148). -/
theorem mappingOf_single (c : ℚ) (u : Sample) : (mappingOf c 1 (histogram [u])).getD u.toNat 0 = 255#8 := by
  have hcdf : tileCdf c 1 (histogram [u]) u.toNat = 1 :=
    (tileCdf_replicate c 1 u (min_eq_left (le_max_left _ _)).symm).trans
      (by rw [Nat.sub_self, Nat.zero_div, Nat.zero_mod, Nat.mul_zero, Nat.min_zero])
  apply eq_of_toNat_int
  refine (mappingOf_getD c (tile := [u]) Nat.one_pos u.isLt).trans ?_
  rw [List.length_singleton, hcdf, Nat.cast_one, one_mul, div_one]
  exact roundTE_natCast 255

/-- Settles O50: the entries round a distribution that never falls and ends at the tile's size. -/
theorem mappingFollowsTheDistribution : Obligations.MappingFollowsTheDistribution := by
  refine ⟨fun c tile _ hne => ?_, 1, [0#8], one_pos, ?_⟩
  · have hpos := List.length_pos_iff.mpr hne
    refine ⟨fun v hv => mappingOf_getD c hpos hv, eq_of_toNat_int ?_, fun u v huv hv => ?_⟩
    · rw [mappingOf_getD c hpos (Nat.lt_succ_self 255), tileCdf_last,
        mul_div_cancel_left₀ _ (Nat.cast_ne_zero.mpr hpos.ne')]
      exact roundTE_natCast 255
    · rw [← Int.ofNat_le, mappingOf_getD c hpos (huv.trans_lt hv), mappingOf_getD c hpos hv]
      have hcdf := tileCdf_mono c tile.length (histogram tile) huv
      exact roundTE_mono (div_le_div_of_nonneg_right
        (mul_le_mul_of_nonneg_right (Nat.cast_le.mpr hcdf) (Nat.ofNat_nonneg 255)) (Nat.cast_nonneg _))
  · exact (congrArg BitVec.toNat (mappingOf_single 1 0#8)).symm ▸ Nat.zero_lt_succ 254

end Sys2Proof.Machine
end

section
/-! ### The blend of the tile mappings (R140, R141, R146) -/

namespace Sys2Proof.Machine

/-! #### Rows of values -/

theorem row_index_lt {i j m n : ℕ} (hi : i < m) (hj : j < n) : i * n + j < m * n := calc
  i * n + j < i * n + n := Nat.add_lt_add_left hj _
  _ = (i + 1) * n := (Nat.succ_mul i n).symm
  _ ≤ m * n := Nat.mul_le_mul_right n hi

/-- The value at column `j` of row `i` in a flat list of rows. -/
theorem getD_flatMap_range {α : Type} (m n : ℕ) (f : ℕ → ℕ → α) (d : α) {i j : ℕ} (hi : i < m) (hj : j < n) :
    ((List.range m).flatMap fun a => (List.range n).map (f a)).getD (i * n + j) d = f i j := by
  have hrow (a : ℕ) : ((List.range n).map (f a)).length = n := (List.length_map _).trans List.length_range
  have hlen (k : ℕ) : ((List.range k).flatMap fun a => (List.range n).map (f a)).length = k * n :=
    length_flatMap_range k n _ hrow
  induction m with
  | zero => cases hi
  | succ m ih =>
    rw [List.range_succ, List.flatMap_append, List.flatMap_singleton]
    rcases Nat.lt_succ_iff_lt_or_eq.mp hi with h | rfl
    · rw [List.getD_append _ _ _ _ ((row_index_lt h hj).trans_eq (hlen m).symm), ih h]
    · rw [List.getD_append_right _ _ _ _ ((hlen i).trans_le (Nat.le_add_right _ _)), hlen, Nat.add_sub_cancel_left,
        List.getD_eq_getElem _ _ (hj.trans_eq (hrow i).symm), List.getElem_map, List.getElem_range]

/-! #### The grid -/

section
variable {p : Params}

theorem params_N_eq (p : Params) : p.N = p.H * p.W := rfl

theorem tileH_eq (p : Params) : tileH p = min p.tr p.H := rfl

theorem tileW_eq (p : Params) : tileW p = min p.tc p.W := rfl

theorem ceilDiv_pos {n d : ℕ} (hn : 0 < n) (hd : 0 < d) : 0 < ceilDiv n d :=
  Nat.div_pos (Nat.le_sub_one_of_lt (Nat.lt_add_of_pos_left hn)) hd

theorem tilesY_pos (htr : 1 ≤ p.tr) (hH : 0 < p.H) : 0 < tilesY p := ceilDiv_pos hH (lt_min htr hH)

theorem tilesX_pos (htc : 1 ≤ p.tc) (hW : 0 < p.W) : 0 < tilesX p := ceilDiv_pos hW (lt_min htc hW)

theorem clampTile_lt (t : ℤ) {n : ℕ} (hn : 0 < n) : clampTile t n < n :=
  (Int.toNat_lt' hn).mpr ((min_le_right _ _).trans_lt (sub_one_lt _))

/-! #### The mapping functions of the tiles -/

@[simp] theorem length_tileSamples (L : List Sample) (H W th tw ty tx : ℕ) :
    (tileSamples L H W th tw ty tx).length = th * tw :=
  length_flatMap_range th tw _ fun _ => (List.length_map _).trans List.length_range

/-- `lut(ty, tx)` of R145, for the plane `L`. -/
def tileMapping (p : Params) (L : List Sample) (ty tx : ℕ) : List Sample :=
  mappingOf p.clip (tileH p * tileW p) (histogram (tileSamples L p.H p.W (tileH p) (tileW p) ty tx))

theorem tileMapping_eq (p : Params) (L : List Sample) (ty tx : ℕ) : tileMapping p L ty tx =
    mappingOf p.clip (tileH p * tileW p) (histogram (tileSamples L p.H p.W (tileH p) (tileW p) ty tx)) := rfl

/-- The stored mapping functions are those of the tiles, in row-major order (R141). -/
theorem claheMaps_eq (p : Params) (L : List Sample) : claheMaps p (claheHists p L) =
    (List.range (tilesY p)).flatMap fun ty => (List.range (tilesX p)).map (tileMapping p L ty) := by
  rw [claheMaps, claheHists, List.map_flatMap]
  simp only [List.map_map, Function.comp_def, ← tileMapping_eq]

theorem mapValue_claheMaps (L : List Sample) {ty tx : ℕ} (hy : ty < tilesY p) (hx : tx < tilesX p) (v : Sample) :
    mapValue (claheMaps p (claheHists p L)) (tilesX p) ty tx v = sampleQ ((tileMapping p L ty tx).getD v.toNat 0#8) := by
  rw [mapValue, claheMaps_eq, getD_flatMap_range _ _ (tileMapping p L) _ hy hx]

/-- Each bin counts the samples of its value in the padded rows and columns of the tile (R141, R142). -/
theorem histogram_tileSamples (L : List Sample) (H W th tw ty tx : ℕ) :
    histogram (tileSamples L H W th tw ty tx) = (List.range 256).map fun u =>
      ((List.range th).map fun i => ((List.range tw).filter fun j =>
        (L.getD (min (ty * th + i) (H - 1) * W + min (tx * tw + j) (W - 1)) 0).toNat = u).length).sum := by
  rw [histogram_eq]
  refine List.map_congr_left fun u hu => ?_
  have hval (x : Sample) : (x == BitVec.ofNat 8 u) = decide (x.toNat = u) :=
    (beq_eq_decide ..).trans (decide_eq_decide.mpr (eq_ofNat_iff (List.mem_range.mp hu)))
  rw [tileSamples, List.count_flatMap]
  refine congrArg List.sum (List.map_congr_left fun i _ => ?_)
  rw [Function.comp_apply, List.count_eq_countP, List.countP_map, List.countP_eq_length_filter]
  exact congrArg List.length (List.filter_congr fun j _ => hval _)

/-! #### The blend -/

/-- The point at `w` between two values. -/
def lerp (w a b : ℚ) : ℚ := (1 - w) * a + w * b

theorem lerp_mem {w a b lo hi : ℚ} (hw : 0 ≤ w ∧ w < 1) (ha : a ∈ Set.Icc lo hi) (hb : b ∈ Set.Icc lo hi) :
    lerp w a b ∈ Set.Icc lo hi := by
  obtain ⟨hw0, hw1⟩ := hw
  obtain ⟨ha0, ha1⟩ := ha
  obtain ⟨hb0, hb1⟩ := hb
  have hw : 0 ≤ 1 - w := sub_nonneg.mpr hw1.le
  have hself (x : ℚ) : (1 - w) * x + w * x = x := by
    rw [← add_mul, sub_add_cancel, one_mul]
  constructor
  · exact (hself lo).symm.trans_le (add_le_add (mul_le_mul_of_nonneg_left ha0 hw) (mul_le_mul_of_nonneg_left hb0 hw0))
  · exact (add_le_add (mul_le_mul_of_nonneg_left ha1 hw) (mul_le_mul_of_nonneg_left hb1 hw0)).trans_eq (hself hi)

theorem fract_range (x : ℚ) : 0 ≤ Int.fract x ∧ Int.fract x < 1 := ⟨Int.fract_nonneg x, Int.fract_lt_one x⟩

/-- The value that R146 rounds, for the pixel `(y, x)`. -/
def tileBlend (th tw nY nX : ℕ) (lut : ℕ → ℕ → ℚ) (y x : ℕ) : ℚ :=
  let row (ty : ℕ) := lerp (Int.fract (tileCoord x tw)) (lut ty (clampTile ⌊tileCoord x tw⌋ nX))
    (lut ty (clampTile (⌊tileCoord x tw⌋ + 1) nX))
  lerp (Int.fract (tileCoord y th)) (row (clampTile ⌊tileCoord y th⌋ nY)) (row (clampTile (⌊tileCoord y th⌋ + 1) nY))

theorem blendAt_eq (th tw nY nX : ℕ) (lut : ℕ → ℕ → ℚ) (y x : ℕ) :
    blendAt th tw nY nX lut y x = clamp8 (roundTE (tileBlend th tw nY nX lut y x)) := rfl

section
variable {th tw nY nX : ℕ} {lut lut' : ℕ → ℕ → ℚ}

/-- Only the mappings of the grid are blended. -/
theorem tileBlend_congr (hY : 0 < nY) (hX : 0 < nX) (h : ∀ ty < nY, ∀ tx < nX, lut ty tx = lut' ty tx) (y x : ℕ) :
    tileBlend th tw nY nX lut y x = tileBlend th tw nY nX lut' y x := by
  simp only [tileBlend, h _ (clampTile_lt _ hY) _ (clampTile_lt _ hX)]

/-- The blend lies between the bounds of the mapping values. -/
theorem tileBlend_mem {lo hi : ℚ} (hY : 0 < nY) (hX : 0 < nX)
    (h : ∀ ty < nY, ∀ tx < nX, lut ty tx ∈ Set.Icc lo hi) (y x : ℕ) :
    tileBlend th tw nY nX lut y x ∈ Set.Icc lo hi := by
  have hlut (t u : ℤ) := h _ (clampTile_lt t hY) _ (clampTile_lt u hX)
  have hrow (t : ℤ) := lerp_mem (fract_range (tileCoord x tw))
    (hlut t ⌊tileCoord x tw⌋) (hlut t (⌊tileCoord x tw⌋ + 1))
  exact lerp_mem (fract_range _) (hrow _) (hrow _)

end

/-! #### The output plane -/

/-- The value that R146 rounds for the pixel `(y, x)` of the plane `L`. -/
def claheValue (p : Params) (L : List Sample) (y x : ℕ) : ℚ :=
  tileBlend (tileH p) (tileW p) (tilesY p) (tilesX p)
    (fun ty tx => sampleQ ((tileMapping p L ty tx).getD (L.getD (y * p.W + x) 0#8).toNat 0#8)) y x

variable {L : List Sample} {y x : ℕ}

theorem claheValue_range (htr : 1 ≤ p.tr) (htc : 1 ≤ p.tc) (hy : y < p.H) (hx : x < p.W) :
    0 ≤ claheValue p L y x ∧ claheValue p L y x ≤ 255 :=
  tileBlend_mem (tilesY_pos htr (Nat.zero_lt_of_lt hy)) (tilesX_pos htc (Nat.zero_lt_of_lt hx))
    (fun _ _ _ _ => ⟨sampleQ_nonneg _, sampleQ_le _⟩) y x

/-- Each sample of the output is the byte of the blend at its pixel (R146). -/
theorem claheMap_getD (htr : 1 ≤ p.tr) (htc : 1 ≤ p.tc) (hy : y < p.H) (hx : x < p.W) :
    (claheMap p L).getD (y * p.W + x) 0 = clamp8 (roundTE (claheValue p L y x)) := by
  rw [claheMap, claheBlend, getD_flatMap_range _ _ _ _ hy hx, blendAt_eq, claheValue]
  exact congrArg (fun q => clamp8 (roundTE q)) <|
    tileBlend_congr (tilesY_pos htr (Nat.zero_lt_of_lt hy)) (tilesX_pos htc (Nat.zero_lt_of_lt hx))
      (fun ty hty tx htx => mapValue_claheMaps L hty htx _) y x

theorem claheMap_toNat (htr : 1 ≤ p.tr) (htc : 1 ≤ p.tc) (hy : y < p.H) (hx : x < p.W) :
    (((claheMap p L).getD (y * p.W + x) 0).toNat : ℤ) = roundTE (claheValue p L y x) := by
  obtain ⟨h0, h255⟩ := claheValue_range (L := L) htr htc hy hx
  rw [claheMap_getD htr htc hy hx, clamp8_roundTE h0 h255]

end

/-- Settles O51: the value that is rounded, with the histograms of its mappings written out. -/
theorem claheBlendsTileMappings : Obligations.ClaheBlendsTileMappings := by
  intro p L y x htr htc _ _ hy hx th tw nY nX v hist lut fy fx wy wx y1 y2 x1 x2 val
  have hlut : lut = fun ty tx => sampleQ ((tileMapping p L ty tx).getD v.toNat 0) := by
    funext ty tx
    rw [tileMapping_eq, histogram_tileSamples]
    rfl
  have hval : val = claheValue p L y x := calc
    val = tileBlend th tw nY nX lut y x := rfl
    _ = claheValue p L y x := by rw [hlut]; rfl
  obtain ⟨hwy0, hwy1⟩ := fract_range fy
  obtain ⟨hwx0, hwx1⟩ := fract_range fx
  obtain ⟨h0, h255⟩ := claheValue_range (L := L) htr htc hy hx
  rw [hval]
  exact ⟨hwy0, hwy1, hwx0, hwx1, h0, h255, claheMap_toNat htr htc hy hx⟩

end Sys2Proof.Machine
end

section
/-! ### The derived facts of `CLAHE` (R148) -/

namespace Sys2Proof.Machine

variable {p : Params} {L : List Sample}

theorem length_claheMap (p : Params) (L : List Sample) : (claheMap p L).length = p.N := length_claheBlend p _ _

/-- Each index of a plane is one of a pixel (R62). -/
theorem exists_pixel {H W k : ℕ} (hk : k < H * W) : ∃ y x, y < H ∧ x < W ∧ k = y * W + x :=
  have hW : 0 < W := Nat.pos_of_mul_pos_left (Nat.zero_lt_of_lt hk)
  ⟨k / W, k % W, (Nat.div_lt_iff_lt_mul hW).mpr hk, Nat.mod_lt k hW, (Nat.div_add_mod' k W).symm⟩

theorem sides_pos (hN : 0 < p.N) : 0 < p.H ∧ 0 < p.W :=
  ⟨Nat.pos_of_mul_pos_right hN, Nat.pos_of_mul_pos_left hN⟩

/-- A pixel whose value all mappings take to one byte gets that byte. -/
theorem claheMap_of_const {k : ℕ} {w : Sample} (htr : 1 ≤ p.tr) (htc : 1 ≤ p.tc) (hk : k < p.N)
    (h : ∀ ty < tilesY p, ∀ tx < tilesX p, (tileMapping p L ty tx).getD (L.getD k 0#8).toNat 0#8 = w) :
    (claheMap p L).getD k 0 = w := by
  obtain ⟨y, x, hy, hx, rfl⟩ := exists_pixel hk
  obtain ⟨hlow, hhigh⟩ : claheValue p L y x ∈ Set.Icc (sampleQ w) (sampleQ w) :=
    tileBlend_mem (tilesY_pos htr (Nat.zero_lt_of_lt hy)) (tilesX_pos htc (Nat.zero_lt_of_lt hx))
      (fun ty hty tx htx => h ty hty tx htx ▸ Set.left_mem_Icc.mpr le_rfl) y x
  rw [claheMap_getD htr htc hy hx, le_antisymm hhigh hlow, roundTE_sampleQ, clamp8_sample]

/-! #### A single tile -/

theorem ceilDiv_self {n : ℕ} (hn : 0 < n) : ceilDiv n n = 1 :=
  Nat.div_eq_of_lt_le ((Nat.one_mul n).trans_le (Nat.le_sub_one_of_lt (Nat.lt_add_of_pos_left hn)))
    ((Nat.sub_one_lt_of_lt (Nat.add_pos_left hn n)).trans_eq (Nat.two_mul n).symm)

/-- A tile that covers the plane is the plane. -/
theorem tileSamples_self {H W : ℕ} (hL : L.length = H * W) : tileSamples L H W H W 0 0 = L := by
  refine List.ext_getElem ((length_tileSamples ..).trans hL.symm) fun k hk hkL => ?_
  obtain ⟨y, x, hy, hx, rfl⟩ := exists_pixel (hkL.trans_eq hL)
  rw [← List.getD_eq_getElem _ 0#8 hk, ← List.getD_eq_getElem _ 0#8 hkL, tileSamples, getD_flatMap_range _ _ _ _ hy hx,
    paddedAt, Nat.zero_mul, Nat.zero_mul, Nat.zero_add, Nat.zero_add, Nat.min_eq_left (Nat.le_sub_one_of_lt hy),
    Nat.min_eq_left (Nat.le_sub_one_of_lt hx)]

theorem tileH_of_covered (hrows : p.H ≤ p.tr) : tileH p = p.H := Nat.min_eq_right hrows

theorem tileW_of_covered (hcols : p.W ≤ p.tc) : tileW p = p.W := Nat.min_eq_right hcols

theorem tiles_of_covered (hN : 0 < p.N) (hrows : p.H ≤ p.tr) (hcols : p.W ≤ p.tc) : tilesY p = 1 ∧ tilesX p = 1 :=
  ⟨(congrArg (ceilDiv p.H) (tileH_of_covered hrows)).trans (ceilDiv_self (sides_pos hN).1),
    (congrArg (ceilDiv p.W) (tileW_of_covered hcols)).trans (ceilDiv_self (sides_pos hN).2)⟩

/-- With one tile, the output is the tile's mapping of each sample. -/
theorem claheMap_of_covered (htr : 1 ≤ p.tr) (htc : 1 ≤ p.tc) (hL : L.length = p.N)
    (hrows : p.H ≤ p.tr) (hcols : p.W ≤ p.tc) {k : ℕ} (hk : k < p.N) :
    (claheMap p L).getD k 0 = (mappingOf p.clip p.N (histogram L)).getD (L.getD k 0).toNat 0 := by
  obtain ⟨hY, hX⟩ := tiles_of_covered (Nat.zero_lt_of_lt hk) hrows hcols
  refine claheMap_of_const htr htc hk fun ty hty tx htx => ?_
  rw [Nat.lt_one_iff.mp (hty.trans_eq hY), Nat.lt_one_iff.mp (htx.trans_eq hX), tileMapping_eq, tileH_of_covered hrows,
    tileW_of_covered hcols, tileSamples_self hL]
  rfl

/-- Plain equalisation of a plane: nothing is clipped. -/
theorem mappingOf_unclipped {c : ℚ} (hne : 0 < L.length)
    (hcount : ∀ v : Sample, (L.count v : ℤ) ≤ (c * (L.length : ℚ) / 256).floor) (v : Sample) :
    (((mappingOf c L.length (histogram L)).getD v.toNat 0).toNat : ℤ) =
      roundTE (255 * (((L.filter fun x => decide (x.toNat ≤ v.toNat)).length : ℕ) : ℚ) / (L.length : ℚ)) := by
  have hclip (w : Sample) : L.count w ≤ clipLimit c L.length :=
    le_max_of_le_right ((Int.toNat_natCast _).symm.trans_le (Int.toNat_le_toNat (hcount w)))
  rw [mappingOf_getD c hne v.isLt, tileCdf_of_le hclip, List.countP_eq_length_filter, mul_comm]

/-! #### A uniform plane -/

theorem paddedAt_replicate {H W : ℕ} (hH : 0 < H) (hW : 0 < W) (u : Sample) (yy xx : ℕ) :
    paddedAt (List.replicate (H * W) u) H W yy xx = u := by
  have hlt : min yy (H - 1) * W + min xx (W - 1) < (List.replicate (H * W) u).length :=
    (row_index_lt ((Nat.min_le_right _ _).trans_lt (Nat.sub_one_lt_of_lt hH))
      ((Nat.min_le_right _ _).trans_lt (Nat.sub_one_lt_of_lt hW))).trans_eq List.length_replicate.symm
  rw [paddedAt, List.getD_eq_getElem _ _ hlt, List.getElem_replicate]

theorem tileSamples_replicate {H W : ℕ} (hH : 0 < H) (hW : 0 < W) (u : Sample) (th tw ty tx : ℕ) :
    tileSamples (List.replicate (H * W) u) H W th tw ty tx = List.replicate (th * tw) u := by
  refine List.eq_replicate_iff.mpr ⟨length_tileSamples .., fun b hb => ?_⟩
  obtain ⟨i, -, hrow⟩ := List.mem_flatMap.mp hb
  obtain ⟨j, -, rfl⟩ := List.mem_map.mp hrow
  exact paddedAt_replicate hH hW u _ _

/-- On a uniform plane every tile has the same mapping, that of a uniform tile. -/
theorem claheMap_replicate (htr : 1 ≤ p.tr) (htc : 1 ≤ p.tc) (u : Sample) {k : ℕ} (hk : k < p.N) :
    (claheMap p (List.replicate p.N u)).getD k 0 =
      (mappingOf p.clip (tileH p * tileW p) (histogram (List.replicate (tileH p * tileW p) u))).getD u.toNat 0 := by
  obtain ⟨hH, hW⟩ := sides_pos (Nat.zero_lt_of_lt hk)
  refine claheMap_of_const htr htc hk fun ty _ tx _ => ?_
  rw [List.getD_eq_getElem _ _ (hk.trans_eq List.length_replicate.symm), List.getElem_replicate, tileMapping_eq, params_N_eq,
    tileSamples_replicate hH hW]
  rfl

/-- The mapping of a uniform tile at its value. -/
theorem mappingOf_replicate (c : ℚ) {n : ℕ} (hn : 0 < n) (u : Sample) {l : ℕ} (hl : l = min n (clipLimit c n)) :
    (((mappingOf c n (histogram (List.replicate n u))).getD u.toNat 0).toNat : ℤ) =
      roundTE (255 * (((u.toNat + 1) * ((n - l) / 256) + min (u.toNat + 1) ((n - l) % 256) + l : ℕ) : ℚ) / (n : ℚ)) := by
  have h := mappingOf_getD c (hn.trans_eq (List.length_replicate (a := u)).symm) u.isLt
  rwa [List.length_replicate, tileCdf_replicate c n u hl, mul_comm] at h

/-! #### A plane of one pixel -/

theorem claheMap_single (htr : 1 ≤ p.tr) (htc : 1 ≤ p.tc) (hL : L.length = p.N) (hH : p.H = 1) (hW : p.W = 1) :
    claheMap p L = [255#8] := by
  have hN : p.N = 1 := by rw [params_N_eq, hH, hW]
  obtain ⟨u, rfl⟩ := List.length_eq_one_iff.mp (hL.trans hN)
  obtain ⟨w, hw⟩ := List.length_eq_one_iff.mp ((length_claheMap p [u]).trans hN)
  have h := claheMap_of_covered (k := 0) htr htc hL (hH ▸ htr) (hW ▸ htc) (hN ▸ Nat.one_pos)
  rw [hN] at h
  rw [hw] at h ⊢
  exact congrArg (fun v => [v]) (h.trans (mappingOf_single p.clip u))

/-- Settles O52: a covering tile is the plane, a uniform plane has uniform tiles, and the one pixel is both. -/
theorem claheDerivedFacts : Obligations.ClaheDerivedFacts := by
  intro p L htr htc _ hN hL
  refine ⟨fun hrows hcols => ?_, ?_, claheMap_single htr htc hL, length_claheMap p L,
    fun v _ => Nat.le_of_lt_succ v.isLt⟩
  · obtain ⟨hY, hX⟩ := tiles_of_covered hN hrows hcols
    refine ⟨hY, hX, fun k hk => claheMap_of_covered htr htc hL hrows hcols hk, fun hcount k hk => ?_⟩
    rw [claheMap_of_covered htr htc hL hrows hcols hk, ← hL]
    rw [← hL] at hN hcount
    exact mappingOf_unclipped hN hcount _
  · rintro u rfl
    intro Nt l q r cdf k hk
    obtain ⟨hH, hW⟩ := sides_pos hN
    have hNt : 0 < Nt := Nat.mul_pos (Nat.lt_min.mpr ⟨htr, hH⟩) (Nat.lt_min.mpr ⟨htc, hW⟩)
    rw [claheMap_replicate htr htc u hk]
    exact mappingOf_replicate p.clip hNt u (Nat.min_comm _ _)

end Sys2Proof.Machine
end
